-- ==== Sys2Proof/Word.lean ====
section
/-! DEFINITION. The word types of the hart: XLEN-bit values, register and CSR numbers, and capability values
(spec/10_state.md R10). An XLEN-bit value is carried in 64 bits; with XLEN = 32 the upper half is zero
(notes/assumptions/1.md). -/

namespace Sys2Proof

/-- A carrier of an XLEN-bit value. -/
abbrev XWord := BitVec 64

abbrev Byte := BitVec 8

/-- An instruction word (R60: every instruction with a rule is 32 bits long). -/
abbrev IWord := BitVec 32

/-- A general register number, 0 to 31 (R61). -/
abbrev RegNum := BitVec 5

/-- A CSR number (R62). -/
abbrev CsrNum := BitVec 12

/-- The integer register width (spec/00_scope.md section 5). -/
inductive Xlen where
  | rv32
  | rv64
deriving DecidableEq, Repr, Inhabited

/-- XLEN as a number. -/
def Xlen.bits : Xlen → Nat
  | .rv32 => 32
  | .rv64 => 64

/-- The bits an XLEN-bit value may have set, in a 64-bit carrier. -/
def Xlen.mask : Xlen → XWord
  | .rv32 => 0xffffffff#64
  | .rv64 => 0xffffffffffffffff#64

/-- Reduction modulo `2^XLEN` (spec/00_scope.md section 6.1). -/
def Xlen.trunc (x : Xlen) (v : XWord) : XWord := v &&& x.mask

/-- A capability value: tag, `CLEN - XLEN` bits of metadata (`md`; the spec writes `meta`) and the address (R10). -/
structure Cap where
  tag  : Bool
  md   : XWord
  addr : XWord
deriving DecidableEq, Repr, Inhabited

/-- `NullCap(a)`: tag 0, metadata 0, address `a` (spec/00_scope.md section 6.2). -/
def Cap.null (a : XWord) : Cap := { tag := false, md := 0#64, addr := a }

/-- Both halves of a capability reduced to XLEN bits. -/
def Cap.trunc (x : Xlen) (c : Cap) : Cap :=
  { tag := c.tag, md := x.trunc c.md, addr := x.trunc c.addr }

end Sys2Proof
end

