-- ==== Sys2Proof/Syntax.lean ====
section
/-! DEFINITION. The instructions of spec/opcode_table.json, one constructor per row (fields R61, R62). -/

namespace Sys2Proof

inductive Instr where
  /-- CSRRW `rd, csr, rs1` (R121). -/
  | csrrw (rd : RegNum) (csr : CsrNum) (rs1 : RegNum)
  /-- CSRRS `rd, csr, rs1` (R122). -/
  | csrrs (rd : RegNum) (csr : CsrNum) (rs1 : RegNum)
  /-- CSRRC `rd, csr, rs1` (R123). -/
  | csrrc (rd : RegNum) (csr : CsrNum) (rs1 : RegNum)
  /-- CSRRWI `rd, csr, uimm` (R124). -/
  | csrrwi (rd : RegNum) (csr : CsrNum) (uimm : BitVec 5)
  /-- CSRRSI `rd, csr, uimm` (R125). -/
  | csrrsi (rd : RegNum) (csr : CsrNum) (uimm : BitVec 5)
  /-- CSRRCI `rd, csr, uimm` (R126). -/
  | csrrci (rd : RegNum) (csr : CsrNum) (uimm : BitVec 5)
  /-- LR.B `rd, (rs1)` (R72). -/
  | lrB (rd rs1 : RegNum) (aq rl : Bool)
  /-- LR.H `rd, (rs1)` (R73). -/
  | lrH (rd rs1 : RegNum) (aq rl : Bool)
  /-- SC.B `rd, rs2, (rs1)` (R74). -/
  | scB (rd rs1 rs2 : RegNum) (aq rl : Bool)
  /-- SC.H `rd, rs2, (rs1)` (R75). -/
  | scH (rd rs1 rs2 : RegNum) (aq rl : Bool)
  /-- SH4ADD `rd, rs1, rs2` (R81). -/
  | sh4add (rd rs1 rs2 : RegNum)
  /-- SH4ADD.UW `rd, rs1, rs2` (R82). -/
  | sh4addUw (rd rs1 rs2 : RegNum)
  /-- MODESW_CAP (R101). -/
  | modeswCap
  /-- MODESW_INT (R102). -/
  | modeswInt
  /-- SCMODE `cd, cs1, rs2` (R103). -/
  | scmode (rd rs1 rs2 : RegNum)
deriving DecidableEq, Repr

end Sys2Proof
end

