-- ==== Sys2Proof/Config.lean ====
section
/-! DEFINITION. What an implementation fixes. `HartConfig` holds every parameter of spec/00_scope.md section 5 that
is plain data (a number, a set, a choice); a state carries one, no step changes it, and statements hold for every
one (notes/assumptions/2.md). The parameters that are unknown FUNCTIONS are the opaque constants of `Config`: nothing
can be proved of their values. The constraints the spec puts on them are built into the definitions that use them
(Machine/Ops.lean, Machine/Csrs.lean). -/

namespace Sys2Proof

/-- HAS_BASE and HAS_HYBRID in one choice, so that the hybrid extension without the base one cannot be written
(R1, R141). -/
inductive CheriSupport where
  | absent
  | base
  | hybrid
deriving DecidableEq, Repr, Inhabited

/-- The privilege levels a hart implements: HAS_S and HAS_H in one choice (R167). PRESUMED, unsafe
(notes/assumptions/40.md): the spec gives HAS_S and HAS_H as two Bools with no implication and lets user mode be optional;
here the hypervisor extension brings supervisor mode and supervisor mode brings user mode, and the other combinations
cannot be written. -/
inductive PrivLevels where
  | m
  | mu
  | msu
  | msuh
deriving DecidableEq, Repr, Inhabited

/-- The current privilege (R167). `S` is HS-mode on a hart with the hypervisor extension. Debug mode is not in the
model (R141, D15). -/
inductive Priv where
  | M
  | S
  | U
  | VS
  | VU
deriving DecidableEq, Repr, Inhabited

/-- The three cases of `Mode()` (R140). -/
inductive Mode where
  | off
  | int
  | cap
deriving DecidableEq, Repr, Inhabited

/-- The width of one CSR access (R111 to R116). -/
inductive Width where
  | xlen
  | clen
deriving DecidableEq, Repr, Inhabited

/-- The two classes of capability-wide CSR (R20, R21). -/
inductive CapClass where
  | extended
  | newCap
deriving DecidableEq, Repr, Inhabited

/-- `ModeClass` (R144). -/
inductive ModeClass where
  | capOnly
  | intOnly
  | both
deriving DecidableEq, Repr, Inhabited

/-- What a memory access asks of the authorising capability (R43). -/
inductive AccessKind where
  | load
  | store
  | fetch
deriving DecidableEq, Repr, Inhabited

/-- A capability-wide CSR: the seven the spec names, and any further member of the parameters `ExtendedCSRs` and
`NewCapCSRs` (R20 to R22, R27 to R32, R16). -/
inductive CapCsr where
  | mtvecc
  | mepcc
  | stvecc
  | sepcc
  | vstvecc
  | vsepcc
  | ddc
  | extra (num : CsrNum)
deriving DecidableEq, Repr, Inhabited

/-- A (match, mask) pair: a word `w` is selected when `w & mask = pat` (R63). -/
structure Pattern where
  pat  : IWord
  mask : IWord
deriving DecidableEq, Repr, Inhabited

/-- What the presence of an instruction can depend on (R91): the extensions of this spec, the XLEN (R145), and further
extensions by number, since the names of the lost table's fourteen columns are lost. -/
inductive Ext where
  | base
  | hybrid
  | zabhlrsc
  | zish4add
  | compressed
  | supervisor
  | hypervisor
  | xlen32
  | xlen64
  | other (n : Nat)
deriving DecidableEq, Repr, Inhabited

/-- `Present(instr, config)` of one CHERI instruction (R91, D9): unknown, or present exactly where all the extensions of one
of these alternatives are implemented. -/
inductive Presence where
  | unknown
  | needs (alternatives : List (List Ext))
deriving DecidableEq, Repr, Inhabited

/-- What a configuration knows of the words a pattern selects, for which the spec has no rule. `cheri` is none for a word
that is not a CHERI instruction (`IsCheriInstr`, R142) and else its `Present` (R91); `cls` is its `ModeClass` where that is
known (R144). A 16-bit parcel is looked up zero-extended. -/
structure KnownWord where
  enc   : Pattern
  cheri : Option Presence
  cls   : Option ModeClass
deriving DecidableEq, Repr, Inhabited

/-- What can end a reservation beside a store-conditional and a new load-reserved (R35, I21): entry into an exception or an
interrupt, a trap return, a CSR instruction, a taken branch or jump, a fence, a wait. -/
inductive ReservationEvent where
  | exception
  | interrupt
  | trapReturn
  | csrAccess
  | jump
  | fence
  | wait
deriving DecidableEq, Repr, Inhabited

/-- A further capability-wide CSR of a configuration (R20, R21) and whether it is in `PointerCSRs` (R24) and in
`FullWidthCSRs` (R23). -/
structure ExtraCsr where
  num       : CsrNum
  cls       : CapClass
  isPointer : Bool
  isFull    : Bool
deriving DecidableEq, Repr, Inhabited

/-- `SH4ADD_CAP_MODE_SEMANTICS` where supplied: what SH4ADD and SH4ADD.UW do in Capability Mode (R81, D26). -/
inductive Sh4addCapSem where
  | illegal
  | integer
  | capability
deriving DecidableEq, Repr, Inhabited

/-- How memory answers at the addresses of a region: `main` is main memory; in the other two `BaseRV` raises an
access fault or a page fault (R47, R161). -/
inductive RegionKind where
  | main
  | accessFault
  | pageFault
deriving DecidableEq, Repr, Inhabited

/-- A part of the admitted memory (R49): `size` bytes from `base`. -/
structure Region where
  base : Nat
  size : Nat
  kind : RegionKind
deriving DecidableEq, Repr, Inhabited

/-- `EffCRE` as a table: for each privilege, bit `mseccfg.CRE + 2*menvcfg.CRE + 4*senvcfg.CRE` is the effective
CRE (R18, D5). -/
structure CreTable where
  m  : BitVec 8
  s  : BitVec 8
  u  : BitVec 8
  vs : BitVec 8
  vu : BitVec 8
deriving DecidableEq, Repr, Inhabited

/-- `NONRW_READ_WIDTH` in the two modes it is open in (R116, D8). -/
structure ReadWidths where
  intExtended : Width
  intNew      : Width
  capExtended : Width
  capNew      : Width
deriving DecidableEq, Repr, Inhabited

/-- The plain-data parameters of spec/00_scope.md section 5. -/
structure HartConfig where
  xlen : Xlen
  /-- MXLEN (D4); no rule reads it. -/
  mxlen : Xlen
  cheri : CheriSupport
  hasZabhlrsc : Bool
  hasZish4add : Bool
  levels : PrivLevels
  /-- Whether the compressed extension is implemented (R36, `misa.C`). -/
  hasC : Bool
  /-- `MISA_C_WRITABLE` (R19). -/
  misaCWritable : Bool
  /-- `CAP_MODE_VALUE`; `INT_MODE_VALUE` is the other value (R11, D3). -/
  capModeValue : Bool
  /-- `M_BIT_POS` (R11). -/
  mBitPos : Nat
  /-- `ReservedMask` (R10). -/
  reservedMask : XWord
  /-- `RESERVED_READ` (R23). -/
  reservedRead : XWord
  /-- The metadata of `InfiniteCap` (R12). -/
  infiniteMeta : XWord
  effCre : CreTable
  /-- The places of the three CRE bits (R17). -/
  creBitM : Nat
  creBitMenv : Nat
  creBitSenv : Nat
  readWidths : ReadWidths
  /-- Members of `ExtendedCSRs` and `NewCapCSRs` beyond the seven named ones (D6). -/
  extraCsrs : List ExtraCsr
  /-- CSR numbers known to name no CSR of this hart (R110). -/
  absentCsrs : List CsrNum
  /-- `FullWidthCSRs` among the seven named CSRs, by number (R23). -/
  fullWidth : List CsrNum
  /-- Whether `ddc` is in `PointerCSRs` (R24). -/
  ddcIsPointer : Bool
  /-- `CsrNumber(ddc)` (R16, D23). -/
  ddcNum : CsrNum
  encModeswCap : Option Pattern
  encModeswInt : Option Pattern
  encScmode : Option Pattern
  /-- `ModeClass` of the three hybrid instructions: whether each is valid in Integer Mode too (R144: none is
  `IntOnly`). -/
  modeswCapInInt : Bool
  modeswIntInInt : Bool
  scmodeInInt : Bool
  /-- `IsCheriInstr`, `ModeClass` and `Present` of words without a rule; the first pattern that selects a word counts. -/
  knownWords : List KnownWord
  /-- Extensions beyond those of this spec that the hart implements (R91). -/
  otherExts : List Nat
  /-- `RemapCompressed`: the parcels it gives an instruction (R143, I14). -/
  remapCompressed : List (BitVec 16 × Instr)
  sh4addCap : Option Sh4addCapSem
  /-- `CAUSE_CHERI` (R161, D13). -/
  causeCheri : Option Nat
  /-- `HICAUSE` (D20); no rule reads it (90_conflicts C5). -/
  hicause : Nat
  /-- `TVEC_MAX_OFFSET` in bytes (R119). -/
  tvecMaxOffset : Nat
  /-- Whether an illegal instruction records its word in the trap value register, or 0 (R160). -/
  illegalTvalIsWord : Bool
  /-- The reservation granule is `2^granuleLog` bytes (R35, D12). -/
  granuleLog : Nat
  /-- What clears a reservation beside a store-conditional (R35, I21). -/
  clearsReservation : List ReservationEvent
  /-- The admitted memory (R47, R49). -/
  regions : List Region
  /-- `RESET_PC` (R49). -/
  resetPc : XWord
deriving DecidableEq, Repr, Inhabited

/-- HAS_BASE. -/
def HartConfig.hasBase (c : HartConfig) : Bool := c.cheri != .absent

/-- HAS_HYBRID. -/
def HartConfig.hasHybrid (c : HartConfig) : Bool := c.cheri == .hybrid

/-- HAS_H. -/
def HartConfig.hasH (c : HartConfig) : Bool := c.levels == .msuh

/-- HAS_S. -/
def HartConfig.hasS (c : HartConfig) : Bool := c.levels == .msu || c.levels == .msuh

/-- Whether the hart has user mode. -/
def HartConfig.hasU (c : HartConfig) : Bool := c.levels != .m

/-- Whether the hart implements a privilege. -/
def HartConfig.supports (c : HartConfig) : Priv → Bool
  | .M => true
  | .S => c.hasS
  | .U => c.hasU
  | .VS => c.hasH
  | .VU => c.hasH

/-- Whether the hart implements what an instruction's presence depends on (R91). -/
def HartConfig.implements (c : HartConfig) : Ext → Bool
  | .base => c.hasBase
  | .hybrid => c.hasHybrid
  | .zabhlrsc => c.hasZabhlrsc
  | .zish4add => c.hasZish4add
  | .compressed => c.hasC
  | .supervisor => c.hasS
  | .hypervisor => c.hasH
  | .xlen32 => c.xlen == .rv32
  | .xlen64 => c.xlen == .rv64
  | .other n => c.otherExts.contains n

/-- `INT_MODE_VALUE`: the value that is not `CAP_MODE_VALUE` (R11). -/
def HartConfig.intModeValue (c : HartConfig) : Bool := !c.capModeValue

/-- The bit of the metadata that holds `m` (R11); empty where there is no M bit. -/
def HartConfig.mMask (c : HartConfig) : XWord :=
  if c.hasHybrid then 1#64 <<< c.mBitPos else 0#64

/-- The configuration the reset state carries: the common configuration of spec/95_test_vectors.md, the recommended
instances of spec/92_eei_decisions.md where it gives one, and the choices of notes/assumptions/2.md. DESIGN CHOICE
(notes/assumptions/2.md): `NONRW_READ_WIDTH`, of which D8 adopts no reading, is XLEN for an extended CSR in Integer Mode, and
CLEN for a new capability CSR there and for both classes in Capability Mode. -/
def HartConfig.common : HartConfig where
  xlen := .rv64
  mxlen := .rv64
  cheri := .hybrid
  hasZabhlrsc := true
  hasZish4add := true
  levels := .msuh
  hasC := true
  misaCWritable := false
  capModeValue := true
  mBitPos := 0
  reservedMask := 0#64
  reservedRead := 0#64
  infiniteMeta := 0xfffffffffffffffe#64
  effCre := { m := 0xaa#8, s := 0x88#8, u := 0x80#8, vs := 0x88#8, vu := 0x80#8 }
  creBitM := 3
  creBitMenv := 28
  creBitSenv := 28
  readWidths := { intExtended := .xlen, intNew := .clen, capExtended := .clen, capNew := .clen }
  extraCsrs := []
  absentCsrs := [0x000#12, 0x004#12, 0x005#12, 0x040#12, 0x041#12, 0x042#12, 0x043#12, 0x044#12]
  fullWidth := []
  ddcIsPointer := true
  ddcNum := 0x416#12
  encModeswCap := none
  encModeswInt := none
  encScmode := none
  modeswCapInInt := true
  modeswIntInInt := true
  scmodeInInt := true
  knownWords := []
  otherExts := []
  remapCompressed := []
  sh4addCap := none
  causeCheri := none
  hicause := 16
  tvecMaxOffset := 64
  illegalTvalIsWord := true
  granuleLog := 6
  clearsReservation := []
  regions := [{ base := 0, size := 2 ^ 64, kind := .main }]
  resetPc := 0x80000000#64

/-! ### Unknown functions (free values) -/

/-- The bounds part of `Authorises` (R43, R119): is the byte at this address within the bounds of the capability? -/
opaque Config.inBounds : Cap → Nat → Bool

/-- The rest of `Authorises` (R43): seal and permissions, for an access of this many bytes at this address. -/
opaque Config.permits : Cap → XWord → Nat → AccessKind → Bool

/-- The value recorded with `CAUSE_CHERI` (R161). -/
opaque Config.cheriTval : Cap → XWord → Nat → AccessKind → XWord

/-- `ValidAddr` where XLEN = 64 (R44). -/
opaque Config.validAddr : XWord → Bool

/-- Whether the CSR can hold this address, beyond what R24 and R25 force (R24). -/
opaque Config.holdable : CapCsr → XWord → Bool

/-- A candidate for `InvalidAddrConv` (R25). -/
opaque Config.invalidAddrConv : CapCsr → XWord → XWord

/-- Whether the CSR stores fewer than XLEN address bits (R120). -/
opaque Config.storesFewerBits : CapCsr → Bool

/-- Whether the tag survives the invalid address check (R25, R120). -/
opaque Config.invalidAddrTag : CapCsr → Cap → Bool

/-- Whether the written tag survives a CLEN-bit write: CSR, old value, written value, `misa.C` (R117). -/
opaque Config.clenWriteTag : CapCsr → Cap → Cap → Bool → Bool

/-- Whether the old tag survives an XLEN-bit write: CSR, old value, written address, `misa.C` (R118). -/
opaque Config.xlenWriteTag : CapCsr → Cap → XWord → Bool → Bool

/-- What a write to an `Xtvecc` leaves when the vector range check fails: width of the write (the CLEN-bit and the XLEN-bit
write are two open functions, D7), CSR, old value, the capability that failed, `misa.C` (R119). -/
opaque Config.vectorCheckFailed : Width → CapCsr → Cap → Cap → Bool → Cap

/-- The MODE bit an `Xtvecc` takes when a reserved MODE is written (R27: WARL): CSR, old and written address. DESIGN CHOICE
(notes/assumptions/14.md): one legalization of the register, for writes of either width. -/
opaque Config.reservedVectorMode : CapCsr → XWord → XWord → Bool

/-- The tag and metadata of a legalized `Xepcc` whose address changed (R26). -/
opaque Config.legalEpccTag : Cap → Bool → Bool
opaque Config.legalEpccMeta : Cap → Bool → XWord

/-- `ScmodeSem` (R103). -/
opaque Config.scmodeSem : Cap → XWord → Cap

/-- The capability form of SH4ADD (`false`) and SH4ADD.UW (`true`) on `c[rs1]`, `c[rs2]` (R81, R82). -/
opaque Config.sh4addCapResult : Bool → Cap → Cap → Cap

/-- Whether the n-th store-conditional that could succeed does (R74). -/
opaque Config.scSucceeds : Nat → Bool

/-- The bits of a base CSR that no rule gives, after a write: CSR number, old and written value (R110). -/
opaque Config.baseOther : CsrNum → XWord → XWord → XWord

/-- A candidate for `mstatus.MPP` after an unsupported value is written: old and written word (R166). -/
opaque Config.legalMpp : XWord → XWord → BitVec 2

/-- The value EBREAK records, from the pc (R168: the base ISA lets it be the pc or 0). -/
opaque Config.breakpointTval : XWord → XWord

end Sys2Proof
end

