-- ==== Sys2Proof/WellFormed.lean ====
section
/-! DEFINITION. Which instructions a hart of a given configuration has, and which configurations the spec allows.
Register, CSR and immediate fields are bounded by their types, so an instruction is ill-formed only where its
extension, its XLEN or its encoding is missing. -/

namespace Sys2Proof

/-- The instruction exists on a hart of this configuration: its extension is implemented (R64, outcome 1; R104), SH4ADD.UW
needs XLEN = 64 (R82), and the three hybrid instructions need their encoding supplied (R63). -/
def Instr.wf (c : HartConfig) : Instr → Bool
  | .csrrw _ _ _ => true
  | .csrrs _ _ _ => true
  | .csrrc _ _ _ => true
  | .csrrwi _ _ _ => true
  | .csrrsi _ _ _ => true
  | .csrrci _ _ _ => true
  | .lrB _ _ _ _ => c.hasZabhlrsc
  | .lrH _ _ _ _ => c.hasZabhlrsc
  | .scB _ _ _ _ _ => c.hasZabhlrsc
  | .scH _ _ _ _ _ => c.hasZabhlrsc
  | .sh4add _ _ _ => c.hasZish4add
  | .sh4addUw _ _ _ => c.hasZish4add && c.xlen == .rv64
  | .modeswCap => c.hasHybrid && c.encModeswCap.isSome
  | .modeswInt => c.hasHybrid && c.encModeswInt.isSome
  | .scmode _ _ _ => c.hasHybrid && c.encScmode.isSome

/-- An XLEN-bit value stays within XLEN bits. -/
def Xlen.fits (x : Xlen) (v : XWord) : Bool := x.trunc v == v

/-- A capability whose halves are XLEN-bit values. -/
def Cap.fits (x : Xlen) (c : Cap) : Bool := x.fits c.md && x.fits c.addr

/-- `MXLEN >= XLEN` (D4). -/
def HartConfig.mxlenWf (c : HartConfig) : Bool := c.xlen.bits ≤ c.mxlen.bits

/-- The M bit lies inside the metadata and is not reserved (R11). -/
def HartConfig.mBitWf (c : HartConfig) : Bool :=
  c.mBitPos < c.xlen.bits && !c.reservedMask.getLsbD c.mBitPos

/-- The CRE bits lie inside their CSRs (R17). DESIGN CHOICE, unsafe (notes/assumptions/8.md): these CSRs are XLEN bits wide, so
where XLEN is 32 a CRE bit in an upper half, with a CSR of its own, cannot be expressed. -/
def HartConfig.creWf (c : HartConfig) : Bool :=
  c.creBitM < c.xlen.bits && c.creBitMenv < c.xlen.bits && c.creBitSenv < c.xlen.bits

/-- The metadata parameters are `CLEN - XLEN` bits wide, and the infinite capability reads back from a CSR that does
not store reserved bits (R12: every register of the list must be able to hold it). -/
def HartConfig.metaWf (c : HartConfig) : Bool :=
  c.xlen.fits c.reservedMask && c.xlen.fits c.infiniteMeta && c.xlen.fits c.resetPc &&
    (c.infiniteMeta &&& c.reservedMask == c.reservedRead &&& c.reservedMask)

/-- The CSR numbers whose meaning no configuration changes (D23). -/
def fixedCsrNums : List CsrNum :=
  [0x305#12, 0x341#12, 0x105#12, 0x141#12, 0x205#12, 0x241#12, 0x747#12, 0x30a#12, 0x10a#12, 0x301#12, 0x300#12,
    0x310#12, 0x342#12, 0x343#12, 0x302#12, 0x303#12, 0x304#12, 0x344#12, 0x100#12, 0x142#12, 0x143#12, 0x600#12,
    0x602#12, 0x603#12, 0x200#12, 0x242#12, 0x243#12]

/-- No two CSRs share a number: `ExtendedCSRs` and `NewCapCSRs` are disjoint sets of names (R21). -/
def HartConfig.csrNumsWf (c : HartConfig) : Bool :=
  decide ((c.ddcNum :: c.extraCsrs.map (·.num)).Nodup) &&
    (c.ddcNum :: c.extraCsrs.map (·.num)).all fun n => !fixedCsrNums.contains n

/-- A configuration the spec allows; R1 is built into `CheriSupport`, the difference of the two mode values into
`intModeValue`. -/
def HartConfig.wf (c : HartConfig) : Bool :=
  c.mxlenWf && c.mBitWf && c.creWf && c.metaWf && c.csrNumsWf

end Sys2Proof
end

