-- ==== Sys2Proof/Decode.lean ====
section
/-! DEFINITION. The decoder and the encoder of the fifteen rows (spec/30_encoding.md R60 to R65). The decoder is total on
any bytes and rejects by name. What a rejected word means (illegal, base ISA, refused: outcomes 2 to 4 of R64) is
settled in Machine/BaseRV.lean. -/

namespace Sys2Proof

/-! ### Fields (R61) -/

def rdOf (w : IWord) : RegNum := w.extractLsb' 7 5
def rs1Of (w : IWord) : RegNum := w.extractLsb' 15 5
def rs2Of (w : IWord) : RegNum := w.extractLsb' 20 5
def csrOf (w : IWord) : CsrNum := w.extractLsb' 20 12
def aqOf (w : IWord) : Bool := w.getLsbD 26
def rlOf (w : IWord) : Bool := w.getLsbD 25

/-- `w & mask = match` (R63). -/
def Pattern.hits (p : Pattern) (w : IWord) : Bool := w &&& p.mask == p.pat

/-! ### The rows (R63) -/

def rowCsrrw : Pattern := { pat := 0x00001073#32, mask := 0x0000707f#32 }
def rowCsrrs : Pattern := { pat := 0x00002073#32, mask := 0x0000707f#32 }
def rowCsrrc : Pattern := { pat := 0x00003073#32, mask := 0x0000707f#32 }
def rowCsrrwi : Pattern := { pat := 0x00005073#32, mask := 0x0000707f#32 }
def rowCsrrsi : Pattern := { pat := 0x00006073#32, mask := 0x0000707f#32 }
def rowCsrrci : Pattern := { pat := 0x00007073#32, mask := 0x0000707f#32 }
def rowLrB : Pattern := { pat := 0x1000002f#32, mask := 0xf9f0707f#32 }
def rowLrH : Pattern := { pat := 0x1000102f#32, mask := 0xf9f0707f#32 }
def rowScB : Pattern := { pat := 0x1800002f#32, mask := 0xf800707f#32 }
def rowScH : Pattern := { pat := 0x1800102f#32, mask := 0xf800707f#32 }
def rowSh4add : Pattern := { pat := 0x20007033#32, mask := 0xfe00707f#32 }
def rowSh4addUw : Pattern := { pat := 0x2000703b#32, mask := 0xfe00707f#32 }

/-- The twelve rows with an encoding. -/
def tableRows : List Pattern :=
  [rowCsrrw, rowCsrrs, rowCsrrc, rowCsrrwi, rowCsrrsi, rowCsrrci, rowLrB, rowLrH, rowScB, rowScH, rowSh4add,
    rowSh4addUw]

/-- LR.B and LR.H whatever their `rs2` field holds: where it is not 0 the encoding is reserved and no row (R65). -/
def loadReservedWords : List Pattern :=
  [{ pat := 0x1000002f#32, mask := 0xf800707f#32 }, { pat := 0x1000102f#32, mask := 0xf800707f#32 }]

/-- A word of a row of the table or of a supplied `ENC_*`, whether or not the hart has its extension, or of a reserved
encoding inside a row. Where it is no row of this hart, it falls to outcome 3 or 4 of R64, not to illegal (R64, R65, I19). -/
def isRowWord (c : HartConfig) (w : IWord) : Bool :=
  (tableRows ++ loadReservedWords).any (·.hits w) || c.encModeswCap.any (·.hits w) || c.encModeswInt.any (·.hits w) ||
    c.encScmode.any (·.hits w)

/-- The three hybrid rows, whose patterns are the parameters `ENC_MODESW_CAP`, `ENC_MODESW_INT` and `ENC_SCMODE`; the
operands of SCMODE stand where the R format has them (R61). DESIGN CHOICE (notes/assumptions/25.md): a word that hits several
supplied patterns is the first of MODESW_CAP, MODESW_INT, SCMODE; whether the first two are two encodings or one is not in
the source (section 4 of spec/43_cheri_hybrid.md). -/
def decodeHybrid (c : HartConfig) (w : IWord) : Option Instr :=
  if !c.hasHybrid then none
  else if c.encModeswCap.any (·.hits w) then some .modeswCap
  else if c.encModeswInt.any (·.hits w) then some .modeswInt
  else if c.encScmode.any (·.hits w) then some (.scmode (rdOf w) (rs1Of w) (rs2Of w))
  else none

/-- Outcome 1 of R64: a row whose extension is implemented, or a supplied `ENC_*` pattern. -/
def decodeWord (c : HartConfig) (w : IWord) : Option Instr :=
  if rowCsrrw.hits w then some (.csrrw (rdOf w) (csrOf w) (rs1Of w))
  else if rowCsrrs.hits w then some (.csrrs (rdOf w) (csrOf w) (rs1Of w))
  else if rowCsrrc.hits w then some (.csrrc (rdOf w) (csrOf w) (rs1Of w))
  else if rowCsrrwi.hits w then some (.csrrwi (rdOf w) (csrOf w) (rs1Of w))
  else if rowCsrrsi.hits w then some (.csrrsi (rdOf w) (csrOf w) (rs1Of w))
  else if rowCsrrci.hits w then some (.csrrci (rdOf w) (csrOf w) (rs1Of w))
  else if c.hasZabhlrsc && rowLrB.hits w then some (.lrB (rdOf w) (rs1Of w) (aqOf w) (rlOf w))
  else if c.hasZabhlrsc && rowLrH.hits w then some (.lrH (rdOf w) (rs1Of w) (aqOf w) (rlOf w))
  else if c.hasZabhlrsc && rowScB.hits w then some (.scB (rdOf w) (rs1Of w) (rs2Of w) (aqOf w) (rlOf w))
  else if c.hasZabhlrsc && rowScH.hits w then some (.scH (rdOf w) (rs1Of w) (rs2Of w) (aqOf w) (rlOf w))
  else if c.hasZish4add && rowSh4add.hits w then some (.sh4add (rdOf w) (rs1Of w) (rs2Of w))
  else if (c.hasZish4add && c.xlen == .rv64) && rowSh4addUw.hits w then
    some (.sh4addUw (rdOf w) (rs1Of w) (rs2Of w))
  else decodeHybrid c w

/-! ### Bytes (R45, R60) -/

/-- Why a list of bytes gives no instruction of the table. -/
inductive DecodeError where
  /-- Fewer bytes than the instruction's length (R60). -/
  | truncated
  /-- A 16-bit parcel: bits `[1:0]` are not `11` (R60, R66). -/
  | compressed (parcel : BitVec 16)
  /-- A 32-bit word that is no row of this configuration (R64, outcomes 2 to 4). -/
  | noRow (word : IWord)
deriving DecidableEq, Repr

/-- Two bytes, little-endian (R45). -/
def parcelOf (b0 b1 : Byte) : BitVec 16 := b1 ++ b0

/-- Four bytes, little-endian; the first parcel is at the lower address (R60). -/
def wordOf (b0 b1 b2 b3 : Byte) : IWord := parcelOf b2 b3 ++ parcelOf b0 b1

/-- The length rule (R60). -/
def isWide (parcel : BitVec 16) : Bool := parcel.extractLsb' 0 2 == 3#2

/-- The instruction at the head of the bytes, and the bytes after it. -/
def decode (c : HartConfig) : List Byte → Except DecodeError (Instr × List Byte)
  | b0 :: b1 :: rest =>
    if !isWide (parcelOf b0 b1) then .error (.compressed (parcelOf b0 b1))
    else
      match rest with
      | b2 :: b3 :: rest' =>
        match decodeWord c (wordOf b0 b1 b2 b3) with
        | some i => .ok (i, rest')
        | none => .error (.noRow (wordOf b0 b1 b2 b3))
      | _ => .error .truncated
  | _ => .error .truncated

/-- Byte `k` of an instruction word, as it lies in memory. -/
def wordByte (w : IWord) (k : Nat) : Byte := w.extractLsb' (8 * k) 8

/-- The four bytes of an instruction word, lowest address first. -/
def wordBytes (w : IWord) : List Byte := [wordByte w 0, wordByte w 1, wordByte w 2, wordByte w 3]

/-- What the decoder reads, on the configuration of the reset state, from an instruction whose bits are `w`: every row
is one 32-bit word, and bits above `nbits` are 0. -/
def decodeTableWord (nbits w : Nat) : Option Instr :=
  match decode HartConfig.common (wordBytes (BitVec.ofNat 32 (w % 2 ^ nbits))) with
  | .ok (i, _) => some i
  | .error _ => none

/-! ### The encoder -/

/-- CSR format (R61). -/
def csrWord (csr : CsrNum) (src : BitVec 5) (funct3 : BitVec 3) (rd : RegNum) : IWord :=
  csr ++ src ++ funct3 ++ rd ++ 0b1110011#7

/-- AMO format (R61). -/
def amoWord (funct5 : BitVec 5) (aq rl : Bool) (rs2 rs1 : RegNum) (funct3 : BitVec 3) (rd : RegNum) : IWord :=
  funct5 ++ BitVec.ofBool aq ++ BitVec.ofBool rl ++ rs2 ++ rs1 ++ funct3 ++ rd ++ 0b0101111#7

/-- R format (R61). -/
def rWord (funct7 : BitVec 7) (rs2 rs1 : RegNum) (funct3 : BitVec 3) (rd : RegNum) (opcode : BitVec 7) : IWord :=
  funct7 ++ rs2 ++ rs1 ++ funct3 ++ rd ++ opcode

/-- The operand bits of the R format alone, for SCMODE. -/
def rOperands (rs2 rs1 rd : RegNum) : IWord := rWord 0#7 rs2 rs1 0#3 rd 0#7

/-- The instruction's word; none for a hybrid instruction whose encoding is not supplied (R63). -/
def encode (c : HartConfig) : Instr → Option IWord
  | .csrrw rd csr rs1 => some (csrWord csr rs1 0b001#3 rd)
  | .csrrs rd csr rs1 => some (csrWord csr rs1 0b010#3 rd)
  | .csrrc rd csr rs1 => some (csrWord csr rs1 0b011#3 rd)
  | .csrrwi rd csr uimm => some (csrWord csr uimm 0b101#3 rd)
  | .csrrsi rd csr uimm => some (csrWord csr uimm 0b110#3 rd)
  | .csrrci rd csr uimm => some (csrWord csr uimm 0b111#3 rd)
  | .lrB rd rs1 aq rl => some (amoWord 0b00010#5 aq rl 0#5 rs1 0b000#3 rd)
  | .lrH rd rs1 aq rl => some (amoWord 0b00010#5 aq rl 0#5 rs1 0b001#3 rd)
  | .scB rd rs1 rs2 aq rl => some (amoWord 0b00011#5 aq rl rs2 rs1 0b000#3 rd)
  | .scH rd rs1 rs2 aq rl => some (amoWord 0b00011#5 aq rl rs2 rs1 0b001#3 rd)
  | .sh4add rd rs1 rs2 => some (rWord 0b0010000#7 rs2 rs1 0b111#3 rd 0b0110011#7)
  | .sh4addUw rd rs1 rs2 => some (rWord 0b0010000#7 rs2 rs1 0b111#3 rd 0b0111011#7)
  | .modeswCap => c.encModeswCap.map (·.pat)
  | .modeswInt => c.encModeswInt.map (·.pat)
  | .scmode rd rs1 rs2 => c.encScmode.map fun p => p.pat ||| rOperands rs2 rs1 rd

/-- Two patterns no word can hit both of. -/
def Pattern.apart (p q : Pattern) : Bool := p.pat &&& (p.mask &&& q.mask) != q.pat &&& (p.mask &&& q.mask)

/-- A supplied pattern: its match lies within its mask, it is 32 bits long by the length rule, and it hits no row. -/
def Pattern.supplied (p : Pattern) : Bool :=
  p.pat &&& p.mask == p.pat && p.pat &&& 3#32 == 3#32 && p.mask &&& 3#32 == 3#32 && tableRows.all p.apart

/-- The supplied encodings can be told apart, and SCMODE's leaves its operand fields free (R63, R64). -/
def HartConfig.encodingsWf (c : HartConfig) : Bool :=
  c.encModeswCap.all Pattern.supplied && c.encModeswInt.all Pattern.supplied && c.encScmode.all Pattern.supplied &&
    c.encScmode.all (fun p => p.mask &&& rOperands 31#5 31#5 31#5 == 0#32) &&
    c.encModeswCap.all (fun p => c.encModeswInt.all p.apart && c.encScmode.all p.apart) &&
    c.encModeswInt.all (fun p => c.encScmode.all p.apart)

end Sys2Proof
end

