-- ==== Sys2Proof/Machine/State.lean ====
section
/-! DEFINITION. The state of the hart as plain data (spec/10_state.md, spec/20_memory.md R48, R54, spec/60_exceptions.md
R165 to R167), the reasons a step can stop, and the state after reset (R36; notes/assumptions/6.md to 13.md, 22.md). -/

namespace Sys2Proof.Machine

/-- The control and status registers. -/
structure CsrFile where
  /-- R27 to R32. -/
  mtvecc : Cap
  mepcc : Cap
  stvecc : Cap
  sepcc : Cap
  vstvecc : Cap
  vsepcc : Cap
  /-- R16. -/
  ddc : Cap
  /-- The configuration's further capability-wide CSRs, by number (R20, R21); an unlisted one holds `NullCap(0)`. -/
  extra : List (Nat × Cap)
  /-- R17. -/
  mseccfg : XWord
  menvcfg : XWord
  senvcfg : XWord
  /-- R19. -/
  misa : XWord
  /-- R165, R166. The word is 64 bits wide on every hart; RV32 reads its halves as two CSRs. -/
  mstatus : XWord
  mcause : XWord
  mtval : XWord
  /-- R162. -/
  mie : XWord
  mip : XWord
  /-- R167. -/
  medeleg : XWord
  mideleg : XWord
  scause : XWord
  stval : XWord
  hstatus : XWord
  hedeleg : XWord
  hideleg : XWord
  vsstatus : XWord
  vscause : XWord
  vstval : XWord
deriving DecidableEq, Repr

/-- The base-architecture CSRs this model gives a behaviour (R17, R19, R162, R165 to R167): each names a word of
`CsrFile`, or a view of `mstatus` (`mstatush`, `sstatus`). -/
inductive BaseCsr where
  | mseccfg
  | menvcfg
  | senvcfg
  | misa
  | mstatus
  | mstatush
  | mcause
  | mtval
  | mie
  | mip
  | medeleg
  | mideleg
  | sstatus
  | scause
  | stval
  | hstatus
  | hedeleg
  | hideleg
  | vsstatus
  | vscause
  | vstval
deriving DecidableEq, Repr

/-- The level a trap is taken to (R164, R165). -/
inductive TrapLevel where
  | m
  | s
  | vs
deriving DecidableEq, Repr

/-- A reservation set: `size` bytes from `base` (R35). -/
structure Reservation where
  base : Nat
  size : Nat
deriving DecidableEq, Repr

structure State where
  /-- The model's own: the configuration; no step changes it. -/
  cfg : HartConfig
  /-- R13. -/
  regs : Vector Cap 32
  /-- R14, R15. -/
  pcc : Cap
  csrs : CsrFile
  /-- R167. -/
  priv : Priv
  /-- R40: addresses strictly rising, no entry equal to what an unlisted address reads as. -/
  mem : List Host.Cell
  /-- R48: the numbers of the granules whose tag is set, strictly rising. -/
  memTags : List Nat
  /-- R35. -/
  reservation : Option Reservation
  /-- R54: the addresses stored to since the last FENCE.I, strictly rising. -/
  unfenced : List Nat
  /-- The model's own: how many success draws store-conditionals have made (R74). -/
  draws : Nat
deriving DecidableEq, Repr

/-- Why the machine stops. -/
inductive Fault where
  /-- A CHERI check failed on a hart whose configuration has no `CAUSE_CHERI` (R161). Raised by LR.B, LR.H, SC.B, SC.H,
  and by instruction fetch. Safe: the hardware would go on into a handler. -/
  | cheriCheckFailed
  /-- A load-reserved, a store-conditional or a fetch at an address the configuration does not admit as memory (R47,
  R49). Safe: the model stops where hardware may go on. -/
  | notAdmittedMemory
deriving DecidableEq, Repr

/-- What the model gives no meaning to. Each is safe: nothing is claimed of the hardware. -/
inductive Refusal where
  /-- An instruction whose arm in exec has no meaning yet. -/
  | notModelled (mnemonic : String)
  /-- A CSR instruction on a CSR outside the sets the spec names (D6, R110). -/
  | unknownCsr (num : CsrNum)
  /-- SH4ADD or SH4ADD.UW in Capability Mode without `SH4ADD_CAP_MODE_SEMANTICS` (R81, R82, D26). -/
  | sh4addInCapMode
  /-- SH4ADD.UW where XLEN is not 64 (R82, R65). -/
  | sh4addUwNeedsXlen64
  /-- MODESW_CAP, MODESW_INT or SCMODE on a hart without the hybrid extension (R104). -/
  | noHybridExtension
  /-- The pc would advance past the top of the address space (R15). -/
  | pcWraps
  /-- A fetch from bytes stored to since the last FENCE.I (R54). -/
  | unfencedFetch
  /-- A 16-bit parcel in Capability Mode to which the configuration's `RemapCompressed` gives no instruction (R66, I14). -/
  | compressedInCapMode (parcel : BitVec 16)
  /-- A 16-bit parcel in the other modes, one of `RemapCompressed` or not: the base ISA's compressed instructions are not
  supplied (R64, R143, D1). -/
  | compressedBase (parcel : BitVec 16)
  /-- A word of a CHERI instruction for which the spec has no rule, or whose presence or mode class is unknown (R64, R90, D9,
  D17). -/
  | lostCheriInstruction (word : IWord)
  /-- JAL, JALR or AUIPC in Capability Mode (R33). -/
  | capModeJump (word : IWord)
  /-- A cache-block instruction in Integer or Capability Mode (R52). -/
  | cacheBlockInCheriMode (word : IWord)
  /-- A word with no row and no supplied base meaning (R64, outcome 4). -/
  | noMeaning (word : IWord)
deriving DecidableEq, Repr

/-- How an instruction ends early: the exception it raises (code and recorded value), or a stop of the model. A `Stop`
carries no state: a raise commits nothing (spec/00_scope.md section 6.3). -/
inductive Stop where
  | trap (code : Nat) (tval : XWord)
  | fault (r : Fault)
  | refuse (r : Refusal)
deriving DecidableEq, Repr

/-- The infinite capability of a configuration, at an address (R12). -/
def infiniteCap (c : HartConfig) (a : XWord) : Cap := { tag := true, md := c.infiniteMeta, addr := a }

/-- The metadata with its M bit set to a mode value; unchanged where there is no M bit (R11). -/
def withM (c : HartConfig) (m : Bool) (md : XWord) : XWord :=
  if m then md ||| c.mMask else md &&& ~~~c.mMask

/-- The CSRs after reset (R36). DESIGN CHOICE, unsafe: the spec gives no reset value for `mie` and `mip`
(notes/assumptions/13.md), `hstatus` (11.md) and the bits of `mseccfg`, `menvcfg`, `senvcfg` beside CRE (8.md); they are 0
here. The other values are those of 7.md to 11.md. -/
def CsrFile.reset (c : HartConfig) : CsrFile where
  mtvecc := infiniteCap c 0#64
  mepcc := infiniteCap c 0#64
  stvecc := infiniteCap c 0#64
  sepcc := infiniteCap c 0#64
  vstvecc := infiniteCap c 0#64
  vsepcc := infiniteCap c 0#64
  ddc := infiniteCap c 0#64
  extra := []
  mseccfg := 0#64
  menvcfg := 0#64
  senvcfg := 0#64
  misa := 0x8000000000140184#64
  mstatus := 0#64
  mcause := 0#64
  mtval := 0#64
  mie := 0#64
  mip := 0#64
  medeleg := 0#64
  mideleg := 0#64
  scause := 0#64
  stval := 0#64
  hstatus := 0#64
  hedeleg := 0#64
  hideleg := 0#64
  vsstatus := 0#64
  vscause := 0#64
  vstval := 0#64

/-- The machine right after reset, on the common configuration (R36, R180). -/
def State.reset : State where
  cfg := HartConfig.common
  regs := Vector.replicate 32 (Cap.null 0#64)
  pcc := { tag := true,
           md := withM HartConfig.common HartConfig.common.intModeValue HartConfig.common.infiniteMeta,
           addr := HartConfig.common.resetPc }
  csrs := CsrFile.reset HartConfig.common
  priv := .M
  mem := []
  memTags := []
  reservation := none
  unfenced := []
  draws := 0

end Sys2Proof.Machine
end

