-- ==== Sys2Proof/Machine/Flags.lean ====
section
/-! DEFINITION. The status bits. The hart has no arithmetic flags (spec/10_state.md section 6); its status bits are fields of
CSR words: the CRE bits (R17), `misa.C` (R19), and the interrupt-enable and previous-privilege fields a trap saves
and a return restores (R165, R166; places of the family, notes/assumptions/10.md). -/

namespace Sys2Proof.Machine

/-- Bit `i` of a word. -/
def bit (w : XWord) (i : Nat) : Bool := w.getLsbD i

/-- The word with bit `i` set to `b`. -/
def setBit (w : XWord) (i : Nat) (b : Bool) : XWord :=
  if b then w ||| 1#64 <<< i else w &&& ~~~(1#64 <<< i)

/-- The bits of `new` where `mask` is 1, of `old` elsewhere. -/
def merge (mask old new : XWord) : XWord := (new &&& mask) ||| (old &&& ~~~mask)

/-! ### mstatus, sstatus, vsstatus, hstatus -/

def sieBit : Nat := 1
def mieBit : Nat := 3
def spieBit : Nat := 5
def mpieBit : Nat := 7
def sppBit : Nat := 8
def mpvBit : Nat := 39
/-- `hstatus.SPV`. -/
def spvBit : Nat := 7

def mppMask : XWord := 0x1800#64

/-- `mstatus.MPP`. -/
def mppOf (w : XWord) : BitVec 2 := w.extractLsb' 11 2

def setMpp (w : XWord) (p : BitVec 2) : XWord := merge mppMask w (p.setWidth 64 <<< 11)

/-- The two-bit code of a privilege (virtual modes have the code of the mode they virtualise). -/
def privCode : Priv → BitVec 2
  | .M => 3#2
  | .S => 1#2
  | .U => 0#2
  | .VS => 1#2
  | .VU => 0#2

/-- Whether a privilege is a virtual one. -/
def isVirtual : Priv → Bool
  | .VS => true
  | .VU => true
  | .M => false
  | .S => false
  | .U => false

/-- The privilege a two-bit code and a virtualisation bit name. -/
def privOf (code : BitVec 2) (virt : Bool) : Priv :=
  if code = 3#2 then .M
  else if code = 1#2 then (if virt then .VS else .S)
  else (if virt then .VU else .U)

/-- The bits of `mstatus` that `sstatus` shows. -/
def sstatusMask : XWord := 0x80000003000de762#64

/-! ### The CRE bits and the effective CRE (R17, R18) -/

def mseccfgCre (s : State) : Bool := bit s.csrs.mseccfg s.cfg.creBitM
def menvcfgCre (s : State) : Bool := bit s.csrs.menvcfg s.cfg.creBitMenv
def senvcfgCre (s : State) : Bool := bit s.csrs.senvcfg s.cfg.creBitSenv

/-- The row of the `EffCRE` table for a privilege. -/
def creRow (t : CreTable) : Priv → BitVec 8
  | .M => t.m
  | .S => t.s
  | .U => t.u
  | .VS => t.vs
  | .VU => t.vu

/-- `EffCRE(priv, mseccfg.CRE, menvcfg.CRE, senvcfg.CRE)` (R18). -/
def effCre (s : State) : Bool :=
  (creRow s.cfg.effCre s.priv).getLsbD
    ((mseccfgCre s).toNat + 2 * (menvcfgCre s).toNat + 4 * (senvcfgCre s).toNat)

/-- `misa.C` (R19). -/
def misaCBit : Nat := 2

def misaC (f : CsrFile) : Bool := bit f.misa misaCBit

/-! ### The execution mode (R140, R141) -/

/-- The M bit of a capability (R11). -/
def mOf (c : HartConfig) (v : Cap) : Bool := v.md.getLsbD c.mBitPos

/-- `Mode()`: constantly `Off` without CHERI and constantly `Cap` on a base-only hart (R141). -/
def mode (s : State) : Mode :=
  match s.cfg.cheri with
  | .absent => .off
  | .base => .cap
  | .hybrid => if !effCre s then .off else if mOf s.cfg s.pcc = s.cfg.capModeValue then .cap else .int

end Sys2Proof.Machine
end

