-- ==== Sys2Proof/Machine/Memory.lean ====
section
/-! DEFINITION. Sparse lists in one canonical form: a map (memory and the further CSRs) keeps its keys strictly rising and
no entry equal to what an unlisted key reads as; a set of addresses keeps them strictly rising. -/

namespace Sys2Proof.Machine

/-- What an unlisted byte of memory reads as (notes/assumptions/22.md: the spec gives memory no contents). -/
def unlistedByte : Byte := 0#8

/-- The value at a key; `d` where the key is not listed. -/
def lookup {α : Type} (d : α) : List (Nat × α) → Nat → α
  | [], _ => d
  | (k, v) :: rest, a => if a < k then d else if a = k then v else lookup d rest a

/-- The map with one value changed; a value equal to `d` is not listed. -/
def update {α : Type} [DecidableEq α] (d : α) : List (Nat × α) → Nat → α → List (Nat × α)
  | [], a, v => if v = d then [] else [(a, v)]
  | (k, w) :: rest, a, v =>
    if a < k then (if v = d then (k, w) :: rest else (a, v) :: (k, w) :: rest)
    else if a = k then (if v = d then rest else (a, v) :: rest)
    else (k, w) :: update d rest a v

/-- The canonical form of a map. -/
def mapWf {α : Type} [DecidableEq α] (d : α) : List (Nat × α) → Bool
  | [] => true
  | (k, v) :: rest => decide (v ≠ d) && rest.all (fun e => decide (k < e.1)) && mapWf d rest

/-- The canonical form of memory. -/
def Memory.wf (m : List Host.Cell) : Bool := mapWf unlistedByte m

/-- The set with one more member. -/
def insertKey : List Nat → Nat → List Nat
  | [], a => [a]
  | k :: rest, a => if a < k then a :: k :: rest else if a = k then k :: rest else k :: insertKey rest a

/-- The set without one member. -/
def removeKey (l : List Nat) (a : Nat) : List Nat := l.filter (· ≠ a)

/-- The canonical form of a set. -/
def setWf : List Nat → Bool
  | [] => true
  | k :: rest => rest.all (fun e => decide (k < e)) && setWf rest

end Sys2Proof.Machine
end

