-- ==== Sys2Proof/Machine/Csrs.lean ====
section
/-! DEFINITION. The CSR file: what each capability-wide CSR stores and reads as (spec/10_state.md R20 to R32), the write
actions (spec/44_csr_access.md R117 to R120) and the base CSRs (notes/assumptions/8.md to 12.md). Each unknown function
of the spec appears inside a definition that builds the spec's constraints on it in. -/

namespace Sys2Proof.Machine

/-! ### The stored values -/

def CsrFile.get (f : CsrFile) : CapCsr → Cap
  | .mtvecc => f.mtvecc
  | .mepcc => f.mepcc
  | .stvecc => f.stvecc
  | .sepcc => f.sepcc
  | .vstvecc => f.vstvecc
  | .vsepcc => f.vsepcc
  | .ddc => f.ddc
  | .extra n => lookup (Cap.null 0#64) f.extra n.toNat

def CsrFile.set (f : CsrFile) (id : CapCsr) (v : Cap) : CsrFile :=
  match id with
  | .mtvecc => { f with mtvecc := v }
  | .mepcc => { f with mepcc := v }
  | .stvecc => { f with stvecc := v }
  | .sepcc => { f with sepcc := v }
  | .vstvecc => { f with vstvecc := v }
  | .vsepcc => { f with vsepcc := v }
  | .ddc => { f with ddc := v }
  | .extra n => { f with extra := update (Cap.null 0#64) f.extra n.toNat v }

/-- The entry of a further CSR in the configuration. -/
def extraOf (c : HartConfig) (num : CsrNum) : Option ExtraCsr := c.extraCsrs.find? (·.num == num)

/-- The number of a capability-wide CSR (D23). -/
def capCsrNum (c : HartConfig) : CapCsr → CsrNum
  | .mtvecc => 0x305#12
  | .mepcc => 0x341#12
  | .stvecc => 0x105#12
  | .sepcc => 0x141#12
  | .vstvecc => 0x205#12
  | .vsepcc => 0x241#12
  | .ddc => c.ddcNum
  | .extra n => n

def isTvecc : CapCsr → Bool
  | .mtvecc => true
  | .stvecc => true
  | .vstvecc => true
  | _ => false

def isEpcc : CapCsr → Bool
  | .mepcc => true
  | .sepcc => true
  | .vsepcc => true
  | _ => false

/-- `PointerCSRs` (R24): every `Xtvecc` and `Xepcc`, and what the configuration adds. -/
def isPointer (c : HartConfig) : CapCsr → Bool
  | .ddc => c.ddcIsPointer
  | .extra n => (extraOf c n).any (·.isPointer)
  | _ => true

/-- `FullWidthCSRs` (R23). -/
def isFull (c : HartConfig) : CapCsr → Bool
  | .extra n => (extraOf c n).any (·.isFull)
  | id => c.fullWidth.contains (capCsrNum c id)

/-! ### Infinite capabilities and bounds (R12, R43) -/

/-- The tag and metadata are those of `InfiniteCap`, its M bit apart (R12, R36, D32; notes/assumptions/3.md). -/
def isInfinite (c : HartConfig) (v : Cap) : Bool :=
  v.tag && v.md &&& ~~~c.mMask == c.infiniteMeta &&& ~~~c.mMask

/-- `InBounds` of one byte: an infinite capability covers the address space (R43, R119). -/
def inBounds (c : HartConfig) (v : Cap) (a : Nat) : Bool :=
  (isInfinite c v && decide (a < 2 ^ c.xlen.bits)) || Config.inBounds v a

/-! ### Addresses a CSR can hold (R24, R25, R44) -/

/-- `ValidAddr`: constantly true where XLEN = 32 (R44). -/
def validAddr (c : HartConfig) (a : XWord) : Bool := c.xlen == .rv32 || Config.validAddr a

/-- The address an `Xepcc` stores: bit 0 is always 0 (R28), and bit 1 too where IALIGN is always 32. -/
def alignEpcc (c : HartConfig) (misaC : Bool) (a : XWord) : XWord :=
  if !c.misaCWritable && !misaC then a &&& ~~~3#64 else a &&& ~~~1#64

/-- The low-bit rule of one CSR's address. -/
def alignFor (c : HartConfig) (misaC : Bool) (id : CapCsr) (a : XWord) : XWord :=
  if isEpcc id then alignEpcc c misaC a else a

/-- `InvalidAddrConv`: an invalid address is never converted to a valid one (R25). -/
def invalidAddrConv (c : HartConfig) (misaC : Bool) (id : CapCsr) (a : XWord) : XWord :=
  let b := alignFor c misaC id (c.xlen.trunc (Config.invalidAddrConv id a))
  if validAddr c b then a else b

/-- `Holdable`: every valid address and every converted one is holdable, and every address where XLEN = 32
(R24, R25). -/
def Holdable (c : HartConfig) (id : CapCsr) (x : XWord) : Prop :=
  validAddr c x = true ∨ Config.holdable id x = true ∨
    ∃ misaC a, validAddr c a = false ∧ x = invalidAddrConv c misaC id a

/-! ### Storing (R23, R25, R120) -/

/-- Step (1) of `StoreForm`, after the CSR's low-bit rule. -/
def storeAddr (c : HartConfig) (misaC : Bool) (id : CapCsr) (a : XWord) : XWord :=
  let a := c.xlen.trunc (alignFor c misaC id a)
  if isPointer c id && !validAddr c a then invalidAddrConv c misaC id a else a

/-- Step (2) of `StoreForm`: the invalid address check may clear the tag of an invalid address in a CSR that stores
fewer address bits; an infinite capability keeps its tag (R12, R148). -/
def storeTag (c : HartConfig) (id : CapCsr) (v : Cap) : Bool :=
  if validAddr c v.addr || isInfinite c v || !Config.storesFewerBits id then v.tag
  else v.tag && Config.invalidAddrTag id v

/-- Step (3) of `StoreForm`: a CSR outside `FullWidthCSRs` stores no reserved bit (R23). -/
def storeMeta (c : HartConfig) (id : CapCsr) (md : XWord) : XWord :=
  if isFull c id then c.xlen.trunc md else c.xlen.trunc (md &&& ~~~c.reservedMask)

/-- `StoreForm(csr, v)` (R120). -/
def storeForm (c : HartConfig) (misaC : Bool) (id : CapCsr) (v : Cap) : Cap :=
  let a := storeAddr c misaC id v.addr
  { tag := storeTag c id { v with addr := a }, md := storeMeta c id v.md, addr := a }

/-! ### Reading (R23, R26) -/

/-- `LegalizeEpcc` (R26): bit 0 reads as 0, and bit 1 too when `misa.C = 0`; the tag and metadata are open only where
the address changes. -/
def legalizeEpcc (c : HartConfig) (misaC : Bool) (v : Cap) : Cap :=
  let a := if misaC then v.addr &&& ~~~1#64 else v.addr &&& ~~~3#64
  if a = v.addr || isInfinite c v then { v with addr := a }
  else { tag := Config.legalEpccTag v misaC, md := c.xlen.trunc (Config.legalEpccMeta v misaC), addr := a }

/-- What the reserved bits of a CSR that does not store them read as (R23). -/
def readMeta (c : HartConfig) (id : CapCsr) (md : XWord) : XWord :=
  if isFull c id then md else merge c.reservedMask md c.reservedRead

/-- The value a CSR holds, its unstored reserved bits filled in (R23). -/
def heldVal (c : HartConfig) (f : CsrFile) (id : CapCsr) : Cap :=
  { f.get id with md := readMeta c id (f.get id).md }

/-- `ReadVal(csr)` (R116). -/
def readVal (c : HartConfig) (f : CsrFile) (id : CapCsr) : Cap :=
  if isEpcc id && c.misaCWritable then legalizeEpcc c (misaC f) (heldVal c f id) else heldVal c f id

/-! ### The write actions (R117 to R119) -/

/-- The address of an `Xtvecc`: MODE 0 and 1 are kept, a reserved MODE becomes one of them (R27: WARL). -/
def legalVector (id : CapCsr) (old a : XWord) : XWord :=
  if bit a 1 then setBit (a &&& ~~~3#64) 0 (Config.reservedVectorMode id old a) else a

/-- The address legalization of one CSR's write action (R118). DESIGN CHOICE, unsafe (notes/assumptions/43.md): which address
bits of `ddc` and of a configured further capability-wide CSR are WARL is lost with the tables (R20, R118); they get no
legalization of their own here, the identity. -/
def legalAddr (c : HartConfig) (id : CapCsr) (old a : XWord) : XWord :=
  c.xlen.trunc (if isTvecc id then legalVector id old a else a)

/-- The vector range check of the capability being written (R119): lowest and highest handler entry in bounds. -/
def vectorInRange (c : HartConfig) (v : Cap) : Bool :=
  let base := v.addr &&& ~~~3#64
  inBounds c v base.toNat && inBounds c v ((base.toNat + c.tvecMaxOffset) % 2 ^ c.xlen.bits)

/-- What a CLEN-bit write takes from its operand (R117): metadata and address (R23, D7); whether the tag survives is open but
for an infinite capability (R12). -/
def clenValue (c : HartConfig) (misaC : Bool) (id : CapCsr) (old v : Cap) : Cap :=
  { v with tag := v.tag && (isInfinite c v || Config.clenWriteTag id old v misaC),
           addr := legalAddr c id old.addr v.addr }

/-- `ExtClenWrite` and `NewClenWrite` (R117): a failed vector range check leaves an open value. The check is of the operand as
it is written, before any effect of the write on its tag or MODE (R119). -/
def clenWrite (c : HartConfig) (misaC : Bool) (id : CapCsr) (old v : Cap) : Cap :=
  if isTvecc id && !vectorInRange c v then
    let x := (Config.vectorCheckFailed .clen id old v misaC).trunc c.xlen
    { x with tag := (old.tag || v.tag) && x.tag }
  else clenValue c misaC id old v

/-- What an XLEN-bit write makes of the old value (R118): the metadata is the old value's, a clear tag stays clear, an
infinite capability keeps its tag (R148), and the address is the written one after its legalization. -/
def xlenValue (c : HartConfig) (misaC : Bool) (id : CapCsr) (old : Cap) (a : XWord) : Cap :=
  { old with tag := old.tag && (isInfinite c old || Config.xlenWriteTag id old a misaC),
             addr := legalAddr c id old.addr a }

/-- `ExtXlenWrite` and `NewXlenWrite` (R118): a failed vector range check leaves an open tag and address. DESIGN CHOICE, unsafe
(notes/assumptions/16.md): R119 does not say which capability an XLEN-bit write checks; here it is the old one at the written
address, before any effect of the write on its tag or MODE. -/
def xlenWrite (c : HartConfig) (misaC : Bool) (id : CapCsr) (old : Cap) (a : XWord) : Cap :=
  let v : Cap := { old with addr := c.xlen.trunc a }
  if isTvecc id && !vectorInRange c v then
    let x := (Config.vectorCheckFailed .xlen id old v misaC).trunc c.xlen
    { tag := old.tag && x.tag, md := old.md, addr := x.addr }
  else xlenValue c misaC id old a

/-- A CLEN-bit write (R117). -/
def writeClen (c : HartConfig) (f : CsrFile) (id : CapCsr) (v : Cap) : CsrFile :=
  f.set id (storeForm c (misaC f) id (clenWrite c (misaC f) id (heldVal c f id) v))

/-- An XLEN-bit write (R118). -/
def writeXlen (c : HartConfig) (f : CsrFile) (id : CapCsr) (a : XWord) : CsrFile :=
  f.set id (storeForm c (misaC f) id (xlenWrite c (misaC f) id (heldVal c f id) a))

/-- The XLEN-wide predecessor of an extended CSR, on a hart without the base extension (R22). -/
def writeNarrow (c : HartConfig) (f : CsrFile) (id : CapCsr) (a : XWord) : CsrFile :=
  f.set id (storeForm c (misaC f) id { heldVal c f id with addr := legalAddr c id (f.get id).addr a })

/-! ### Base CSRs -/

/-- A written word of which `writable` bits take the new value, `fixed` bits keep the old one, and the rest, which no
rule gives, is open. -/
def warl (c : HartConfig) (num : CsrNum) (writable fixed old new : XWord) : XWord :=
  c.xlen.trunc ((new &&& writable) ||| (old &&& fixed &&& ~~~writable) |||
    (Config.baseOther num old new &&& ~~~(writable ||| fixed)))

/-- A CRE bit where the hart has one (R17; D16: a base-only hart has none). -/
def creMask (c : HartConfig) (pos : Nat) : XWord := if c.hasHybrid then 1#64 <<< pos else 0#64

/-- `misa.MXL`, which no write changes (D4). -/
def mxlMask (c : HartConfig) : XWord :=
  match c.xlen with
  | .rv32 => 0xc0000000#64
  | .rv64 => 0xc000000000000000#64

/-- `misa.C` as a mask. -/
def misaCMask : XWord := 0x4#64

def misaWritable (c : HartConfig) : XWord := if c.hasC && c.misaCWritable then misaCMask else 0#64

/-- The fields of `mstatus` a trap uses that software may write freely. -/
def mstatusWritable (c : HartConfig) : XWord :=
  0x88#64 ||| (if c.hasS then 0x122#64 else 0#64) ||| (if c.hasH then 0x8000000000#64 else 0#64)

/-- `mstatus.SXL` and `mstatus.UXL`, which no write changes (D4). -/
def xlMask : XWord := 0xf00000000#64

/-- Whether `MPP` may hold this code. -/
def mppSupported (c : HartConfig) (p : BitVec 2) : Bool :=
  p == 3#2 || (p == 1#2 && c.hasS) || (p == 0#2 && c.hasU)

/-- `MPP` after a write: WARL, always a supported mode. -/
def legalMpp (c : HartConfig) (old new : XWord) : BitVec 2 :=
  if mppSupported c (mppOf new) then mppOf new
  else if mppSupported c (Config.legalMpp old new) then Config.legalMpp old new
  else 3#2

/-- The 64-bit `mstatus` word after a write of `new`. -/
def legalMstatus (c : HartConfig) (old new : XWord) : XWord :=
  let w := mstatusWritable c
  setMpp ((new &&& w) ||| (old &&& xlMask) ||| (Config.baseOther 0x300#12 old new &&& ~~~(w ||| xlMask)))
    (legalMpp c old new)

/-- The 64-bit `mstatus` word after a write of `v` to `sstatus`: no bit that `sstatus` does not show changes. -/
def writeSstatus (c : HartConfig) (old v : XWord) : XWord :=
  merge (c.xlen.trunc sstatusMask) old (legalMstatus c old (merge (c.xlen.trunc sstatusMask) old v))

/-- The interrupts a hart does not have (PRESUMED, unsafe: notes/assumptions/13.md): codes 1, 5 and 9 without supervisor
mode, codes 2, 6, 10 and 12 without the hypervisor extension. -/
def absentInterrupts (c : HartConfig) : XWord :=
  (if c.hasS then 0#64 else 0x222#64) ||| (if c.hasH then 0#64 else 0x1444#64)

/-- The bits of `mip` that a CSR write may change: SSIP, VSSIP, STIP, SEIP, where the hart has them. -/
def mipWritable (c : HartConfig) : XWord := 0x226#64 &&& ~~~absentInterrupts c

/-- The value of a base CSR. -/
def readBase (c : HartConfig) (f : CsrFile) : BaseCsr → XWord
  | .mseccfg => f.mseccfg
  | .menvcfg => f.menvcfg
  | .senvcfg => f.senvcfg
  | .misa => f.misa
  | .mstatus => c.xlen.trunc f.mstatus
  | .mstatush => f.mstatus >>> 32
  | .mcause => f.mcause
  | .mtval => f.mtval
  | .mie => f.mie
  | .mip => f.mip
  | .medeleg => f.medeleg
  | .mideleg => f.mideleg
  | .sstatus => c.xlen.trunc (f.mstatus &&& sstatusMask)
  | .scause => f.scause
  | .stval => f.stval
  | .hstatus => f.hstatus
  | .hedeleg => f.hedeleg
  | .hideleg => f.hideleg
  | .vsstatus => f.vsstatus
  | .vscause => f.vscause
  | .vstval => f.vstval

/-- The CSR file after an XLEN-bit write to a base CSR. DESIGN CHOICE, unsafe (notes/assumptions/13.md): a write of `mie` sets
every bit but those of interrupts the hart does not have, and a cause or trap value register keeps every XLEN-bit word
(notes/assumptions/10.md), where the base ISA lets an implementation keep the values it can record. -/
def writeBase (c : HartConfig) (f : CsrFile) (b : BaseCsr) (v : XWord) : CsrFile :=
  match b with
  | .mseccfg => { f with mseccfg := warl c 0x747#12 (creMask c c.creBitM) 0#64 f.mseccfg v }
  | .menvcfg => { f with menvcfg := warl c 0x30a#12 (creMask c c.creBitMenv) 0#64 f.menvcfg v }
  | .senvcfg => { f with senvcfg := warl c 0x10a#12 (creMask c c.creBitSenv) 0#64 f.senvcfg v }
  | .misa => { f with misa := warl c 0x301#12 (misaWritable c) (misaCMask ||| mxlMask c) f.misa v }
  | .mstatus => { f with mstatus := legalMstatus c f.mstatus (merge c.xlen.mask f.mstatus v) }
  | .mstatush => { f with mstatus := legalMstatus c f.mstatus (merge 0xffffffff#64 (v <<< 32) f.mstatus) }
  | .mcause => { f with mcause := c.xlen.trunc v }
  | .mtval => { f with mtval := c.xlen.trunc v }
  | .mie => { f with mie := c.xlen.trunc (v &&& ~~~absentInterrupts c) }
  | .mip => { f with mip := merge (mipWritable c) f.mip v }
  | .medeleg => { f with medeleg := c.xlen.trunc v }
  | .mideleg => { f with mideleg := c.xlen.trunc v }
  | .sstatus => { f with mstatus := writeSstatus c f.mstatus v }
  | .scause => { f with scause := c.xlen.trunc v }
  | .stval => { f with stval := c.xlen.trunc v }
  | .hstatus => { f with hstatus := warl c 0x600#12 0x80#64 0#64 f.hstatus v }
  | .hedeleg => { f with hedeleg := c.xlen.trunc v }
  | .hideleg => { f with hideleg := c.xlen.trunc v }
  | .vsstatus => { f with vsstatus := warl c 0x200#12 0x122#64 0x300000000#64 f.vsstatus v }
  | .vscause => { f with vscause := c.xlen.trunc v }
  | .vstval => { f with vstval := c.xlen.trunc v }

end Sys2Proof.Machine
end

