-- ==== Sys2Proof/Machine/Ops.lean ====
section
/-! DEFINITION. The named operations over registers, memory and the pc, the authorisation of accesses, taking an exception
or an interrupt, and the return from one (spec/10_state.md R13 to R15, spec/20_memory.md, spec/60_exceptions.md). -/

namespace Sys2Proof.Machine

/-! ### Registers (R13) -/

/-- `c[i]`. -/
def readC (s : State) (r : RegNum) : Cap := if r = 0#5 then Cap.null 0#64 else s.regs[r.toFin]

/-- `x[i]`: the address part. -/
def readX (s : State) (r : RegNum) : XWord := (readC s r).addr

/-- `c[i] <- v`; a write to register 0 is discarded. -/
def writeC (s : State) (r : RegNum) (v : Cap) : State :=
  if r = 0#5 then s else { s with regs := s.regs.set r.toFin (v.trunc s.cfg.xlen) }

/-- `x[i] <- v`: the register gets `NullCap(v)` (D27). -/
def writeX (s : State) (r : RegNum) (v : XWord) : State := writeC s r (Cap.null v)

/-! ### The pc (R15) -/

def pc (s : State) : XWord := s.pcc.addr

/-- `pc <- target`: the tag and metadata of `pcc` stay. -/
def setPc (s : State) (a : XWord) : State := { s with pcc := { s.pcc with addr := s.cfg.xlen.trunc a } }

/-- A condition without which an instruction ends with `e`. -/
def require (b : Bool) (e : Stop) : Except Stop Unit := if b then .ok () else .error e

/-- Whether `pc + len` is still below `2^XLEN`. -/
def pcAdvancesBy (len : Nat) (s : State) : Bool := decide ((pc s).toNat + len < 2 ^ s.cfg.xlen.bits)

/-- Whether `pc + 4` is. -/
def pcAdvances (s : State) : Bool := pcAdvancesBy 4 s

/-- `next`: `pc <- pc + len`; refused where that wraps. -/
def advanceBy (len : Nat) (s : State) : Except Stop State :=
  if pcAdvancesBy len s then .ok (setPc s (pc s + BitVec.ofNat 64 len)) else .error (.refuse .pcWraps)

/-- `next` of a 32-bit instruction. -/
def advance (s : State) : Except Stop State := advanceBy 4 s

/-! ### Memory (R40, R45, R47 to R49, R54) -/

def readByte (s : State) (a : Nat) : Byte := lookup unlistedByte s.mem a

/-- The `n` bytes from `a`, lowest address first. -/
def readBytes (s : State) (a : Nat) : Nat → List Byte
  | 0 => []
  | n + 1 => readByte s a :: readBytes s (a + 1) n

/-- Little-endian (R45): the first byte is the least significant. -/
def leValue : List Byte → XWord
  | [] => 0#64
  | b :: rest => b.setWidth 64 ||| leValue rest <<< 8

/-- The `n` low bytes of a word, lowest address first (R45). -/
def leBytes (v : XWord) : Nat → List Byte
  | 0 => []
  | n + 1 => v.setWidth 8 :: leBytes (v >>> 8) n

/-- `MemRead(addr, n)`. -/
def memRead (s : State) (a : XWord) (n : Nat) : XWord := leValue (readBytes s a.toNat n)

/-- The CLEN-bit granule an address lies in (R48). -/
def granuleOf (c : HartConfig) (a : Nat) : Nat := a / (c.xlen.bits / 4)

/-- One stored byte: it clears the tag of its granule (R48) and stays unfetchable until a FENCE.I (R54). -/
def storeByte (s : State) (a : Nat) (b : Byte) : State :=
  { s with mem := update unlistedByte s.mem a b,
           memTags := removeKey s.memTags (granuleOf s.cfg a),
           unfenced := insertKey s.unfenced a }

def storeBytes (s : State) (a : Nat) : List Byte → State
  | [] => s
  | b :: rest => storeBytes (storeByte s a b) (a + 1) rest

/-- `MemWrite(addr, n, v)`. -/
def memWrite (s : State) (a : XWord) (n : Nat) (v : XWord) : State := storeBytes s a.toNat (leBytes v n)

/-- The region an address lies in: the first that holds it. An address of 2^XLEN or more does not exist (R40), whatever the
regions say. -/
def regionAt (c : HartConfig) (a : Nat) : Option RegionKind :=
  if a < 2 ^ c.xlen.bits then (c.regions.find? fun r => r.base ≤ a && a < r.base + r.size).map (·.kind) else none

/-! ### The reservation (R35) -/

/-- The reservation after an event that may clear it (R35, I21): the configuration says which events do. -/
def afterEvent (c : HartConfig) (e : ReservationEvent) (r : Option Reservation) : Option Reservation :=
  if c.clearsReservation.contains e then none else r

/-- The state after such an event. -/
def passEvent (e : ReservationEvent) (s : State) : State :=
  { s with reservation := afterEvent s.cfg e s.reservation }

/-- A trap is an event of its kind. -/
def trapEvent (interrupt : Bool) : ReservationEvent := if interrupt then .interrupt else .exception

/-- The codes of an access fault and a page fault, by kind of access (R161). -/
def accessFaultCode : AccessKind → Nat
  | .load => 5
  | .store => 7
  | .fetch => 1

def pageFaultCode : AccessKind → Nat
  | .load => 13
  | .store => 15
  | .fetch => 12

/-- The `n` bytes from `a` are main memory; `BaseRV`'s faults where the configuration says so, and a stop outside the
admitted memory (R47, R49, R161). DESIGN CHOICE (notes/assumptions/23.md): `ValidAddr` is not consulted, so an access to an
address it calls invalid succeeds where the configuration admits main memory there. -/
def checkMemory (c : HartConfig) (kind : AccessKind) (a : Nat) : Nat → Except Stop Unit
  | 0 => .ok ()
  | n + 1 =>
    match regionAt c a with
    | some .main => checkMemory c kind (a + 1) n
    | some .accessFault => .error (.trap (accessFaultCode kind) (BitVec.ofNat 64 a))
    | some .pageFault => .error (.trap (pageFaultCode kind) (BitVec.ofNat 64 a))
    | none => .error (.fault .notAdmittedMemory)

/-! ### Authorisation (R43) -/

/-- The `n` bytes from `a` lie within the bounds. -/
def inBoundsAll (c : HartConfig) (v : Cap) (a : Nat) : Nat → Bool
  | 0 => true
  | n + 1 => inBounds c v a && inBoundsAll c v (a + 1) n

/-- `Authorises(cap, addr, n, kind)`: tag, bounds, and seal and permissions. -/
def authorises (c : HartConfig) (v : Cap) (a : XWord) (n : Nat) (kind : AccessKind) : Bool :=
  v.tag && inBoundsAll c v a.toNat n && (isInfinite c v || Config.permits v a n kind)

/-- `Authorise(cap, addr, n, kind)`: a failure raises `CAUSE_CHERI`, or is a fault where the configuration has none
(R161). -/
def authorise (c : HartConfig) (v : Cap) (a : XWord) (n : Nat) (kind : AccessKind) : Except Stop Unit :=
  if authorises c v a n kind then .ok ()
  else
    match c.causeCheri with
    | some code => .error (.trap code (c.xlen.trunc (Config.cheriTval v a n kind)))
    | none => .error (.fault .cheriCheckFailed)

/-! ### Trap entry and return (R164 to R166) -/

def TrapLevel.tvecc : TrapLevel → CapCsr
  | .m => .mtvecc
  | .s => .stvecc
  | .vs => .vstvecc

def TrapLevel.epcc : TrapLevel → CapCsr
  | .m => .mepcc
  | .s => .sepcc
  | .vs => .vsepcc

def TrapLevel.cause : TrapLevel → BaseCsr
  | .m => .mcause
  | .s => .scause
  | .vs => .vscause

def TrapLevel.tval : TrapLevel → BaseCsr
  | .m => .mtval
  | .s => .stval
  | .vs => .vstval

/-- The privilege a trap to this level runs in. -/
def TrapLevel.priv : TrapLevel → Priv
  | .m => .M
  | .s => .S
  | .vs => .VS

/-- `Xcause`: the interrupt bit and the cause code (R165). -/
def causeWord (c : HartConfig) (interrupt : Bool) (code : Nat) : XWord :=
  setBit (c.xlen.trunc (BitVec.ofNat 64 code)) (c.xlen.bits - 1) interrupt

/-- The supervisor half of a status word at trap entry: SPIE, SIE and SPP. -/
def enterSupervisor (w : XWord) (p : Priv) : XWord :=
  setBit (setBit (setBit w spieBit (bit w sieBit)) sieBit false) sppBit (privCode p == 1#2)

/-- The machine half: MPIE, MIE, MPP, and MPV on a hart with virtual modes. -/
def enterMachine (c : HartConfig) (w : XWord) (p : Priv) : XWord :=
  let w := setMpp (setBit (setBit w mpieBit (bit w mieBit)) mieBit false) (privCode p)
  if c.hasH then setBit w mpvBit (isVirtual p) else w

/-- The status registers after entry into a level. -/
def enterStatus (c : HartConfig) (f : CsrFile) (p : Priv) : TrapLevel → CsrFile
  | .m => { f with mstatus := enterMachine c f.mstatus p }
  | .s =>
    { f with mstatus := enterSupervisor f.mstatus p,
             hstatus := if c.hasH then setBit f.hstatus spvBit (isVirtual p) else f.hstatus }
  | .vs => { f with vsstatus := enterSupervisor f.vsstatus p }

/-- The handler's address: BASE, and in vectored mode BASE + 4 * code for an interrupt (R165). -/
def handlerAddr (c : HartConfig) (tvec : XWord) (interrupt : Bool) (code : Nat) : XWord :=
  let base := tvec &&& ~~~3#64
  if tvec &&& 3#64 == 1#64 && interrupt then c.xlen.trunc (base + 4#64 * BitVec.ofNat 64 code) else base

/-- Trap entry into a level (R165). -/
def trapEntry (s : State) (level : TrapLevel) (interrupt : Bool) (code : Nat) (tval : XWord) : State :=
  let c := s.cfg
  let f := s.csrs
  let vec := readVal c f level.tvecc
  let f1 := f.set level.epcc (storeForm c (misaC f) level.epcc s.pcc)
  let f2 := writeBase c (writeBase c f1 level.cause (causeWord c interrupt code)) level.tval tval
  { s with csrs := enterStatus c f2 s.priv level,
           priv := level.priv,
           pcc := { vec with addr := handlerAddr c vec.addr interrupt code },
           reservation := afterEvent c (trapEvent interrupt) s.reservation }

/-- The level an exception is taken to: delegation by `medeleg` and `hedeleg` (R167). DESIGN CHOICE, unsafe
(notes/assumptions/33.md): whether a CHERI exception can be delegated is not in the source; `CAUSE_CHERI` is delegated by its
bit as every code is. -/
def exceptionLevel (s : State) (code : Nat) : TrapLevel :=
  if s.priv = .M || !s.cfg.hasS || !bit s.csrs.medeleg code then .m
  else if isVirtual s.priv && bit s.csrs.hedeleg code then .vs
  else .s

/-- Taking an exception. -/
def takeException (s : State) (code : Nat) (tval : XWord) : State :=
  trapEntry s (exceptionLevel s code) false code tval

/-- The bits of the instruction at the pc, for the trap value of an illegal instruction: a word, or a 16-bit parcel. -/
def wordAtPc (s : State) : XWord :=
  if isWide ((memRead s (pc s) 2).setWidth 16) then memRead s (pc s) 4 else memRead s (pc s) 2

/-- `raise IllegalInstruction(word)`: code 2, recording the word or 0 as the implementation chooses (R160). -/
def illegalInstruction (s : State) : Stop :=
  .trap 2 (if s.cfg.illegalTvalIsWord then s.cfg.xlen.trunc (wordAtPc s) else 0#64)

/-- The least privileged mode's code. -/
def leastCode (c : HartConfig) : BitVec 2 := if c.hasU then 0#2 else 3#2

/-- The privilege a return goes back to. -/
def returnPriv (s : State) : TrapLevel → Priv
  | .m => privOf (mppOf s.csrs.mstatus) (s.cfg.hasH && bit s.csrs.mstatus mpvBit)
  | .s =>
    privOf (if bit s.csrs.mstatus sppBit then 1#2 else 0#2) (s.cfg.hasH && bit s.csrs.hstatus spvBit)
  | .vs => privOf (if bit s.csrs.vsstatus sppBit then 1#2 else 0#2) true

/-- The supervisor half of a status word at a return. DESIGN CHOICE, unsafe (notes/assumptions/28.md): `mstatus.MPRV` stays, here
and in the machine half. -/
def leaveSupervisor (w : XWord) : XWord :=
  setBit (setBit (setBit w sieBit (bit w spieBit)) spieBit true) sppBit false

/-- The machine half. -/
def leaveMachine (c : HartConfig) (w : XWord) : XWord :=
  let w := setMpp (setBit (setBit w mieBit (bit w mpieBit)) mpieBit true) (leastCode c)
  if c.hasH then setBit w mpvBit false else w

/-- The status registers after a return. -/
def leaveStatus (c : HartConfig) (f : CsrFile) : TrapLevel → CsrFile
  | .m => { f with mstatus := leaveMachine c f.mstatus }
  | .s =>
    { f with mstatus := leaveSupervisor f.mstatus,
             hstatus := if c.hasH then setBit f.hstatus spvBit false else f.hstatus }
  | .vs => { f with vsstatus := leaveSupervisor f.vsstatus }

/-- Trap return from a level (R166). -/
def trapReturn (s : State) (level : TrapLevel) : State :=
  { s with csrs := leaveStatus s.cfg s.csrs level,
           priv := returnPriv s level,
           pcc := readVal s.cfg s.csrs level.epcc,
           reservation := afterEvent s.cfg .trapReturn s.reservation }

/-! ### Interrupts (R162, R163; notes/assumptions/13.md) -/

/-- The order in which pending interrupts are taken. -/
def interruptOrder : List Nat := [11, 3, 7, 9, 1, 5, 12, 10, 2, 6]

/-- The hart has an interrupt of this code: its vector entry lies at or below `TVEC_MAX_OFFSET`, "the offset of the last
vector entry the implementation can use" (R119, R164; notes/assumptions/16.md). -/
def hasInterrupt (c : HartConfig) (code : Nat) : Bool := decide (4 * code ≤ c.tvecMaxOffset)

/-- The highest-priority interrupt of a set. -/
def firstOf (c : HartConfig) (w : XWord) : Option Nat := interruptOrder.find? fun k => bit w k && hasInterrupt c k

/-- The code a virtual-supervisor interrupt has at its own level. -/
def vsCode (code : Nat) : Nat := if code = 2 || code = 6 || code = 10 then code - 1 else code

/-- The pending and enabled interrupts, of those the hart has. -/
def pendingSet (s : State) : XWord := s.csrs.mip &&& s.csrs.mie &&& ~~~absentInterrupts s.cfg

/-- The interrupts delegated to supervisor level. -/
def delegatedSet (s : State) : XWord := if s.cfg.hasS then s.csrs.mideleg else 0#64

/-- The interrupts delegated on to virtual supervisor level. -/
def virtualSet (s : State) : XWord := if s.cfg.hasH then s.csrs.hideleg else 0#64

def machineTakes (s : State) : Bool := s.priv != .M || bit s.csrs.mstatus mieBit

def supervisorTakes (s : State) : Bool :=
  isVirtual s.priv || s.priv == .U || (s.priv == .S && bit s.csrs.mstatus sieBit)

def virtualTakes (s : State) : Bool := s.priv == .VU || (s.priv == .VS && bit s.csrs.vsstatus sieBit)

/-- The interrupt taken before the next fetch, if any: its level and code. -/
def pendingInterrupt (s : State) : Option (TrapLevel × Nat) :=
  match if machineTakes s then firstOf s.cfg (pendingSet s &&& ~~~delegatedSet s) else none with
  | some code => some (.m, code)
  | none =>
    match if supervisorTakes s then firstOf s.cfg (pendingSet s &&& delegatedSet s &&& ~~~virtualSet s) else none with
    | some code => some (.s, code)
    | none =>
      match if virtualTakes s then firstOf s.cfg (pendingSet s &&& delegatedSet s &&& virtualSet s) else none with
      | some code => some (.vs, vsCode code)
      | none => none

/-- Taking an interrupt: `pcc` of the interrupted instruction is saved (R165). -/
def takeInterrupt (s : State) (level : TrapLevel) (code : Nat) : State := trapEntry s level true code 0#64

/-! ### Ending an instruction -/

/-- The outcome of an instruction: a raise is taken from the state before it, of which nothing is changed
(spec/00_scope.md section 6.3). -/
def settle (s : State) : Except Stop State → Host.Outcome State Fault Refusal
  | .ok t => .next t
  | .error (.trap code tval) => .next (takeException s code tval)
  | .error (.fault r) => .fault r
  | .error (.refuse r) => .refused r

/-- The outcome of an instruction of `len` bytes whose own effect is `x`: where it raises nothing, `next` follows (R15). -/
def finish (len : Nat) (s : State) (x : Except Stop State) : Host.Outcome State Fault Refusal :=
  settle s (x >>= advanceBy len)

/-! ### Fetch (R15, R42, R60, R163) -/

/-- Instruction addresses are multiples of 2 where `misa.C = 1` and of 4 otherwise (R15). -/
def fetchAligned (s : State) : Bool :=
  if misaC s.csrs then (pc s).toNat % 2 == 0 else (pc s).toNat % 4 == 0

/-- None of the `n` bytes from `a` is waiting for a FENCE.I (R54). -/
def fenced (s : State) (a : Nat) : Nat → Bool
  | 0 => true
  | n + 1 => !s.unfenced.contains a && fenced s (a + 1) n

/-- The fetch of the `n` bytes at the pc: `pcc` authorises it first, then come the exceptions of `BaseRV`. Addresses are not
reduced: a fetch that runs past the top of the address space is outside the admitted memory there (DESIGN CHOICE, safe:
notes/assumptions/36.md). -/
def fetchBytes (s : State) (n : Nat) : Except Stop (List Byte) := do
  (if s.cfg.hasBase then authorise s.cfg s.pcc (pc s) n .fetch else .ok ())
  require (fetchAligned s) (.trap 0 (pc s))
  checkMemory s.cfg .fetch (pc s).toNat n
  require (fenced s (pc s).toNat n) (.refuse .unfencedFetch)
  pure (readBytes s (pc s).toNat n)

/-- The bytes of the instruction at the pc: one parcel, or two where the first says so (R60). -/
def fetch (s : State) : Except Stop (List Byte) := do
  let first ← fetchBytes s 2
  match first with
  | [b0, b1] => if isWide (parcelOf b0 b1) then fetchBytes s 4 else pure first
  | _ => pure first

end Sys2Proof.Machine
end

