-- ==== Sys2Proof/Machine/Operands.lean ====
section
/-! DEFINITION. The operand forms: the address of a load-reserved or store-conditional (spec/40_zabhlrsc.md R71), and the
CSR operand of the six CSR instructions, with its checks and widths (spec/44_csr_access.md R110 to R116). -/

namespace Sys2Proof.Machine

/-! ### LR and SC addresses (R41, R42, R71) -/

/-- The address operand: `c[rs1].addr` in Capability Mode, `x[rs1]` otherwise; both are the address part of the
register (R13). -/
def dataAddr (s : State) (rs1 : RegNum) : XWord := readX s rs1

/-- The authorising capability of a data access: the operand in Capability Mode, `ddc` in the other modes, none on a
hart that has no `ddc` (R41, R42). -/
def dataAuth (s : State) (rs1 : RegNum) : Option Cap :=
  if mode s = .cap then some (readC s rs1)
  else if s.cfg.hasHybrid then some (readVal s.cfg s.csrs .ddc)
  else none

/-- The check against the authorising capability, where there is one. -/
def authoriseData (s : State) (rs1 : RegNum) (n : Nat) (kind : AccessKind) : Except Stop Unit :=
  match dataAuth s rs1 with
  | some auth => authorise s.cfg auth (dataAddr s rs1) n kind
  | none => .ok ()

/-- The code of an address-misaligned exception (R161). -/
def misalignedCode : AccessKind → Nat
  | .load => 4
  | .store => 6
  | .fetch => 0

/-- `LrScAddr(rs1, n, kind)`: the capability check first, then alignment (R71, R163). -/
def lrScAddr (s : State) (rs1 : RegNum) (n : Nat) (kind : AccessKind) : Except Stop XWord := do
  authoriseData s rs1 n kind
  require ((dataAddr s rs1).toNat % n == 0) (.trap (misalignedCode kind) (dataAddr s rs1))
  pure (dataAddr s rs1)

/-! ### CSR numbers (R110) -/

/-- What a CSR number names. -/
inductive CsrTarget where
  /-- A capability-wide CSR. -/
  | cap (id : CapCsr) (cls : CapClass)
  /-- The XLEN-wide predecessor of an extended CSR, on a hart without the base extension (R22). -/
  | narrow (id : CapCsr)
  | base (b : BaseCsr)
  /-- No CSR of this hart. -/
  | absent
  /-- A number outside the sets the spec names (D6). -/
  | unknown
deriving DecidableEq, Repr

/-- The six extended CSRs the spec names, with the condition under which each exists (R27 to R32). In VS-mode the
supervisor numbers name the `vs` registers (notes/assumptions/12.md). -/
def extendedCsr (c : HartConfig) (p : Priv) (num : CsrNum) : Option (CapCsr × Bool) :=
  if num = 0x305#12 then some (.mtvecc, true)
  else if num = 0x341#12 then some (.mepcc, true)
  else if num = 0x105#12 then some (if p = .VS then .vstvecc else .stvecc, c.hasS)
  else if num = 0x141#12 then some (if p = .VS then .vsepcc else .sepcc, c.hasS)
  else if num = 0x205#12 then some (.vstvecc, c.hasH)
  else if num = 0x241#12 then some (.vsepcc, c.hasH)
  else none

/-- The base CSRs, with the condition under which each exists. -/
def baseCsr (c : HartConfig) (p : Priv) (num : CsrNum) : Option (BaseCsr × Bool) :=
  if num = 0x747#12 then some (.mseccfg, true)
  else if num = 0x30a#12 then some (.menvcfg, true)
  else if num = 0x10a#12 then some (.senvcfg, c.hasS)
  else if num = 0x301#12 then some (.misa, true)
  else if num = 0x300#12 then some (.mstatus, true)
  else if num = 0x310#12 then some (.mstatush, c.xlen == .rv32)
  else if num = 0x342#12 then some (.mcause, true)
  else if num = 0x343#12 then some (.mtval, true)
  else if num = 0x304#12 then some (.mie, true)
  else if num = 0x344#12 then some (.mip, true)
  else if num = 0x302#12 then some (.medeleg, c.hasS)
  else if num = 0x303#12 then some (.mideleg, c.hasS)
  else if num = 0x100#12 then some (if p = .VS then .vsstatus else .sstatus, c.hasS)
  else if num = 0x142#12 then some (if p = .VS then .vscause else .scause, c.hasS)
  else if num = 0x143#12 then some (if p = .VS then .vstval else .stval, c.hasS)
  else if num = 0x600#12 then some (.hstatus, c.hasH)
  else if num = 0x602#12 then some (.hedeleg, c.hasH)
  else if num = 0x603#12 then some (.hideleg, c.hasH)
  else if num = 0x200#12 then some (.vsstatus, c.hasH)
  else if num = 0x242#12 then some (.vscause, c.hasH)
  else if num = 0x243#12 then some (.vstval, c.hasH)
  else none

/-- What the number names on this hart. DESIGN CHOICE, unsafe (notes/assumptions/12.md): in VS-mode the number of a further
capability-wide CSR of the configuration names that CSR itself, as it does at every privilege; the spec leaves to the base
ISA whether a supervisor number names a `vs` register there. -/
def csrTarget (c : HartConfig) (p : Priv) (num : CsrNum) : CsrTarget :=
  match extendedCsr c p num with
  | some (id, there) => if !there then .absent else if c.hasBase then .cap id .extended else .narrow id
  | none =>
    match baseCsr c p num with
    | some (b, there) => if there then .base b else .absent
    | none =>
      if num = c.ddcNum then (if c.hasHybrid then .cap .ddc .newCap else .absent)
      else
        match extraOf c num with
        | some e =>
          if c.hasBase then .cap (.extra num) e.cls else if e.cls = .newCap then .absent else .unknown
        | none => if c.absentCsrs.contains num then .absent else .unknown

/-- The privilege as CSR numbers rank it: 0 user, 1 supervisor, 2 hypervisor, 3 machine (R62). -/
def privRank (c : HartConfig) : Priv → Nat
  | .M => 3
  | .S => if c.hasH then 2 else 1
  | .VS => 1
  | .U => 0
  | .VU => 0

/-- R110 (b): the current privilege is at least `csr[9:8]`. -/
def csrPrivOk (s : State) (num : CsrNum) : Bool :=
  decide ((num.extractLsb' 8 2).toNat ≤ privRank s.cfg s.priv)

/-- R110 (c): `csr[11:10] = 11` is read-only. -/
def csrReadOnly (num : CsrNum) : Bool := num.extractLsb' 10 2 == 3#2

/-- The checks of R110, the last of them R115; an unknown number is refused only where no check fails whatever it
names. DESIGN CHOICE, unsafe (notes/assumptions/41.md): the lost permission table may ask more of an access, such as a
capability permission; here an access that passes these checks succeeds. -/
def csrCheck (s : State) (num : CsrNum) (writes : Bool) : Except Stop CsrTarget :=
  if !csrPrivOk s num then .error (illegalInstruction s)
  else if writes && csrReadOnly num then .error (illegalInstruction s)
  else
    match csrTarget s.cfg s.priv num with
    | .absent => .error (illegalInstruction s)
    | .unknown => .error (.refuse (.unknownCsr num))
    | .cap id cls =>
      if cls = .newCap ∧ mode s = .off then .error (illegalInstruction s) else .ok (.cap id cls)
    | .narrow id => .ok (.narrow id)
    | .base b => .ok (.base b)

/-! ### Access widths (R111 to R116) -/

/-- The width of CSRRW, reading and writing (R111, R113, R116). -/
def rwWidth (m : Mode) : CapClass → Width
  | .extended => if m = .cap then .clen else .xlen
  | .newCap => .clen

/-- The width the other five instructions read (R116). -/
def readWidth (c : HartConfig) (m : Mode) (cls : CapClass) : Width :=
  match m, cls with
  | .off, _ => .xlen
  | .int, .extended => c.readWidths.intExtended
  | .int, .newCap => c.readWidths.intNew
  | .cap, .extended => c.readWidths.capExtended
  | .cap, .newCap => c.readWidths.capNew

/-- A value read from a CSR delivered to `rd` (R116). -/
def deliver (s : State) (rd : RegNum) (w : Width) (v : Cap) : State :=
  match w with
  | .xlen => writeX s rd v.addr
  | .clen => writeC s rd v

/-! ### Reading and writing the CSR an instruction names -/

/-- The value a CSR instruction reads; an XLEN-wide CSR is read as an integer. -/
def csrRead (s : State) : CsrTarget → Cap
  | .cap id _ => readVal s.cfg s.csrs id
  | .narrow id => Cap.null (readVal s.cfg s.csrs id).addr
  | .base b => Cap.null (readBase s.cfg s.csrs b)
  | .absent => Cap.null 0#64
  | .unknown => Cap.null 0#64

/-- An XLEN-bit write (R112, R114, R118). -/
def csrWriteX (s : State) (t : CsrTarget) (a : XWord) : State :=
  match t with
  | .cap id _ => { s with csrs := writeXlen s.cfg s.csrs id a }
  | .narrow id => { s with csrs := writeNarrow s.cfg s.csrs id a }
  | .base b => { s with csrs := writeBase s.cfg s.csrs b a }
  | .absent => s
  | .unknown => s

/-- A CLEN-bit write (R117); an XLEN-wide CSR takes the address part. -/
def csrWriteC (s : State) (t : CsrTarget) (v : Cap) : State :=
  match t with
  | .cap id _ => { s with csrs := writeClen s.cfg s.csrs id v }
  | .narrow _ => csrWriteX s t v.addr
  | .base _ => csrWriteX s t v.addr
  | .absent => s
  | .unknown => s

/-- The width at which CSRRW accesses what a number names: XLEN where it is no capability-wide CSR. -/
def targetRwWidth (m : Mode) : CsrTarget → Width
  | .cap _ cls => rwWidth m cls
  | .narrow _ => .xlen
  | .base _ => .xlen
  | .absent => .xlen
  | .unknown => .xlen

/-- The width at which the other five read it. -/
def targetReadWidth (c : HartConfig) (m : Mode) : CsrTarget → Width
  | .cap _ cls => readWidth c m cls
  | .narrow _ => .xlen
  | .base _ => .xlen
  | .absent => .xlen
  | .unknown => .xlen

end Sys2Proof.Machine
end

