-- ==== Sys2Proof/Machine/Hybrid.lean ====
section
/-! DEFINITION. MODESW_CAP, MODESW_INT, SCMODE (spec/43_cheri_hybrid.md R101 to R104). -/

namespace Sys2Proof.Machine

/-- The checks of the three instructions: they exist only with the hybrid extension (R104), are illegal in `Off` mode
(R142) and in Integer Mode where their class excludes it (R144). -/
def hybridCheck (s : State) (validInInt : Bool) : Except Stop Unit :=
  if !s.cfg.hasHybrid then .error (.refuse .noHybridExtension)
  else if mode s = .off then .error (illegalInstruction s)
  else if mode s = .int ∧ !validInInt then .error (illegalInstruction s)
  else .ok ()

/-- `pcc.m <- m`: no other part of `pcc` changes. -/
def setMode (s : State) (m : Bool) : State := { s with pcc := { s.pcc with md := withM s.cfg m s.pcc.md } }

/-! ### What each instruction does before `next` -/

def modeswCapBody (s : State) : Except Stop State :=
  (hybridCheck s s.cfg.modeswCapInInt).map fun _ => setMode s s.cfg.capModeValue

def modeswIntBody (s : State) : Except Stop State :=
  (hybridCheck s s.cfg.modeswIntInInt).map fun _ => setMode s s.cfg.intModeValue

def scmodeBody (rd rs1 rs2 : RegNum) (s : State) : Except Stop State :=
  (hybridCheck s s.cfg.scmodeInInt).map fun _ => writeC s rd (Config.scmodeSem (readC s rs1) (readX s rs2))

/-! ### The meanings -/

/-- MODESW_CAP (R101). -/
def execModeswCap (s : State) : Host.Outcome State Fault Refusal := finish 4 s (modeswCapBody s)

/-- MODESW_INT (R102). -/
def execModeswInt (s : State) : Host.Outcome State Fault Refusal := finish 4 s (modeswIntBody s)

/-- SCMODE (R103). -/
def execScmode (rd rs1 rs2 : RegNum) (s : State) : Host.Outcome State Fault Refusal :=
  finish 4 s (scmodeBody rd rs1 rs2 s)

end Sys2Proof.Machine
end

