-- ==== Sys2Proof/Machine/Zabhlrsc.lean ====
section
/-! DEFINITION. LR.B, LR.H, SC.B, SC.H (spec/40_zabhlrsc.md R70 to R75). The ordering bits `aq` and `rl` change no value
(its section 4); one hart runs in program order (notes/assumptions/32.md). -/

namespace Sys2Proof.Machine

/-- The loaded `n` bytes sign-extended to XLEN (R72, R73). -/
def signExtend (c : HartConfig) (n : Nat) (v : XWord) : XWord :=
  c.xlen.trunc ((v.setWidth (8 * n)).signExtend 64)

/-- The reservation set of an access: the granule it lies in, at least as large as the access (R35, D12). -/
def reservationFor (c : HartConfig) (a n : Nat) : Reservation :=
  { base := a / max n (2 ^ c.granuleLog) * max n (2 ^ c.granuleLog), size := max n (2 ^ c.granuleLog) }

/-- The hart holds a reservation that contains the `n` bytes from `a`. -/
def reserved (s : State) (a n : Nat) : Bool :=
  s.reservation.any fun r => r.base ≤ a && a + n ≤ r.base + r.size

/-- The state after a load-reserved of `n` bytes at `a`, before it advances. -/
def loadReservedAt (s : State) (rd : RegNum) (n : Nat) (a : XWord) : State :=
  writeX { s with reservation := some (reservationFor s.cfg a.toNat n) } rd
    (signExtend s.cfg n (memRead s a n))

/-- LR.B and LR.H for `n` = 1 and 2. -/
def loadReserved (n : Nat) (rd rs1 : RegNum) (s : State) : Except Stop State := do
  let a ← lrScAddr s rs1 n .load
  checkMemory s.cfg .load a.toNat n
  pure (loadReservedAt s rd n a)

/-- A store-conditional that stores: the low `n` bytes of `x[rs2]`, and 0 to `rd`. -/
def storeSucceeds (s : State) (rd rs2 : RegNum) (n : Nat) (a : XWord) : State :=
  writeX (memWrite { s with reservation := none } a n (readX s rs2)) rd 0#64

/-- A store-conditional that does not: memory unchanged, and 1 to `rd`. -/
def storeFails (s : State) (rd : RegNum) : State := writeX { s with reservation := none } rd 1#64

/-- The state after a store-conditional, before it advances. With a reservation that contains the bytes, success is
the next draw; without one it fails and draws nothing. -/
def storeConditionalAt (s : State) (rd rs2 : RegNum) (n : Nat) (a : XWord) : State :=
  if reserved s a.toNat n then
    if Config.scSucceeds s.draws then storeSucceeds { s with draws := s.draws + 1 } rd rs2 n a
    else storeFails { s with draws := s.draws + 1 } rd
  else storeFails s rd

/-- SC.B and SC.H for `n` = 1 and 2. DESIGN CHOICE, unsafe (notes/assumptions/19.md): memory is checked before the
reservation, so an access or page fault of `BaseRV` is raised also where the store would not have succeeded; R74 says
"whether or not the store would succeed" of `Authorise` only. -/
def storeConditional (n : Nat) (rd rs1 rs2 : RegNum) (s : State) : Except Stop State := do
  let a ← lrScAddr s rs1 n .store
  checkMemory s.cfg .store a.toNat n
  pure (storeConditionalAt s rd rs2 n a)

/-! ### What each instruction does before `next` -/

def lrBBody (rd rs1 : RegNum) (s : State) : Except Stop State := loadReserved 1 rd rs1 s

def lrHBody (rd rs1 : RegNum) (s : State) : Except Stop State := loadReserved 2 rd rs1 s

def scBBody (rd rs1 rs2 : RegNum) (s : State) : Except Stop State := storeConditional 1 rd rs1 rs2 s

def scHBody (rd rs1 rs2 : RegNum) (s : State) : Except Stop State := storeConditional 2 rd rs1 rs2 s

/-! ### The meanings -/

/-- LR.B (R72). -/
def execLrB (rd rs1 : RegNum) (s : State) : Host.Outcome State Fault Refusal := finish 4 s (lrBBody rd rs1 s)

/-- LR.H (R73). -/
def execLrH (rd rs1 : RegNum) (s : State) : Host.Outcome State Fault Refusal := finish 4 s (lrHBody rd rs1 s)

/-- SC.B (R74). -/
def execScB (rd rs1 rs2 : RegNum) (s : State) : Host.Outcome State Fault Refusal :=
  finish 4 s (scBBody rd rs1 rs2 s)

/-- SC.H (R75). -/
def execScH (rd rs1 rs2 : RegNum) (s : State) : Host.Outcome State Fault Refusal :=
  finish 4 s (scHBody rd rs1 rs2 s)

end Sys2Proof.Machine
end

