-- ==== Sys2Proof/Machine/Zicsr.lean ====
section
/-! DEFINITION. CSRRW, CSRRS, CSRRC, CSRRWI, CSRRSI, CSRRCI (spec/44_csr_access.md R110 to R127). Each shared operation
checks, reads the CSR and the source register, writes the CSR and delivers the old value; `finish` advances. A CSR
instruction is one of the events that may clear a reservation (R35). -/

namespace Sys2Proof.Machine

/-- CSRRW once its checks have passed: source and old value are read before either is written (R121). -/
def csrExchange (s : State) (t : CsrTarget) (rd rs1 : RegNum) : State :=
  match targetRwWidth (mode s) t with
  | .clen => deliver (csrWriteC s t (readC s rs1)) rd .clen (csrRead s t)
  | .xlen => deliver (csrWriteX s t (readX s rs1)) rd .xlen (csrRead s t)

/-- CSRRWI (R124): an XLEN-bit write in every mode. -/
def csrReplace (s : State) (t : CsrTarget) (rd : RegNum) (a : XWord) : State :=
  deliver (csrWriteX s t a) rd (targetReadWidth s.cfg (mode s) t) (csrRead s t)

/-- CSRRS, CSRRC, CSRRSI, CSRRCI (R122, R123, R125, R126): `a` of the old address is written where the instruction
writes; the old value is always delivered. DESIGN CHOICE, unsafe (notes/assumptions/44.md): the write comes before the delivery,
and `csrrsBody` and `csrrcBody` read `x[rs1]` from the state before the instruction also where `rd = rs1`; the pseudocode of
R122 names the delivery first and `x[rs1]` after it. -/
def csrModify (s : State) (t : CsrTarget) (rd : RegNum) (writes : Bool) (a : XWord → XWord) : State :=
  deliver (if writes then csrWriteX s t (a (csrRead s t).addr) else s) rd (targetReadWidth s.cfg (mode s) t)
    (csrRead s t)

/-- Check, then act. -/
def csrBody (s : State) (num : CsrNum) (writes : Bool) (act : CsrTarget → State) : Except Stop State :=
  (csrCheck s num writes).map fun t => passEvent .csrAccess (act t)

/-! ### What each instruction does before `next` -/

def csrrwBody (rd : RegNum) (csr : CsrNum) (rs1 : RegNum) (s : State) : Except Stop State :=
  csrBody s csr true fun t => csrExchange s t rd rs1

/-- Whether it writes depends on the register number, not its value. `x[rs1]` is its value before the instruction, where
`rd = rs1` too (notes/assumptions/44.md). -/
def csrrsBody (rd : RegNum) (csr : CsrNum) (rs1 : RegNum) (s : State) : Except Stop State :=
  csrBody s csr (rs1 != 0#5) fun t => csrModify s t rd (rs1 != 0#5) fun old => old ||| readX s rs1

/-- As `csrrsBody`. -/
def csrrcBody (rd : RegNum) (csr : CsrNum) (rs1 : RegNum) (s : State) : Except Stop State :=
  csrBody s csr (rs1 != 0#5) fun t => csrModify s t rd (rs1 != 0#5) fun old => old &&& ~~~readX s rs1

def csrrwiBody (rd : RegNum) (csr : CsrNum) (uimm : BitVec 5) (s : State) : Except Stop State :=
  csrBody s csr true fun t => csrReplace s t rd (uimm.setWidth 64)

def csrrsiBody (rd : RegNum) (csr : CsrNum) (uimm : BitVec 5) (s : State) : Except Stop State :=
  csrBody s csr (uimm != 0#5) fun t => csrModify s t rd (uimm != 0#5) fun old => old ||| uimm.setWidth 64

def csrrciBody (rd : RegNum) (csr : CsrNum) (uimm : BitVec 5) (s : State) : Except Stop State :=
  csrBody s csr (uimm != 0#5) fun t => csrModify s t rd (uimm != 0#5) fun old => old &&& ~~~uimm.setWidth 64

/-! ### The meanings -/

/-- CSRRW (R121). -/
def execCsrrw (rd : RegNum) (csr : CsrNum) (rs1 : RegNum) (s : State) : Host.Outcome State Fault Refusal :=
  finish 4 s (csrrwBody rd csr rs1 s)

/-- CSRRS (R122). -/
def execCsrrs (rd : RegNum) (csr : CsrNum) (rs1 : RegNum) (s : State) : Host.Outcome State Fault Refusal :=
  finish 4 s (csrrsBody rd csr rs1 s)

/-- CSRRC (R123). -/
def execCsrrc (rd : RegNum) (csr : CsrNum) (rs1 : RegNum) (s : State) : Host.Outcome State Fault Refusal :=
  finish 4 s (csrrcBody rd csr rs1 s)

/-- CSRRWI (R124). -/
def execCsrrwi (rd : RegNum) (csr : CsrNum) (uimm : BitVec 5) (s : State) : Host.Outcome State Fault Refusal :=
  finish 4 s (csrrwiBody rd csr uimm s)

/-- CSRRSI (R125). -/
def execCsrrsi (rd : RegNum) (csr : CsrNum) (uimm : BitVec 5) (s : State) : Host.Outcome State Fault Refusal :=
  finish 4 s (csrrsiBody rd csr uimm s)

/-- CSRRCI (R126). -/
def execCsrrci (rd : RegNum) (csr : CsrNum) (uimm : BitVec 5) (s : State) : Host.Outcome State Fault Refusal :=
  finish 4 s (csrrciBody rd csr uimm s)

end Sys2Proof.Machine
end

