-- ==== Sys2Proof/Machine/Zish4add.lean ====
section
/-! DEFINITION. SH4ADD and SH4ADD.UW (spec/41_zish4add.md R80 to R82). -/

namespace Sys2Proof.Machine

/-- The integer form: `x[rd] <- x[rs2] + (index << 4)`, modulo `2^XLEN`. -/
def sh4addInteger (s : State) (rd rs2 : RegNum) (index : XWord) : State :=
  writeX s rd (readX s rs2 + index <<< 4)

/-- What the instruction does before `next`, by mode: the integer form in `Off` and `Int`; in `Cap` what
`SH4ADD_CAP_MODE_SEMANTICS` says, and a refusal where that is not supplied (R81, R82, D26). -/
def sh4addForm (uw : Bool) (rd rs1 rs2 : RegNum) (index : XWord) (s : State) : Except Stop State :=
  if mode s = .cap then
    match s.cfg.sh4addCap with
    | none => .error (.refuse .sh4addInCapMode)
    | some .illegal => .error (illegalInstruction s)
    | some .integer => .ok (sh4addInteger s rd rs2 index)
    | some .capability => .ok (writeC s rd (Config.sh4addCapResult uw (readC s rs1) (readC s rs2)))
  else .ok (sh4addInteger s rd rs2 index)

def sh4addBody (rd rs1 rs2 : RegNum) (s : State) : Except Stop State :=
  sh4addForm false rd rs1 rs2 (readX s rs1) s

/-- Bits 31 to 0 of `x[rs1]` zero-extended; only where XLEN = 64. -/
def sh4addUwBody (rd rs1 rs2 : RegNum) (s : State) : Except Stop State :=
  if s.cfg.xlen = .rv64 then sh4addForm true rd rs1 rs2 (((readX s rs1).setWidth 32).setWidth 64) s
  else .error (.refuse .sh4addUwNeedsXlen64)

/-- SH4ADD (R81). -/
def execSh4add (rd rs1 rs2 : RegNum) (s : State) : Host.Outcome State Fault Refusal :=
  finish 4 s (sh4addBody rd rs1 rs2 s)

/-- SH4ADD.UW (R82). -/
def execSh4addUw (rd rs1 rs2 : RegNum) (s : State) : Host.Outcome State Fault Refusal :=
  finish 4 s (sh4addUwBody rd rs1 rs2 s)

end Sys2Proof.Machine
end

