-- ==== Sys2Proof/Machine/Compressed.lean ====
section
/-! DEFINITION. What a configuration knows of words and parcels without a row (outcome 2 of R64, R91, R142, R144), and the
parcels `RemapCompressed` gives an instruction (R143, I14). -/

namespace Sys2Proof.Machine

/-! ### Words without a rule -/

/-- `Present` of a known word on this hart; none where it is unknown (R91, D9). A word that is no CHERI instruction is
present. DESIGN CHOICE (notes/assumptions/38.md): without the base extension no word is a CHERI instruction, since those are
the instructions of the base and the hybrid extension (R142), so outcome 2 of R64 makes none illegal there. -/
def isPresent (c : HartConfig) (k : KnownWord) : Option Bool :=
  match k.cheri with
  | none => some true
  | some p =>
    if !c.hasBase then some false
    else
      match p with
      | .unknown => none
      | .needs alternatives => some (alternatives.any (·.all c.implements))

/-- What the configuration knows of a word: the first pattern that selects it and is not known to be absent. Of a word of a
row of the table it knows nothing: outcome 2 is not tried for one, whether the hart has the row or not (R64, R65). -/
def knownWord (c : HartConfig) (w : IWord) : Option KnownWord :=
  if isRowWord c w then none else c.knownWords.find? fun k => k.enc.hits w && isPresent c k != some false

/-- Outcome 2 of R64: a CHERI instruction in `Off` mode (R142), any instruction in a mode its known class excludes (R144,
D17; in `Off` mode the class is irrelevant). -/
def modeExcludes (m : Mode) (k : KnownWord) : Bool :=
  match m with
  | .off => k.cheri.isSome
  | .int => k.cls == some .capOnly
  | .cap => k.cls == some .intOnly

/-- What outcome 2 of R64 and the refusals of unknown presence (D9) and class (D17) leave of a known word: nothing, where
its other meaning, if any, is to be looked up. -/
def knownCheck (k : KnownWord) (w : IWord) (s : State) : Except Stop Unit :=
  if isPresent s.cfg k = none then .error (.refuse (.lostCheriInstruction w))
  else if modeExcludes (mode s) k then .error (illegalInstruction s)
  else if k.cheri.isSome && k.cls = none then .error (.refuse (.lostCheriInstruction w))
  else .ok ()

/-- `knownCheck` of whatever the configuration knows of a word. -/
def knownGate (w : IWord) (s : State) : Except Stop Unit :=
  match knownWord s.cfg w with
  | some k => knownCheck k w s
  | none => .ok ()

/-! ### Remapped parcels -/

/-- What an instruction of the table does before `next`, of whatever length it is. It does not ask whether the hart has the
instruction (`Instr.wf`); for a remapped parcel nothing else does (see `remapped`). -/
def body : Instr → State → Except Stop State
  | .csrrw rd csr rs1, s => csrrwBody rd csr rs1 s
  | .csrrs rd csr rs1, s => csrrsBody rd csr rs1 s
  | .csrrc rd csr rs1, s => csrrcBody rd csr rs1 s
  | .csrrwi rd csr uimm, s => csrrwiBody rd csr uimm s
  | .csrrsi rd csr uimm, s => csrrsiBody rd csr uimm s
  | .csrrci rd csr uimm, s => csrrciBody rd csr uimm s
  | .lrB rd rs1 _ _, s => lrBBody rd rs1 s
  | .lrH rd rs1 _ _, s => lrHBody rd rs1 s
  | .scB rd rs1 rs2 _ _, s => scBBody rd rs1 rs2 s
  | .scH rd rs1 rs2 _ _, s => scHBody rd rs1 rs2 s
  | .sh4add rd rs1 rs2, s => sh4addBody rd rs1 rs2 s
  | .sh4addUw rd rs1 rs2, s => sh4addUwBody rd rs1 rs2 s
  | .modeswCap, s => modeswCapBody s
  | .modeswInt, s => modeswIntBody s
  | .scmode rd rs1 rs2, s => scmodeBody rd rs1 rs2 s

/-- A parcel of `RemapCompressed`: outside Capability Mode it has its standard meaning, whatever is known of it (R143). -/
def isRemapped (c : HartConfig) (p : BitVec 16) : Bool := c.remapCompressed.any (·.1 == p)

/-- The instruction a parcel is remapped to: in Capability Mode only (R143), and only where compressed instructions exist
(R60). DESIGN CHOICE, unsafe (notes/assumptions/38.md): the spec does not say what a remapping to a row of an extension that
the hart lacks, or to a hybrid instruction without a supplied encoding, does; here the row's meaning runs, with the checks
that meaning itself makes. -/
def remapped (s : State) (p : BitVec 16) : Option Instr :=
  if mode s = .cap && misaC s.csrs then (s.cfg.remapCompressed.find? (·.1 == p)).map (·.2) else none

/-- A 16-bit parcel. Remapped, it is the other instruction (R144), 2 bytes long, also where the hart lacks the extension of
that row (DESIGN CHOICE: notes/assumptions/38.md); else, where no entry of `RemapCompressed` is for it, outcome 2 of R64 holds for
it as for a word; else it is refused: in Capability Mode by R66, in the other modes because the base meaning is not supplied
(D1). DESIGN CHOICE, safe (notes/assumptions/38.md): a parcel of `RemapCompressed` that is also known as a CHERI instruction
has its standard meaning in Off mode (R143, R148), so it is refused there and not illegal (R142, outcome 2 of R64). DESIGN
CHOICE, unsafe (notes/assumptions/38.md): a known parcel that is in no entry of `RemapCompressed` counts as not remapped, so
outcome 2 makes one illegal in Capability Mode where its class excludes that mode (R64, D17), although R66 and D9 refuse every
parcel there. -/
def parcelStep (p : BitVec 16) (s : State) : Host.Outcome State Fault Refusal :=
  match remapped s p with
  | some i => finish 2 s (body i s)
  | none =>
    settle s do
      (if isRemapped s.cfg p then .ok () else knownGate (p.setWidth 32) s)
      .error (.refuse (if mode s = .cap then .compressedInCapMode p else .compressedBase p))

end Sys2Proof.Machine
end

