-- ==== Sys2Proof/Machine/BaseRV.lean ====
section
/-! DEFINITION. What becomes of bytes that are no row of the opcode table: outcomes 2 to 4 of R64. Of the base ISA
(`BaseRV`, D1) this model supplies the instructions whose behaviour spec/ itself states: control transfer (R33), trap
return (R166), fences (R52, R54, D34) and the environment instructions (R168); their encodings are the family's
(notes/assumptions/28.md). -/

namespace Sys2Proof.Machine

/-- The base instructions the model supplies. -/
inductive BaseInstr where
  | branch (cond : BitVec 3) (rs1 rs2 : RegNum) (off : XWord)
  | jal (rd : RegNum) (off : XWord)
  | jalr (rd rs1 : RegNum) (off : XWord)
  | auipc (rd : RegNum) (off : XWord)
  | fence
  | fenceI
  | sfenceVma
  | cacheBlock
  | ecall
  | ebreak
  | wfi
  | mret
  | sret
deriving DecidableEq, Repr

/-! ### Decoding -/

def immI (w : IWord) : XWord := (w.extractLsb' 20 12).signExtend 64

def immU (w : IWord) : XWord := (w.extractLsb' 12 20 ++ 0#12).signExtend 64

def immB (w : IWord) : XWord :=
  (w.extractLsb' 31 1 ++ w.extractLsb' 7 1 ++ w.extractLsb' 25 6 ++ w.extractLsb' 8 4 ++ 0#1).signExtend 64

def immJ (w : IWord) : XWord :=
  (w.extractLsb' 31 1 ++ w.extractLsb' 12 8 ++ w.extractLsb' 20 1 ++ w.extractLsb' 21 10 ++ 0#1).signExtend 64

/-- The family's four cache-block management instructions: opcode 0x0f, funct3 2, rd 0, and immediate 0, 1, 2 or 4 (invalidate,
clean, flush, zero). PRESUMED, unsafe (notes/assumptions/28.md): the spec does not say which words they are (R52), and every
other word of that opcode and funct3 is no base instruction here. -/
def isCacheBlock (w : IWord) : Bool :=
  [0x0000200f#32, 0x0010200f#32, 0x0020200f#32, 0x0040200f#32].contains (w &&& 0xfff07fff#32)

/-- The supplied base instruction a word encodes (PRESUMED, the family's encodings: notes/assumptions/28.md). -/
def decodeBase (w : IWord) : Option BaseInstr :=
  let opcode := w.extractLsb' 0 7
  let funct3 := w.extractLsb' 12 3
  if w = 0x00000073#32 then some .ecall
  else if w = 0x00100073#32 then some .ebreak
  else if w = 0x10200073#32 then some .sret
  else if w = 0x30200073#32 then some .mret
  else if w = 0x10500073#32 then some .wfi
  else if w &&& 0xfe007fff#32 = 0x12000073#32 then some .sfenceVma
  else if opcode = 0x63#7 then
    (if funct3 = 2#3 ∨ funct3 = 3#3 then none else some (.branch funct3 (rs1Of w) (rs2Of w) (immB w)))
  else if opcode = 0x6f#7 then some (.jal (rdOf w) (immJ w))
  else if opcode = 0x67#7 ∧ funct3 = 0#3 then some (.jalr (rdOf w) (rs1Of w) (immI w))
  else if opcode = 0x17#7 then some (.auipc (rdOf w) (immU w))
  else if opcode = 0x0f#7 ∧ funct3 = 0#3 then some .fence
  else if opcode = 0x0f#7 ∧ funct3 = 1#3 then some .fenceI
  else if isCacheBlock w then some .cacheBlock
  else none

/-! ### Control transfer (R33) -/

/-- An XLEN-bit value as a signed one. -/
def signedX (c : HartConfig) (v : XWord) : Int :=
  match c.xlen with
  | .rv32 => (v.setWidth 32).toInt
  | .rv64 => v.toInt

/-- Whether a conditional branch is taken. -/
def branchTaken (c : HartConfig) (cond : BitVec 3) (a b : XWord) : Bool :=
  if cond = 0#3 then a == b
  else if cond = 1#3 then a != b
  else if cond = 4#3 then signedX c a < signedX c b
  else if cond = 5#3 then signedX c b ≤ signedX c a
  else if cond = 6#3 then a.toNat < b.toNat
  else b.toNat ≤ a.toNat

/-- A jump to a target; a misaligned one raises the exception of the base ISA. Of `pcc` only the address changes; a jump may
clear the reservation (R35). -/
def jumpTo (s : State) (target : XWord) : Except Stop State :=
  if !misaC s.csrs && bit target 1 then .error (.trap 0 target) else .ok (setPc (passEvent .jump s) target)

/-- A jump that links: `x[rd] <- pc + 4`. A link that would wrap is refused (R15), after the check of the target and only
where a link is written (notes/assumptions/30.md). -/
def jumpLink (s : State) (rd : RegNum) (target : XWord) : Except Stop State := do
  let t ← jumpTo s target
  require (rd = 0#5 || pcAdvances s) (.refuse .pcWraps)
  pure (writeX t rd (pc s + 4#64))

/-- JAL, JALR and AUIPC are refused in Capability Mode (R33, D36). -/
def unlessCap (s : State) (w : IWord) (act : Except Stop State) : Except Stop State :=
  if mode s = .cap then .error (.refuse (.capModeJump w)) else act

/-! ### Environment and return (R166, R168) -/

/-- The code of an environment call from a privilege. -/
def ecallCode : Priv → Nat
  | .U => 8
  | .VU => 8
  | .S => 9
  | .VS => 10
  | .M => 11

/-- SRET returns from the level it runs in. -/
def sretLevel (s : State) : TrapLevel := if s.priv = .VS then .vs else .s

/-- The meaning of a supplied base instruction; `w` is its word. -/
def baseStep (b : BaseInstr) (w : IWord) (s : State) : Except Stop State :=
  match b with
  | .branch cond rs1 rs2 off =>
    if branchTaken s.cfg cond (readX s rs1) (readX s rs2) then jumpTo s (s.cfg.xlen.trunc (pc s + off))
    else advance s
  | .jal rd off => unlessCap s w (jumpLink s rd (s.cfg.xlen.trunc (pc s + off)))
  | .jalr rd rs1 off => unlessCap s w (jumpLink s rd (s.cfg.xlen.trunc (readX s rs1 + off) &&& ~~~1#64))
  | .auipc rd off => unlessCap s w (advance (writeX s rd (pc s + off)))
  | .fence => advance (passEvent .fence s)
  | .fenceI => advance (passEvent .fence { s with unfenced := [] })
  | .sfenceVma =>
    if privRank s.cfg s.priv = 0 then .error (illegalInstruction s) else advance (passEvent .fence s)
  | .cacheBlock =>
    if mode s = .off then .error (.refuse (.noMeaning w)) else .error (.refuse (.cacheBlockInCheriMode w))
  | .ecall => .error (.trap (ecallCode s.priv) 0#64)
  | .ebreak => .error (.trap 3 (s.cfg.xlen.trunc (Config.breakpointTval (pc s))))
  | .wfi => advance (passEvent .wait s)
  | .mret => if s.priv = .M then .ok (trapReturn s .m) else .error (illegalInstruction s)
  | .sret =>
    if !s.cfg.hasS ∨ privRank s.cfg s.priv = 0 then .error (illegalInstruction s)
    else .ok (trapReturn s (sretLevel s))

/-! ### Bytes with no row (R64, R66) -/

/-- Whether the spec gives a supplied base instruction its base meaning in a mode: ECALL, EBREAK, MRET, SRET, WFI and the
fences (R168, R52) and conditional branches (R33) in every mode, JAL, JALR and AUIPC outside Capability Mode (R33), a
cache-block instruction in `Off` mode (D34). These are no CHERI instructions, and no class excludes them there. -/
def baseMeaningStated (m : Mode) : BaseInstr → Bool
  | .branch .. => true
  | .jal .. => m != .cap
  | .jalr .. => m != .cap
  | .auipc .. => m != .cap
  | .fence => true
  | .fenceI => true
  | .sfenceVma => true
  | .cacheBlock => m == .off
  | .ecall => true
  | .ebreak => true
  | .wfi => true
  | .mret => true
  | .sret => true

/-- Outcomes 2, 3 and 4 of R64, in this order. Outcome 2 is not tried where the spec states the base meaning of the word
(`baseMeaningStated`), nor for a word of a row the hart lacks or a reserved encoding inside a row, of which `knownWord` knows
nothing (the closing sentence of R64, R65). DESIGN CHOICE, unsafe (notes/assumptions/38.md): a known class makes JAL, JALR and
AUIPC illegal in Capability Mode, and a cache-block instruction in Integer or Capability Mode, where it excludes that mode
(R64, R144), although R33 and R52 refuse them there. -/
def wordWithoutRow (w : IWord) (s : State) : Except Stop State :=
  match decodeBase w with
  | some b =>
    if baseMeaningStated (mode s) b then baseStep b w s
    else do
      knownGate w s
      baseStep b w s
  | none => do
    knownGate w s
    .error (.refuse (if (knownWord s.cfg w).any (·.cheri.isSome) then .lostCheriInstruction w else .noMeaning w))

/-- Bytes at the pc that are no row of the table. -/
def withoutRow (e : DecodeError) (s : State) : Host.Outcome State Fault Refusal :=
  match e with
  | .truncated => .fault .notAdmittedMemory
  | .compressed p => parcelStep p s
  | .noRow w => settle s (wordWithoutRow w s)

end Sys2Proof.Machine
end

