-- ==== Sys2Proof/Machine/Dispatch.lean ====
section
/-! DEFINITION. The meaning of every instruction: one arm per row of spec/opcode_table.json. -/

namespace Sys2Proof.Machine

def exec (i : Instr) (s : State) : Host.Outcome State Fault Refusal :=
  match i with
  -- Zicsr (spec/44_csr_access.md)
  | .csrrw rd csr rs1 => Sys2Proof.Machine.execCsrrw rd csr rs1 s
  | .csrrs rd csr rs1 => Sys2Proof.Machine.execCsrrs rd csr rs1 s
  | .csrrc rd csr rs1 => Sys2Proof.Machine.execCsrrc rd csr rs1 s
  | .csrrwi rd csr uimm => Sys2Proof.Machine.execCsrrwi rd csr uimm s
  | .csrrsi rd csr uimm => Sys2Proof.Machine.execCsrrsi rd csr uimm s
  | .csrrci rd csr uimm => Sys2Proof.Machine.execCsrrci rd csr uimm s
  -- Zabhlrsc (spec/40_zabhlrsc.md); the ordering bits change no value (its section 4)
  | .lrB rd rs1 _ _ => Sys2Proof.Machine.execLrB rd rs1 s
  | .lrH rd rs1 _ _ => Sys2Proof.Machine.execLrH rd rs1 s
  | .scB rd rs1 rs2 _ _ => Sys2Proof.Machine.execScB rd rs1 rs2 s
  | .scH rd rs1 rs2 _ _ => Sys2Proof.Machine.execScH rd rs1 rs2 s
  -- Zish4add (spec/41_zish4add.md)
  | .sh4add rd rs1 rs2 => Sys2Proof.Machine.execSh4add rd rs1 rs2 s
  | .sh4addUw rd rs1 rs2 => Sys2Proof.Machine.execSh4addUw rd rs1 rs2 s
  -- the hybrid extension (spec/43_cheri_hybrid.md)
  | .modeswCap => Sys2Proof.Machine.execModeswCap s
  | .modeswInt => Sys2Proof.Machine.execModeswInt s
  | .scmode rd rs1 rs2 => Sys2Proof.Machine.execScmode rd rs1 rs2 s

end Sys2Proof.Machine
end

