-- ==== Sys2Proof/Machine/Step.lean ====
section
/-! DEFINITION. One step of the hart (spec/60_exceptions.md R163): a pending enabled interrupt is taken before the next fetch;
otherwise the bytes at the pc are fetched, decoded and run. DESIGN CHOICE (notes/assumptions/42.md): the `Halt` predicate of
D33 is no part of the model; a run goes on until a fault or a refusal. -/

namespace Sys2Proof.Machine

def step (s : State) : Host.Outcome State Fault Refusal :=
  match pendingInterrupt s with
  | some (level, code) => .next (takeInterrupt s level code)
  | none =>
    match fetch s with
    | .error e => settle s (.error e)
    | .ok bytes =>
      match decode s.cfg bytes with
      | .ok (i, _) => exec i s
      | .error e => withoutRow e s

/-- The state with the instruction whose bits are `w` placed where the next step fetches: the four bytes at the pc,
which then wait for no FENCE.I. It stands for the load of a program from outside (notes/assumptions/35.md). -/
def State.withFetchWord (s : State) (nbits w : Nat) : State :=
  let word : IWord := BitVec.ofNat 32 (w % 2 ^ nbits)
  let a := s.pcc.addr.toNat
  let put (m : List Host.Cell) (k : Nat) : List Host.Cell := update unlistedByte m (a + k) (wordByte word k)
  let clear (l : List Nat) (k : Nat) : List Nat := removeKey l (a + k)
  { s with mem := put (put (put (put s.mem 0) 1) 2) 3,
           unfenced := clear (clear (clear (clear s.unfenced 0) 1) 2) 3 }

end Sys2Proof.Machine
end

