-- ==== Sys2Proof/Safety.lean ====
section
/-! DEFINITION. The terms claims use: what holds of every state a run reaches, the proviso of R148, and how an outcome is
read. -/

namespace Sys2Proof.Safety

open Sys2Proof.Machine

/-- The six extended CSRs and `ddc`. -/
def namedCaps : List CapCsr := [.mtvecc, .mepcc, .stvecc, .sepcc, .vstvecc, .vsepcc, .ddc]

/-- The base CSR words that are XLEN bits wide (`mstatus` is 64 on every hart). -/
def baseWords (f : CsrFile) : List XWord :=
  [f.mseccfg, f.menvcfg, f.senvcfg, f.misa, f.mcause, f.mtval, f.mie, f.mip, f.medeleg, f.mideleg, f.scause, f.stval,
    f.hstatus, f.hedeleg, f.hideleg, f.vsstatus, f.vscause, f.vstval]

/-- Memory and the sparse sets are in canonical form. -/
def memoryWf (s : State) : Bool := Memory.wf s.mem && setWf s.memTags && setWf s.unfenced

/-- The map of further CSRs is in canonical form. -/
def extraWf (s : State) : Bool := mapWf (Cap.null 0#64) s.csrs.extra

/-- Every register holds XLEN-bit halves. -/
def valuesFit (s : State) : Bool :=
  s.regs.toList.all (Cap.fits s.cfg.xlen) && s.pcc.fits s.cfg.xlen &&
    namedCaps.all (fun id => (s.csrs.get id).fits s.cfg.xlen) &&
    s.csrs.extra.all (fun e => e.2.fits s.cfg.xlen) && (baseWords s.csrs).all s.cfg.xlen.fits

/-- The current privilege and `mstatus.MPP` name modes the hart implements. -/
def privilegeWf (s : State) : Bool := s.cfg.supports s.priv && mppSupported s.cfg (mppOf s.csrs.mstatus)

/-- No reserved metadata bit of a stored value is set. -/
def noReserved (c : HartConfig) (v : Cap) : Bool := v.md &&& c.reservedMask == 0#64

/-- A capability-wide CSR outside `FullWidthCSRs` stores no reserved bit (R23). -/
def reservedClear (s : State) : Bool :=
  namedCaps.all (fun id => isFull s.cfg id || noReserved s.cfg (s.csrs.get id)) &&
    s.csrs.extra.all (fun e => isFull s.cfg (.extra (BitVec.ofNat 12 e.1)) || noReserved s.cfg e.2) &&
    s.csrs.extra.all (fun e => decide (e.1 < 2 ^ 12))

/-- What holds of every state a run reaches. -/
structure Inv (s : State) : Prop where
  config : s.cfg.wf = true
  memory : memoryWf s = true
  extra : extraWf s = true
  values : valuesFit s = true
  privilege : privilegeWf s = true
  reserved : reservedClear s = true

/-- The registers of R148's proviso that exist on the hart (those of a missing privilege level are left out). -/
def provisoCsrs (c : HartConfig) : List CapCsr :=
  [.mtvecc, .mepcc, .ddc] ++ (if c.hasS then [.stvecc, .sepcc] else []) ++
    (if c.hasH then [.vstvecc, .vsepcc] else [])

/-- R148's proviso: `pcc` and these registers hold the infinite capability. -/
def standardProviso (s : State) : Bool :=
  isInfinite s.cfg s.pcc && (provisoCsrs s.cfg).all fun id => isInfinite s.cfg (heldVal s.cfg s.csrs id)

/-! ### Frames: what an instruction leaves unchanged -/

/-- Every general register but `rd` reads as before. -/
def KeepsRegsBut (rd : RegNum) (s t : State) : Prop := ∀ r, r ≠ rd → readC t r = readC s r

/-- Every byte of memory reads as before, no memory tag changes, and no byte waits anew for a FENCE.I. -/
def KeepsMemory (s t : State) : Prop :=
  (∀ a, readByte t a = readByte s a) ∧ t.memTags = s.memTags ∧ t.unfenced = s.unfenced

/-- The configuration and the privilege are as before. -/
def KeepsHart (s t : State) : Prop := t.cfg = s.cfg ∧ t.priv = s.priv

/-- `next`: the pc is 4 further on, and the rest of `pcc` is as before. -/
def AdvancedBy4 (s t : State) : Prop := t.pcc = { s.pcc with addr := s.pcc.addr + 4#64 }

/-- Register `rd` holds `v` afterwards; register 0 keeps reading as `NullCap(0)` (R13). -/
def RdGets (rd : RegNum) (v : Cap) (t : State) : Prop := readC t rd = if rd = 0#5 then Cap.null 0#64 else v

/-- A register-to-register instruction: `rd` gets `v`, the pc advances, nothing else changes. -/
structure OnlyRd (rd : RegNum) (v : Cap) (s t : State) : Prop where
  result : RdGets rd v t
  regs : KeepsRegsBut rd s t
  pc : AdvancedBy4 s t
  csrs : t.csrs = s.csrs
  hart : KeepsHart s t
  mem : KeepsMemory s t
  reservation : t.reservation = s.reservation

/-- A CSR instruction: `rd` gets `v`, the CSR file becomes `f`, the pc advances, a reservation goes where the configuration
lets a CSR instruction clear it (R35), nothing else changes. -/
structure OnlyRdAndCsrs (rd : RegNum) (v : Cap) (f : CsrFile) (s t : State) : Prop where
  result : RdGets rd v t
  csrs : t.csrs = f
  regs : KeepsRegsBut rd s t
  pc : AdvancedBy4 s t
  hart : KeepsHart s t
  mem : KeepsMemory s t
  reservation : t.reservation = afterEvent s.cfg .csrAccess s.reservation

/-! ### Conditions an instruction runs under -/

/-- The authorising capability of a data access, where there is one, authorises it (R41 to R43). -/
def DataAuthorised (s : State) (rs1 : RegNum) (n : Nat) (kind : AccessKind) : Prop :=
  ∀ auth, dataAuth s rs1 = some auth → authorises s.cfg auth (readX s rs1) n kind = true

/-- The `n` bytes from `a` are main memory (R47). -/
def MainMemory (c : HartConfig) (a n : Nat) : Prop := ∀ k, k < n → regionAt c (a + k) = some .main

/-- Of the bytes from `a`, byte `k` is the first that is not main memory, and `r` is what is there: a region of `BaseRV`'s
faults, or nothing (R47, R161). -/
structure FirstFails (c : HartConfig) (a k : Nat) (r : Option RegionKind) : Prop where
  before : MainMemory c a k
  region : regionAt c (a + k) = r
  fails : r ≠ some .main

/-- How an access of a kind ends that fails at an address: the access fault or page fault of its kind, recording the address,
or the stop outside the admitted memory (R47, R161). -/
def MemoryFailure (s : State) (kind : AccessKind) (a : XWord) : Option RegionKind → Host.Outcome State Fault Refusal
  | some .accessFault =>
    .next (takeException s (match kind with | .load => 5 | .store => 7 | .fetch => 1) a)
  | some .pageFault =>
    .next (takeException s (match kind with | .load => 13 | .store => 15 | .fetch => 12) a)
  | some .main => .fault .notAdmittedMemory
  | none => .fault .notAdmittedMemory

/-- `pcc` authorises the fetch of `n` bytes, where the hart has capabilities (R42). -/
def FetchAuthorised (s : State) (n : Nat) : Prop :=
  s.cfg.hasBase = true → authorises s.cfg s.pcc s.pcc.addr n .fetch = true

/-- None of the `n` bytes at the pc waits for a FENCE.I (R54). -/
def FetchFenced (s : State) (n : Nat) : Prop := ∀ k, k < n → s.pcc.addr.toNat + k ∉ s.unfenced

/-- The first parcel at the pc could be fetched, and says that the instruction is 32 bits long (R60). -/
structure FirstParcelIsWide (s : State) : Prop where
  authorised : FetchAuthorised s 2
  aligned : fetchAligned s = true
  memory : MainMemory s.cfg s.pcc.addr.toNat 2
  fenced : FetchFenced s 2
  wide : isWide (parcelOf (readByte s s.pcc.addr.toNat) (readByte s (s.pcc.addr.toNat + 1))) = true

/-- The checks of R110 pass for an access to what `num` names. -/
structure CsrAccessible (s : State) (num : CsrNum) (writes : Bool) (t : CsrTarget) : Prop where
  target : csrTarget s.cfg s.priv num = t
  known : t ≠ .absent ∧ t ≠ .unknown
  privilege : csrPrivOk s num = true
  writable : writes = true → csrReadOnly num = false
  enabled : ∀ id, t = .cap id .newCap → mode s ≠ .off

/-- The state of a successful fetch of the word `w`: `pcc` authorises both parcels, the pc is aligned, the bytes are
main memory that waits for no FENCE.I, and they are the bytes of `w`. -/
structure Fetches (s : State) (w : IWord) : Prop where
  authorised : FetchAuthorised s 2 ∧ FetchAuthorised s 4
  aligned : fetchAligned s = true
  memory : MainMemory s.cfg s.pcc.addr.toNat 4
  fenced : FetchFenced s 4
  bytes : readBytes s s.pcc.addr.toNat 4 = wordBytes w

/-- The number recorded by an illegal instruction: its word, or 0 as the implementation chooses (R160). -/
def illegalTval (s : State) : XWord := if s.cfg.illegalTvalIsWord then s.cfg.xlen.trunc (wordAtPc s) else 0#64

/-- The outcome of an illegal instruction: its exception is taken (R160). -/
def Illegal (s : State) : Host.Outcome State Fault Refusal := .next (takeException s 2 (illegalTval s))

/-- The outcome of a failed `Authorise`: `CAUSE_CHERI` is taken, or the model stops (R161). -/
def CheriFailure (s : State) (auth : Cap) (a : XWord) (n : Nat) (kind : AccessKind) :
    Host.Outcome State Fault Refusal :=
  match s.cfg.causeCheri with
  | some code => .next (takeException s code (s.cfg.xlen.trunc (Config.cheriTval auth a n kind)))
  | none => .fault .cheriCheckFailed

/-- The address a load-reserved or store-conditional accesses: the address part of `rs1` in every mode (R71). -/
def lrScAddrOf (s : State) (rs1 : RegNum) : Nat := (readX s rs1).toNat

/-- The `n` low bytes of `v` stand at `a`; every other byte reads as before, the tag of the granule stored to is clear
and no other tag changes, and the stored bytes wait for a FENCE.I (R45, R48, R54, R74). -/
structure Stored (a n : Nat) (v : XWord) (s t : State) : Prop where
  bytes : ∀ k, k < n → readByte t (a + k) = (v >>> (8 * k)).setWidth 8
  others : ∀ b, b < a ∨ a + n ≤ b → readByte t b = readByte s b
  tags : ∀ g, g ∈ t.memTags ↔ g ∈ s.memTags ∧ g ≠ granuleOf s.cfg a
  unfenced : ∀ b, b ∈ t.unfenced ↔ b ∈ s.unfenced ∨ a ≤ b ∧ b < a + n

/-- A store-conditional of `n` bytes at `a` that completed: where the hart holds a reservation that contains the bytes and
the implementation chooses to succeed, the bytes are stored and `rd` gets 0; otherwise memory is unchanged and `rd`
gets 1. Either way the reservation is gone (R74, R75). -/
structure StoreConditionalDone (a n : Nat) (rd rs2 : RegNum) (s t : State) : Prop where
  outcome : if reserved s a n = true ∧ Config.scSucceeds s.draws = true
    then RdGets rd (Cap.null 0#64) t ∧ Stored a n (readX s rs2) s t
    else RdGets rd (Cap.null 1#64) t ∧ KeepsMemory s t
  reservation : t.reservation = none
  regs : KeepsRegsBut rd s t
  pc : AdvancedBy4 s t
  csrs : t.csrs = s.csrs
  hart : KeepsHart s t

/-- A load-reserved of `n` bytes at `a` that completed with `v` in `rd`: a reservation that contains the bytes is held
(R72, R73). -/
structure LoadReservedDone (a n : Nat) (rd : RegNum) (v : XWord) (s t : State) : Prop where
  result : RdGets rd (Cap.null (s.cfg.xlen.trunc v)) t
  reservation : reserved t a n = true
  regs : KeepsRegsBut rd s t
  pc : AdvancedBy4 s t
  csrs : t.csrs = s.csrs
  hart : KeepsHart s t
  mem : KeepsMemory s t

/-- A value delivered at a width (R116): the address part as an integer, or the whole capability. -/
def delivered (c : HartConfig) (w : Width) (v : Cap) : Cap :=
  match w with
  | .xlen => Cap.null (c.xlen.trunc v.addr)
  | .clen => v.trunc c.xlen

/-- The CSRs that are views of the `mstatus` word. -/
def statusView : BaseCsr → Bool
  | .mstatus => true
  | .mstatush => true
  | .sstatus => true
  | _ => false

/-- The CSR number of a CSR instruction and whether it writes: by the register number or the immediate, not by a
value (R121 to R126). -/
def csrUse : Instr → Option (CsrNum × Bool)
  | .csrrw _ csr _ => some (csr, true)
  | .csrrs _ csr rs1 => some (csr, rs1 != 0#5)
  | .csrrc _ csr rs1 => some (csr, rs1 != 0#5)
  | .csrrwi _ csr _ => some (csr, true)
  | .csrrsi _ csr uimm => some (csr, uimm != 0#5)
  | .csrrci _ csr uimm => some (csr, uimm != 0#5)
  | .lrB _ _ _ _ => none
  | .lrH _ _ _ _ => none
  | .scB _ _ _ _ _ => none
  | .scH _ _ _ _ _ => none
  | .sh4add _ _ _ => none
  | .sh4addUw _ _ _ => none
  | .modeswCap => none
  | .modeswInt => none
  | .scmode _ _ _ => none

/-- An instruction of Zabhlrsc or Zish4add, which the CRE bits do not control (R70, R80). -/
def notCreControlled : Instr → Bool
  | .lrB _ _ _ _ => true
  | .lrH _ _ _ _ => true
  | .scB _ _ _ _ _ => true
  | .scH _ _ _ _ _ => true
  | .sh4add _ _ _ => true
  | .sh4addUw _ _ _ => true
  | .csrrw _ _ _ => false
  | .csrrs _ _ _ => false
  | .csrrc _ _ _ => false
  | .csrrwi _ _ _ => false
  | .csrrsi _ _ _ => false
  | .csrrci _ _ _ => false
  | .modeswCap => false
  | .modeswInt => false
  | .scmode _ _ _ => false

/-- The three hybrid instructions, with whether each is valid in Integer Mode (R104, R144). -/
def hybridUse (c : HartConfig) : Instr → Option Bool
  | .modeswCap => some c.modeswCapInInt
  | .modeswInt => some c.modeswIntInInt
  | .scmode _ _ _ => some c.scmodeInInt
  | .csrrw _ _ _ => none
  | .csrrs _ _ _ => none
  | .csrrc _ _ _ => none
  | .csrrwi _ _ _ => none
  | .csrrsi _ _ _ => none
  | .csrrci _ _ _ => none
  | .lrB _ _ _ _ => none
  | .lrH _ _ _ _ => none
  | .scB _ _ _ _ _ => none
  | .scH _ _ _ _ _ => none
  | .sh4add _ _ _ => none
  | .sh4addUw _ _ _ => none

/-- The mode admits the hybrid instruction: not `Off`, and not Integer Mode where its class excludes it (R142, R144). -/
def HybridLegal (s : State) (validInInt : Bool) : Prop :=
  mode s ≠ .off ∧ (mode s = .int → validInInt = true)

/-- A switch of `pcc.m` to a value: nothing else changes but the pc (R101, R102). -/
structure SwitchedTo (m : Bool) (s t : State) : Prop where
  mode : mOf s.cfg t.pcc = m
  md : ∀ k, k ≠ s.cfg.mBitPos → t.pcc.md.getLsbD k = s.pcc.md.getLsbD k
  tag : t.pcc.tag = s.pcc.tag
  pc : t.pcc.addr = s.pcc.addr + 4#64
  rest : t = { s with pcc := t.pcc }

/-- What trap entry and return leave alone: registers and memory (R165: a trap saves nothing else), and the reservation where
the configuration does not let the event clear it (R35). -/
structure TrapFrame (e : ReservationEvent) (s t : State) : Prop where
  cfg : t.cfg = s.cfg
  regs : t.regs = s.regs
  mem : t.mem = s.mem ∧ t.memTags = s.memTags ∧ t.unfenced = s.unfenced
  reservation : t.reservation = afterEvent s.cfg e s.reservation
  draws : t.draws = s.draws

/-- Other words of the three CSRs that hold the CRE bits (R17). -/
structure CreWords where
  mseccfg : XWord
  menvcfg : XWord
  senvcfg : XWord

/-- The state with these words in `mseccfg`, `menvcfg` and `senvcfg`. -/
def withCreWords (v : CreWords) (s : State) : State :=
  { s with csrs := { s.csrs with mseccfg := v.mseccfg, menvcfg := v.menvcfg, senvcfg := v.senvcfg } }

/-- An outcome whose next state is changed by `f`. -/
def mapNext (f : State → State) : Host.Outcome State Fault Refusal → Host.Outcome State Fault Refusal
  | .next t => .next (f t)
  | .fault r => .fault r
  | .refused r => .refused r

end Sys2Proof.Safety
end

