-- ==== Sys2Proof/Certificates/Slice0/Obligations.lean ====
section
/-! DEFINITION. The statements for the provers. Each docstring names the rules it formalises; hypotheses and conclusions
are in the terms of Sys2Proof/Safety.lean. -/

open Sys2Proof Sys2Proof.Machine Sys2Proof.Safety

/-! ### Encoding (spec/30_encoding.md) -/

/-- Decoding the word of a well-formed instruction gives it back, on every configuration whose supplied encodings can be
told apart (R61 to R64). -/
def Obligations.DecodeOfEncodeIsIdentity : Prop :=
  ∀ (c : HartConfig) (i : Instr) (w : IWord),
    c.encodingsWf = true → i.wf c = true → encode c i = some w → decodeWord c w = some i

/-- A decoded instruction exists on the hart, and of the twelve rows with an encoding no bit of the word is dropped
(R63, R64). -/
def Obligations.EncodeOfDecodeIsIdentity : Prop :=
  ∀ (c : HartConfig) (i : Instr) (w : IWord), decodeWord c w = some i →
    i.wf c = true ∧ (hybridUse c i = none → encode c i = some w)

/-- Words of spec/95_test_vectors.md decode to the instructions they are listed as (R63). -/
def Obligations.ListedWordsDecode : Prop :=
  decodeTableWord 32 0x341312f3 = some (.csrrw 5#5 0x341#12 6#5) ∧
  decodeTableWord 32 0x305023f3 = some (.csrrs 7#5 0x305#12 0#5) ∧
  decodeTableWord 32 0x341534f3 = some (.csrrc 9#5 0x341#12 10#5) ∧
  decodeTableWord 32 0x34145073 = some (.csrrwi 0#5 0x341#12 8#5) ∧
  decodeTableWord 32 0x3410f5f3 = some (.csrrci 11#5 0x341#12 1#5) ∧
  decodeTableWord 32 0x160512af = some (.lrH 5#5 10#5 true true) ∧
  decodeTableWord 32 0x1a75032f = some (.scB 6#5 10#5 7#5 false true) ∧
  decodeTableWord 32 0x207372b3 = some (.sh4add 5#5 6#5 7#5) ∧
  decodeTableWord 32 0x207372bb = some (.sh4addUw 5#5 6#5 7#5) ∧
  decodeTableWord 32 0x101502af = none ∧ decodeTableWord 32 0x100522af = none

/-! ### Steps -/

/-- With no interrupt to take and the word of an instruction at the pc, a step is that instruction's meaning (R15, R42,
R60, R64). The step adds nothing around exec. -/
def Obligations.StepRunsTheDecodedInstruction : Prop :=
  ∀ (s : State) (w : IWord) (i : Instr), pendingInterrupt s = none → Fetches s w → w &&& 3#32 = 3#32 →
    decodeWord s.cfg w = some i → step s = exec i s

/-- A pending and enabled machine timer interrupt that is not delegated, with none before it in the order, is taken
before the fetch, whatever stands at the pc: `mcause` has the interrupt bit and code 7, and in vectored mode the handler
is at BASE + 28 (R163, R165; routing and order are the family's, notes/assumptions/13.md). The vector offset of every
interrupt that is taken lies within `TVEC_MAX_OFFSET` (R164; that the hart has no other interrupts is
notes/assumptions/16.md). -/
def Obligations.TimerInterruptComesBeforeTheFetch : Prop :=
  (∀ s : State, bit s.csrs.mip 7 = true → bit s.csrs.mie 7 = true → 28 ≤ s.cfg.tvecMaxOffset →
    (∀ k, k = 11 ∨ k = 3 → bit s.csrs.mip k = false) → bit s.csrs.mideleg 7 = false →
    (s.priv ≠ .M ∨ bit s.csrs.mstatus mieBit = true) →
    ∃ t, step s = .next t ∧ t.priv = .M ∧ bit t.csrs.mcause (s.cfg.xlen.bits - 1) = true ∧
      t.csrs.mcause &&& 0xffff#64 = 7#64 ∧
      t.pcc.addr = (let v := (readVal s.cfg s.csrs .mtvecc).addr
        if v &&& 3#64 = 1#64 then s.cfg.xlen.trunc ((v &&& ~~~3#64) + 28#64) else v &&& ~~~3#64) ∧
      TrapFrame .interrupt s t) ∧
  ∀ (s : State) (level : TrapLevel) (code : Nat), pendingInterrupt s = some (level, code) →
    4 * code ≤ s.cfg.tvecMaxOffset ∧ step s = .next (takeInterrupt s level code)

/-- A fetch of a byte stored to since the last FENCE.I is refused, whichever of the bytes of the instruction it is: one of the
first parcel, or, where that says the instruction is 32 bits long, any of the four (R54). -/
def Obligations.FetchOfStoredBytesIsRefused : Prop :=
  ∀ (s : State) (k : Nat), pendingInterrupt s = none → s.pcc.addr.toNat + k ∈ s.unfenced →
    (k < 2 → FetchAuthorised s 2 → fetchAligned s = true → MainMemory s.cfg s.pcc.addr.toNat 2 →
      step s = .refused .unfencedFetch) ∧
    (k < 4 → FirstParcelIsWide s → FetchAuthorised s 4 → MainMemory s.cfg s.pcc.addr.toNat 4 →
      step s = .refused .unfencedFetch)

/-- A 16-bit parcel fetched in Capability Mode: where the configuration remaps it, the step is the instruction it is remapped
to, 2 bytes long (R143, R144, I14; that this holds of a row the hart lacks too is the model's choice,
notes/assumptions/38.md); every other parcel of which the configuration knows nothing, or to which a remapping that is not in
force belongs, is refused (R66). -/
def Obligations.CompressedIsRefusedInCapMode : Prop :=
  ∀ (s : State) (b0 b1 : Byte), pendingInterrupt s = none → mode s = .cap → FetchAuthorised s 2 →
    fetchAligned s = true → MainMemory s.cfg s.pcc.addr.toNat 2 → FetchFenced s 2 →
    readBytes s s.pcc.addr.toNat 2 = [b0, b1] → isWide (parcelOf b0 b1) = false →
    (∀ i, remapped s (parcelOf b0 b1) = some i → step s = finish 2 s (body i s)) ∧
    (remapped s (parcelOf b0 b1) = none →
      (isRemapped s.cfg (parcelOf b0 b1) = true ∨ knownWord s.cfg ((parcelOf b0 b1).setWidth 32) = none) →
      step s = .refused (.compressedInCapMode (parcelOf b0 b1)))

/-- The fetch exceptions in their order: the failed check of `pcc` where the hart has capabilities, then a misaligned pc
(code 0), then the access fault (1), the page fault (12) or the stop of the first byte that is not main memory; for the
first parcel, and again for all four bytes where it says so (R161). R163 orders only the check of `pcc` before the
exceptions of `BaseRV`; that alignment comes before memory and that two bytes are checked before four is the model's choice
(notes/assumptions/36.md), and so is that an access or page fault records the address of the first failing byte (23.md). No
concrete state is shown whose first parcel is authorised while its four bytes are not: bounds are open (4.md). -/
def Obligations.FetchExceptionsInOrder : Prop :=
  ∀ s : State, pendingInterrupt s = none →
    (s.cfg.hasBase = true → authorises s.cfg s.pcc s.pcc.addr 2 .fetch = false →
      step s = CheriFailure s s.pcc s.pcc.addr 2 .fetch) ∧
    (FetchAuthorised s 2 → fetchAligned s = false → step s = .next (takeException s 0 s.pcc.addr)) ∧
    (∀ k r, k < 2 → FetchAuthorised s 2 → fetchAligned s = true → FirstFails s.cfg s.pcc.addr.toNat k r →
      step s = MemoryFailure s .fetch (s.pcc.addr + BitVec.ofNat 64 k) r) ∧
    (s.cfg.hasBase = true → FirstParcelIsWide s → authorises s.cfg s.pcc s.pcc.addr 4 .fetch = false →
      step s = CheriFailure s s.pcc s.pcc.addr 4 .fetch) ∧
    (∀ k r, k < 4 → FirstParcelIsWide s → FetchAuthorised s 4 → FirstFails s.cfg s.pcc.addr.toNat k r →
      step s = MemoryFailure s .fetch (s.pcc.addr + BitVec.ofNat 64 k) r)

/-! ### Execution mode (spec/45_mode_behaviour.md) -/

/-- The mode function: the behaviour table on a hart with both extensions, where `pcc.m` is irrelevant with the effective
CRE 0, and the constant modes of the other harts (R140, R141). -/
def Obligations.ModeFollowsTheTable : Prop :=
  ∀ s : State,
    (s.cfg.cheri = .hybrid →
      (mode s = .off ↔ effCre s = false) ∧
      (mode s = .int ↔ effCre s = true ∧ mOf s.cfg s.pcc = s.cfg.intModeValue) ∧
      (mode s = .cap ↔ effCre s = true ∧ mOf s.cfg s.pcc = s.cfg.capModeValue) ∧
      ∀ v, effCre s = false → mode { s with pcc := v } = .off) ∧
    (s.cfg.cheri = .base → mode s = .cap) ∧ (s.cfg.cheri = .absent → mode s = .off)

/-! ### Zish4add (spec/41_zish4add.md) -/

/-- SH4ADD outside Capability Mode: `rd` gets `x[rs2] + (x[rs1] << 4)` modulo `2^XLEN` as `NullCap`, sources read first;
nothing else changes but the pc (R81). -/
def Obligations.Sh4addAddsTheShiftedIndex : Prop :=
  ∀ (s : State) (rd rs1 rs2 : RegNum), mode s ≠ .cap → pcAdvances s = true →
    ∃ t, exec (.sh4add rd rs1 rs2) s = .next t ∧
      OnlyRd rd (Cap.null (s.cfg.xlen.trunc (readX s rs2 + readX s rs1 <<< 4))) s t

/-- SH4ADD.UW outside Capability Mode, where XLEN = 64: bits 31 to 0 of `x[rs1]` zero-extended, shifted by 4 and added
(R82); it is refused where XLEN is 32. -/
def Obligations.Sh4addUwAddsTheZeroExtendedIndex : Prop :=
  ∀ (s : State) (rd rs1 rs2 : RegNum),
    (s.cfg.xlen = .rv64 → mode s ≠ .cap → pcAdvances s = true →
      ∃ t, exec (.sh4addUw rd rs1 rs2) s = .next t ∧
        OnlyRd rd (Cap.null (readX s rs2 + (readX s rs1 &&& 0xffffffff#64) <<< 4)) s t) ∧
    (s.cfg.xlen = .rv32 → exec (.sh4addUw rd rs1 rs2) s = .refused .sh4addUwNeedsXlen64)

/-- SH4ADD, on every XLEN, and SH4ADD.UW, where XLEN is 64, in Capability Mode do what `SH4ADD_CAP_MODE_SEMANTICS` says, and
are refused where it is not supplied (R81, R82, D26; the forms it can take are notes/assumptions/24.md). -/
def Obligations.Sh4addInCapModeFollowsTheParameter : Prop :=
  ∀ (s : State) (rd rs1 rs2 : RegNum) (i : Instr) (uw : Bool) (index : XWord),
    mode s = .cap → pcAdvances s = true →
    (i = .sh4add rd rs1 rs2 ∧ uw = false ∧ index = readX s rs1 ∨
      i = .sh4addUw rd rs1 rs2 ∧ s.cfg.xlen = .rv64 ∧ uw = true ∧ index = readX s rs1 &&& 0xffffffff#64) →
    (s.cfg.sh4addCap = none → exec i s = .refused .sh4addInCapMode) ∧
    (s.cfg.sh4addCap = some .illegal → exec i s = Illegal s) ∧
    (s.cfg.sh4addCap = some .integer →
      ∃ t, exec i s = .next t ∧ OnlyRd rd (Cap.null (s.cfg.xlen.trunc (readX s rs2 + index <<< 4))) s t) ∧
    (s.cfg.sh4addCap = some .capability →
      ∃ t, exec i s = .next t ∧
        OnlyRd rd ((Config.sh4addCapResult uw (readC s rs1) (readC s rs2)).trunc s.cfg.xlen) s t)

/-! ### Zabhlrsc (spec/40_zabhlrsc.md) -/

/-- LR.B where its access is authorised and to main memory: `rd` gets the sign-extended byte, a reservation that contains
it is held, nothing else changes but the pc (R72). -/
def Obligations.LoadReservedByteCompletes : Prop :=
  ∀ (s : State) (rd rs1 : RegNum) (aq rl : Bool), DataAuthorised s rs1 1 .load →
    MainMemory s.cfg (lrScAddrOf s rs1) 1 → pcAdvances s = true →
    ∃ t, exec (.lrB rd rs1 aq rl) s = .next t ∧
      LoadReservedDone (lrScAddrOf s rs1) 1 rd ((readByte s (lrScAddrOf s rs1)).signExtend 64) s t

/-- LR.H at an even address: the two bytes little-endian, sign-extended (R45, R73). -/
def Obligations.LoadReservedHalfCompletes : Prop :=
  ∀ (s : State) (rd rs1 : RegNum) (aq rl : Bool), DataAuthorised s rs1 2 .load →
    lrScAddrOf s rs1 % 2 = 0 → MainMemory s.cfg (lrScAddrOf s rs1) 2 → pcAdvances s = true →
    ∃ t, exec (.lrH rd rs1 aq rl) s = .next t ∧
      LoadReservedDone (lrScAddrOf s rs1) 2 rd
        ((readByte s (lrScAddrOf s rs1 + 1) ++ readByte s (lrScAddrOf s rs1)).signExtend 64) s t

/-- SC.B where its access is authorised and to main memory: stores and answers 0, or leaves memory and answers 1, for
every value of the success draw; the bytes outside the stored one read as before (R74). -/
def Obligations.StoreConditionalByteCompletes : Prop :=
  ∀ (s : State) (rd rs1 rs2 : RegNum) (aq rl : Bool), memoryWf s = true → DataAuthorised s rs1 1 .store →
    MainMemory s.cfg (lrScAddrOf s rs1) 1 → pcAdvances s = true →
    ∃ t, exec (.scB rd rs1 rs2 aq rl) s = .next t ∧ StoreConditionalDone (lrScAddrOf s rs1) 1 rd rs2 s t

/-- SC.H at an even address (R75). -/
def Obligations.StoreConditionalHalfCompletes : Prop :=
  ∀ (s : State) (rd rs1 rs2 : RegNum) (aq rl : Bool), memoryWf s = true → DataAuthorised s rs1 2 .store →
    lrScAddrOf s rs1 % 2 = 0 → MainMemory s.cfg (lrScAddrOf s rs1) 2 → pcAdvances s = true →
    ∃ t, exec (.scH rd rs1 rs2 aq rl) s = .next t ∧ StoreConditionalDone (lrScAddrOf s rs1) 2 rd rs2 s t

/-- In Capability Mode the four instructions are checked against `c[rs1]`, in the other modes of a hart with the hybrid
extension against `ddc`, before anything else; a failure raises `CAUSE_CHERI` or stops the model (R41, R42, R71, R161). -/
def Obligations.LrScFailsTheCheckOfItsAuthority : Prop :=
  ∀ (s : State) (rd rs1 rs2 : RegNum) (aq rl : Bool) (auth : Cap),
    (mode s = .cap ∧ auth = readC s rs1 ∨
      mode s ≠ .cap ∧ s.cfg.hasHybrid = true ∧ auth = readVal s.cfg s.csrs .ddc) →
    (authorises s.cfg auth (readX s rs1) 1 .load = false →
      exec (.lrB rd rs1 aq rl) s = CheriFailure s auth (readX s rs1) 1 .load) ∧
    (authorises s.cfg auth (readX s rs1) 2 .load = false →
      exec (.lrH rd rs1 aq rl) s = CheriFailure s auth (readX s rs1) 2 .load) ∧
    (authorises s.cfg auth (readX s rs1) 1 .store = false →
      exec (.scB rd rs1 rs2 aq rl) s = CheriFailure s auth (readX s rs1) 1 .store) ∧
    (authorises s.cfg auth (readX s rs1) 2 .store = false →
      exec (.scH rd rs1 rs2 aq rl) s = CheriFailure s auth (readX s rs1) 2 .store)

/-- LR.H and SC.H at an odd address raise address misaligned, code 4 and 6, recording the address (R46, R161). -/
def Obligations.MisalignedHalfRaises : Prop :=
  ∀ (s : State) (rd rs1 rs2 : RegNum) (aq rl : Bool), lrScAddrOf s rs1 % 2 = 1 →
    (DataAuthorised s rs1 2 .load → exec (.lrH rd rs1 aq rl) s = .next (takeException s 4 (readX s rs1))) ∧
    (DataAuthorised s rs1 2 .store → exec (.scH rd rs1 rs2 aq rl) s = .next (takeException s 6 (readX s rs1)))

/-- Where an authorised and aligned LR.B, LR.H, SC.B or SC.H meets a byte that is not main memory, the first such byte decides:
access fault 5 (load) or 7 (store), page fault 13 or 15, recording the byte's address, or the stop outside the admitted
memory (R47, R161; that the faulting address is the byte's, and that a store-conditional raises them also where it would not
store, is notes/assumptions/23.md and 19.md). -/
def Obligations.MemoryFaultsOfLrAndSc : Prop :=
  ∀ (s : State) (rd rs1 rs2 : RegNum) (aq rl : Bool) (k : Nat) (r : Option RegionKind),
    FirstFails s.cfg (lrScAddrOf s rs1) k r →
    (k = 0 → DataAuthorised s rs1 1 .load →
      exec (.lrB rd rs1 aq rl) s = MemoryFailure s .load (readX s rs1) r) ∧
    (k < 2 → DataAuthorised s rs1 2 .load → lrScAddrOf s rs1 % 2 = 0 →
      exec (.lrH rd rs1 aq rl) s = MemoryFailure s .load (readX s rs1 + BitVec.ofNat 64 k) r) ∧
    (k = 0 → DataAuthorised s rs1 1 .store →
      exec (.scB rd rs1 rs2 aq rl) s = MemoryFailure s .store (readX s rs1) r) ∧
    (k < 2 → DataAuthorised s rs1 2 .store → lrScAddrOf s rs1 % 2 = 0 →
      exec (.scH rd rs1 rs2 aq rl) s = MemoryFailure s .store (readX s rs1 + BitVec.ofNat 64 k) r)

/-- The instructions of Zabhlrsc and Zish4add are not controlled by the CRE bits: other words in `mseccfg`, `menvcfg` and
`senvcfg` change nothing of what they do, where the hart is in Capability Mode with both or with neither (R70, R80; what
Capability Mode changes is R41 and R81). -/
def Obligations.CreDoesNotControlLrScAndSh4add : Prop :=
  ∀ (s : State) (v : CreWords) (i : Instr), notCreControlled i = true →
    (mode (withCreWords v s) = .cap ↔ mode s = .cap) →
    exec i (withCreWords v s) = mapNext (withCreWords v) (exec i s)

/-! ### CSR instructions (spec/44_csr_access.md) -/

/-- CSRRW on an extended CSR moves CLEN bits in Capability Mode and XLEN bits in the other modes, in both directions
(R111, R116, R121); `rd = 0` discards the read. That every access that passes (a) to (d) of R110 completes is the model's
choice: R110 says that these may not be all (notes/assumptions/41.md). -/
def Obligations.CsrrwOnExtendedCsrFollowsTheMode : Prop :=
  ∀ (s : State) (rd rs1 : RegNum) (num : CsrNum) (id : CapCsr),
    CsrAccessible s num true (.cap id .extended) → pcAdvances s = true →
    ∃ t, exec (.csrrw rd num rs1) s = .next t ∧
      (mode s = .cap → OnlyRdAndCsrs rd (delivered s.cfg .clen (readVal s.cfg s.csrs id))
        (writeClen s.cfg s.csrs id (readC s rs1)) s t) ∧
      (mode s ≠ .cap → OnlyRdAndCsrs rd (delivered s.cfg .xlen (readVal s.cfg s.csrs id))
        (writeXlen s.cfg s.csrs id (readX s rs1)) s t)

/-- CSRRW on a new capability CSR moves CLEN bits in Integer and Capability Mode alike (R113). That every access that passes (a) to (d)
of R110 completes is the model's choice (notes/assumptions/41.md). -/
def Obligations.CsrrwOnNewCapCsrMovesClenBits : Prop :=
  ∀ (s : State) (rd rs1 : RegNum) (num : CsrNum) (id : CapCsr),
    CsrAccessible s num true (.cap id .newCap) → pcAdvances s = true →
    ∃ t, exec (.csrrw rd num rs1) s = .next t ∧
      OnlyRdAndCsrs rd (delivered s.cfg .clen (readVal s.cfg s.csrs id))
        (writeClen s.cfg s.csrs id (readC s rs1)) s t

/-- On a hart without the hybrid extension, CSRRW on an extended CSR always moves CLEN bits: an XLEN-bit write by CSRRW
needs that extension (R127). That every access that passes (a) to (d) of R110 completes is the model's choice
(notes/assumptions/41.md). -/
def Obligations.CsrrwOnBaseOnlyHartMovesClenBits : Prop :=
  ∀ (s : State) (rd rs1 : RegNum) (num : CsrNum) (id : CapCsr), s.cfg.hasHybrid = false →
    CsrAccessible s num true (.cap id .extended) → pcAdvances s = true →
    ∃ t, exec (.csrrw rd num rs1) s = .next t ∧
      OnlyRdAndCsrs rd (delivered s.cfg .clen (readVal s.cfg s.csrs id))
        (writeClen s.cfg s.csrs id (readC s rs1)) s t

/-- CSRRWI, CSRRS, CSRRC, CSRRSI and CSRRCI on an extended or a new capability CSR, where they write, write XLEN bits in
every mode that admits the access (R112, R114). That every access that passes (a) to (d) of R110 completes is the model's
choice (notes/assumptions/41.md), and so is that `x[rs1]` is read before `rd` is written where the two are one (44.md). -/
def Obligations.OtherFiveWriteXlenBitsInEveryMode : Prop :=
  ∀ (s : State) (i : Instr) (rd rs1 : RegNum) (uimm : BitVec 5) (num : CsrNum) (id : CapCsr) (cls : CapClass)
    (a : XWord), CsrAccessible s num true (.cap id cls) → pcAdvances s = true →
    let old := (readVal s.cfg s.csrs id).addr
    (i = .csrrwi rd num uimm ∧ a = uimm.setWidth 64 ∨
      i = .csrrs rd num rs1 ∧ rs1 ≠ 0#5 ∧ a = old ||| readX s rs1 ∨
      i = .csrrc rd num rs1 ∧ rs1 ≠ 0#5 ∧ a = old &&& ~~~readX s rs1 ∨
      i = .csrrsi rd num uimm ∧ uimm ≠ 0#5 ∧ a = old ||| uimm.setWidth 64 ∨
      i = .csrrci rd num uimm ∧ uimm ≠ 0#5 ∧ a = old &&& ~~~uimm.setWidth 64) →
    ∃ t, exec i s = .next t ∧ t.csrs = writeXlen s.cfg s.csrs id a

/-- CSRRS and CSRRC on a capability-wide CSR: the old value is delivered at the read width, and XLEN bits of the old
address with the bits of `x[rs1]` set or cleared are written in every mode, unless the register number is 0 (R112, R114,
R116, R122, R123). That every access that passes (a) to (d) of R110 completes is the model's choice
(notes/assumptions/41.md), and so is that `x[rs1]` is read before `rd` is written where the two are one (44.md). -/
def Obligations.CsrSetAndClearWriteXlenBits : Prop :=
  ∀ (s : State) (rd rs1 : RegNum) (num : CsrNum) (id : CapCsr) (cls : CapClass),
    CsrAccessible s num (rs1 != 0#5) (.cap id cls) → pcAdvances s = true →
    let old := readVal s.cfg s.csrs id
    (∃ t, exec (.csrrs rd num rs1) s = .next t ∧
      OnlyRdAndCsrs rd (delivered s.cfg (readWidth s.cfg (mode s) cls) old)
        (if rs1 = 0#5 then s.csrs else writeXlen s.cfg s.csrs id (old.addr ||| readX s rs1)) s t) ∧
    (∃ t, exec (.csrrc rd num rs1) s = .next t ∧
      OnlyRdAndCsrs rd (delivered s.cfg (readWidth s.cfg (mode s) cls) old)
        (if rs1 = 0#5 then s.csrs else writeXlen s.cfg s.csrs id (old.addr &&& ~~~readX s rs1)) s t)

/-- CSRRWI writes the zero-extended immediate as XLEN bits in every mode (R112, R114, R124). That every access that passes
(a) to (d) of R110 completes is the model's choice (notes/assumptions/41.md). -/
def Obligations.CsrrwiWritesXlenBits : Prop :=
  ∀ (s : State) (rd : RegNum) (num : CsrNum) (uimm : BitVec 5) (id : CapCsr) (cls : CapClass),
    CsrAccessible s num true (.cap id cls) → pcAdvances s = true →
    ∃ t, exec (.csrrwi rd num uimm) s = .next t ∧
      OnlyRdAndCsrs rd (delivered s.cfg (readWidth s.cfg (mode s) cls) (readVal s.cfg s.csrs id))
        (writeXlen s.cfg s.csrs id (uimm.setWidth 64)) s t

/-- CSRRSI and CSRRCI: as CSRRS and CSRRC with the immediate, and no write where it is 0 (R112, R114, R125, R126).
That every access that passes (a) to (d) of R110 completes is the model's choice (notes/assumptions/41.md). -/
def Obligations.CsrSetAndClearImmediateWriteXlenBits : Prop :=
  ∀ (s : State) (rd : RegNum) (num : CsrNum) (uimm : BitVec 5) (id : CapCsr) (cls : CapClass),
    CsrAccessible s num (uimm != 0#5) (.cap id cls) → pcAdvances s = true →
    let old := readVal s.cfg s.csrs id
    (∃ t, exec (.csrrsi rd num uimm) s = .next t ∧
      OnlyRdAndCsrs rd (delivered s.cfg (readWidth s.cfg (mode s) cls) old)
        (if uimm = 0#5 then s.csrs else writeXlen s.cfg s.csrs id (old.addr ||| uimm.setWidth 64)) s t) ∧
    (∃ t, exec (.csrrci rd num uimm) s = .next t ∧
      OnlyRdAndCsrs rd (delivered s.cfg (readWidth s.cfg (mode s) cls) old)
        (if uimm = 0#5 then s.csrs else writeXlen s.cfg s.csrs id (old.addr &&& ~~~uimm.setWidth 64)) s t)

/-- The six instructions on a CSR that is not capability-wide, which is a base CSR or, on a hart without the base extension, the
XLEN-wide predecessor of an extended one: the old word is delivered as an integer, and the new one is written where the
instruction writes (R22, R110, R121 to R126; the words and their fields are the family's, notes/assumptions/8.md to
12.md). That every access that passes (a) to (d) of R110 completes is the model's choice (notes/assumptions/41.md), and so is
that CSRRS and CSRRC read `x[rs1]` before `rd` is written where the two are one (44.md). -/
def Obligations.BaseCsrsAreXlenWide : Prop :=
  ∀ (s : State) (rd rs1 : RegNum) (uimm : BitVec 5) (num : CsrNum) (target : CsrTarget) (old : XWord)
    (written : XWord → CsrFile), pcAdvances s = true →
    ((∃ b, target = .base b ∧ old = readBase s.cfg s.csrs b ∧ written = writeBase s.cfg s.csrs b) ∨
      ∃ id, target = .narrow id ∧ old = (readVal s.cfg s.csrs id).addr ∧ written = writeNarrow s.cfg s.csrs id) →
    let done (i : Instr) (f : CsrFile) : Prop :=
      ∃ t, exec i s = .next t ∧ OnlyRdAndCsrs rd (delivered s.cfg .xlen (Cap.null old)) f s t
    (CsrAccessible s num true target →
      done (.csrrw rd num rs1) (written (readX s rs1)) ∧ done (.csrrwi rd num uimm) (written (uimm.setWidth 64))) ∧
    (CsrAccessible s num (rs1 != 0#5) target →
      done (.csrrs rd num rs1) (if rs1 = 0#5 then s.csrs else written (old ||| readX s rs1)) ∧
      done (.csrrc rd num rs1) (if rs1 = 0#5 then s.csrs else written (old &&& ~~~readX s rs1))) ∧
    (CsrAccessible s num (uimm != 0#5) target →
      done (.csrrsi rd num uimm) (if uimm = 0#5 then s.csrs else written (old ||| uimm.setWidth 64)) ∧
      done (.csrrci rd num uimm) (if uimm = 0#5 then s.csrs else written (old &&& ~~~uimm.setWidth 64)))

/-- A write to one base CSR leaves the capability-wide CSRs and the other words as they were; a cause or trap value register
takes the written word, and `mstatus` its MIE, MPIE and, where the hart has the mode it names, MPP (R110; the words and
fields are the family's, and that a cause or trap value register keeps any word is the model's choice,
notes/assumptions/10.md and 39.md). -/
def Obligations.BaseCsrWritesTouchOneWord : Prop :=
  ∀ (c : HartConfig) (f : CsrFile) (b other : BaseCsr) (id : CapCsr) (v : XWord),
    (writeBase c f b v).get id = f.get id ∧
    (other ≠ b → (statusView b = false ∨ statusView other = false) →
      readBase c (writeBase c f b v) other = readBase c f other) ∧
    (b = .mcause ∨ b = .mtval ∨ b = .scause ∨ b = .stval ∨ b = .vscause ∨ b = .vstval →
      readBase c (writeBase c f b v) b = c.xlen.trunc v) ∧
    bit (writeBase c f .mstatus v).mstatus mieBit = bit v mieBit ∧
    bit (writeBase c f .mstatus v).mstatus mpieBit = bit v mpieBit ∧
    (mppSupported c (mppOf v) = true → mppOf (writeBase c f .mstatus v).mstatus = mppOf v)

/-- A CSR instruction that lacks the privilege, writes a read-only CSR or names no CSR raises the illegal-instruction
exception, with nothing read or written (R110, R160; the rank of a privilege, 1 for VS-mode although R62 gives
`csr[9:8] = 2` to hypervisor and virtual supervisor, and that a virtual mode sees code 2, is PRESUMED,
notes/assumptions/37.md). -/
def Obligations.FailedCsrChecksAreIllegal : Prop :=
  ∀ (s : State) (i : Instr) (num : CsrNum) (writes : Bool), csrUse i = some (num, writes) →
    (csrPrivOk s num = false ∨ (writes = true ∧ csrReadOnly num = true) ∨
      csrTarget s.cfg s.priv num = .absent) →
    exec i s = Illegal s

/-- With the effective CRE 0, every access to a new capability CSR by any of the six instructions raises the
illegal-instruction exception (R115). -/
def Obligations.NewCapCsrIsIllegalInOffMode : Prop :=
  ∀ (s : State) (i : Instr) (num : CsrNum) (writes : Bool) (id : CapCsr), csrUse i = some (num, writes) →
    csrTarget s.cfg s.priv num = .cap id .newCap → mode s = .off → exec i s = Illegal s

/-- A number outside the sets the spec names is refused once the checks that do not depend on it pass (D6). -/
def Obligations.UnknownCsrIsRefused : Prop :=
  ∀ (s : State) (i : Instr) (num : CsrNum) (writes : Bool), csrUse i = some (num, writes) →
    csrPrivOk s num = true → (writes = true → csrReadOnly num = false) →
    csrTarget s.cfg s.priv num = .unknown → exec i s = .refused (.unknownCsr num)

/-- An XLEN-bit write keeps the metadata and never sets a clear tag; where the vector range check of an `Xtvecc` passes and the
legalized address is valid, the stored address is the written one after that legalization and the CSR's low-bit rule (R118;
the tag rule is general knowledge, notes/assumptions/15.md; which capability is checked and what a failed check leaves 16.md;
that `ddc` and a further configured CSR have no legalization of their own, so a valid address is stored there as written,
43.md). -/
def Obligations.XlenWriteKeepsMetadata : Prop :=
  ∀ (c : HartConfig) (f : CsrFile) (id : CapCsr) (a : XWord), c.wf = true →
    mapWf (Cap.null 0#64) f.extra = true →
    let old := heldVal c f id
    let new := heldVal c (writeXlen c f id a) id
    let b := c.xlen.trunc (alignFor c (misaC f) id (legalAddr c id old.addr a))
    new.md = c.xlen.trunc old.md ∧ (new.tag = true → old.tag = true) ∧
    (isTvecc id = false ∨ vectorInRange c { old with addr := c.xlen.trunc a } = true → validAddr c b = true → new.addr = b)

/-- A CLEN-bit write stores the operand's non-reserved metadata (R23, R117), in an `Xtvecc` where the vector range check of
the operand passes (R119). That it stores the operand's address, legalized, where that is valid, and never sets a tag is D7 and the model's
choice (notes/assumptions/15.md): R117 leaves the function open and forbids a reader to take it for the identity. What a
failed check leaves is notes/assumptions/16.md, and that `ddc` and a further configured CSR have no address legalization of
their own 43.md. -/
def Obligations.ClenWriteStoresMetadata : Prop :=
  ∀ (c : HartConfig) (f : CsrFile) (id : CapCsr) (v : Cap), c.wf = true →
    mapWf (Cap.null 0#64) f.extra = true → v.fits c.xlen = true →
    let old := heldVal c f id
    isTvecc id = false ∨ vectorInRange c v = true →
    let new := heldVal c (writeClen c f id v) id
    let b := c.xlen.trunc (alignFor c (misaC f) id (legalAddr c id old.addr v.addr))
    new.md &&& ~~~c.reservedMask = v.md &&& ~~~c.reservedMask ∧ (isFull c id = true → new.md = v.md) ∧
    (new.tag = true → v.tag = true) ∧ (validAddr c b = true → new.addr = b)

/-- A CSR outside `FullWidthCSRs` stores no reserved bit, and reads RESERVED_READ in their place (R23); the CSR here is no
`Xepcc`, whose read is legalized too. -/
def Obligations.ReservedBitsAreNotStored : Prop :=
  ∀ (c : HartConfig) (f : CsrFile) (id : CapCsr) (v : Cap) (misaC : Bool), isFull c id = false →
    (storeForm c misaC id v).md &&& c.reservedMask = 0#64 ∧
    (isEpcc id = false → (readVal c f id).md &&& c.reservedMask = c.reservedRead &&& c.reservedMask ∧
      (readVal c f id).md &&& ~~~c.reservedMask = (f.get id).md &&& ~~~c.reservedMask)

/-- A pointer CSR stores a valid address unchanged and an invalid one as an invalid address it can hold, never as a valid
one (R24, R25, R120); `b` is the address after the CSR's low-bit rule. -/
def Obligations.InvalidAddressesStayInvalid : Prop :=
  ∀ (c : HartConfig) (misaC : Bool) (id : CapCsr) (v : Cap), isPointer c id = true →
    let b := c.xlen.trunc (alignFor c misaC id v.addr)
    let stored := (storeForm c misaC id v).addr
    (validAddr c b = true → stored = b) ∧
    (validAddr c b = false → validAddr c stored = false ∧ Holdable c id stored) ∧
    (∀ x, validAddr c x = true → Holdable c id x) ∧ (c.xlen = .rv32 → ∀ x, Holdable c id x)

/-- The legalization of an `Xepcc` read: with `misa.C = 1` a value with bit 0 clear is unchanged, with `misa.C = 0` bits 1
and 0 of the address read as 0, and bit 0 always does; without a writable `misa.C` the read is the stored value. A trap
return reads so too, and leaves every stored value as it is (R26). That the address bits above bit 1 are as stored is the
model's choice: R26 leaves `LegalizeEpcc` open but for the first two (notes/assumptions/18.md). -/
def Obligations.EpccReadsAreLegalized : Prop :=
  (∀ (c : HartConfig) (v : Cap), bit v.addr 0 = false → legalizeEpcc c true v = v) ∧
  (∀ (c : HartConfig) (v : Cap), (legalizeEpcc c false v).addr &&& 3#64 = 0#64) ∧
  (∀ (c : HartConfig) (v : Cap) (b : Bool), bit (legalizeEpcc c b v).addr 0 = false) ∧
  (∀ (c : HartConfig) (v : Cap) (b : Bool), (legalizeEpcc c b v).addr >>> 2 = v.addr >>> 2) ∧
  (∀ (c : HartConfig) (f : CsrFile) (id : CapCsr), isEpcc id = true →
    readVal c f id = if c.misaCWritable then legalizeEpcc c (misaC f) (heldVal c f id) else heldVal c f id) ∧
  (∀ (s : State) (level : TrapLevel) (id : CapCsr),
    (trapReturn s level).pcc = readVal s.cfg s.csrs level.epcc ∧ (trapReturn s level).csrs.get id = s.csrs.get id)

/-- Every CSR of R148's list can hold the infinite capability: a CLEN-bit write of one reads back infinite, and an
XLEN-bit write leaves an infinite one infinite (R12, R148, which asks it in `Off` mode only; that the comparison leaves the M
bit out is notes/assumptions/3.md, that the tag survives the write 15.md and `StoreForm` 17.md, and that an `Xepcc` whose
address a read legalizes still reads infinite 18.md, since R26 leaves tag and metadata open there). -/
def Obligations.InfiniteCapabilitySurvivesWrites : Prop :=
  ∀ (c : HartConfig) (f : CsrFile) (id : CapCsr), c.wf = true → id ∈ namedCaps →
    (∀ v, v.fits c.xlen = true → isInfinite c v = true → isInfinite c (readVal c (writeClen c f id v) id) = true) ∧
    (∀ a, (f.get id).fits c.xlen = true → isInfinite c (heldVal c f id) = true →
      isInfinite c (readVal c (writeXlen c f id a) id) = true)

/-- A write to one capability-wide CSR leaves every other CSR as it was (R117, R118). -/
def Obligations.CapCsrWritesTouchOneCsr : Prop :=
  ∀ (c : HartConfig) (f : CsrFile) (id other : CapCsr) (b : BaseCsr) (v : Cap) (a : XWord),
    mapWf (Cap.null 0#64) f.extra = true → other ≠ id →
    (writeClen c f id v).get other = f.get other ∧ (writeXlen c f id a).get other = f.get other ∧
    readBase c (writeClen c f id v) b = readBase c f b ∧ readBase c (writeXlen c f id a) b = readBase c f b

/-- A CSRRW to `mseccfg` sets its CRE bit, which the next instruction's effective CRE reads (R18, R184; that both values
are legal is notes/assumptions/8.md, that the access completes 41.md). -/
def Obligations.CreWriteActsOnTheNextInstruction : Prop :=
  ∀ (s : State) (rd rs1 : RegNum), s.cfg.wf = true → s.cfg.hasHybrid = true → s.priv = .M → pcAdvances s = true →
    ∃ t, exec (.csrrw rd 0x747#12 rs1) s = .next t ∧ mseccfgCre t = bit (readX s rs1) s.cfg.creBitM ∧
      effCre t = (creRow s.cfg.effCre .M).getLsbD
        ((bit (readX s rs1) s.cfg.creBitM).toNat + 2 * (menvcfgCre s).toNat + 4 * (senvcfgCre s).toNat)

/-! ### The hybrid extension (spec/43_cheri_hybrid.md) -/

/-- MODESW_CAP: illegal in `Off` mode and in Integer Mode where its class excludes that mode; otherwise `pcc.m` becomes
CAP_MODE_VALUE, the pc advances, nothing else changes, and the next instruction is decoded in Capability Mode (R101). -/
def Obligations.ModeswCapSwitchesToCapMode : Prop :=
  ∀ s : State, s.cfg.hasHybrid = true → s.cfg.mBitPos < 64 →
    (mode s = .off → exec .modeswCap s = Illegal s) ∧
    (mode s = .int → s.cfg.modeswCapInInt = false → exec .modeswCap s = Illegal s) ∧
    (HybridLegal s s.cfg.modeswCapInInt → pcAdvances s = true →
      ∃ t, exec .modeswCap s = .next t ∧ SwitchedTo s.cfg.capModeValue s t ∧ mode t = .cap)

/-- MODESW_INT, mirrored (R102). -/
def Obligations.ModeswIntSwitchesToIntMode : Prop :=
  ∀ s : State, s.cfg.hasHybrid = true → s.cfg.mBitPos < 64 →
    (mode s = .off → exec .modeswInt s = Illegal s) ∧
    (mode s = .int → s.cfg.modeswIntInInt = false → exec .modeswInt s = Illegal s) ∧
    (HybridLegal s s.cfg.modeswIntInInt → pcAdvances s = true →
      ∃ t, exec .modeswInt s = .next t ∧ SwitchedTo s.cfg.intModeValue s t ∧ mode t = .int)

/-- SCMODE: illegal as the two above; otherwise `c[rd]` gets `ScmodeSem(c[rs1], x[rs2])`, and `pcc` keeps its tag and metadata
(R103). `ScmodeSem` is open: it is a free function here, so nothing is said of the M bit of the result
(notes/assumptions/26.md). -/
def Obligations.ScmodeWritesTheCapability : Prop :=
  ∀ (s : State) (rd rs1 rs2 : RegNum), s.cfg.hasHybrid = true →
    (mode s = .off → exec (.scmode rd rs1 rs2) s = Illegal s) ∧
    (mode s = .int → s.cfg.scmodeInInt = false → exec (.scmode rd rs1 rs2) s = Illegal s) ∧
    (HybridLegal s s.cfg.scmodeInInt → pcAdvances s = true →
      ∃ t, exec (.scmode rd rs1 rs2) s = .next t ∧
        OnlyRd rd ((Config.scmodeSem (readC s rs1) (readX s rs2)).trunc s.cfg.xlen) s t)

/-- The three instructions raise illegal instruction with the effective CRE 0 and where their class excludes Integer Mode;
without the hybrid extension they are refused (R104, R142, R144). A word without a row that the configuration knows and that
has no base meaning stated for the mode, or a parcel it knows and does not remap, is illegal alike: a CHERI instruction that is
present with the effective CRE 0, and any instruction in a mode its class excludes (R64, R91, R142, R144; which words are known
is the configuration's, and that this holds of a parcel in Capability Mode and of a jump or cache-block instruction that R33 or
R52 refuses is the model's choice, notes/assumptions/38.md). Nothing that is known makes illegal an environment, return, fence
or branch instruction in any mode, or a jump outside Capability Mode: it has its base meaning (R33, R148, R168); nor a word of a
row the hart lacks or of a reserved encoding inside a row: it has its base meaning or is refused (R64, R65, I19); nor a parcel of `RemapCompressed` outside Capability Mode: it keeps its standard meaning, which is not supplied (R143, R144; that
this comes before R142 in Off mode is the model's choice, notes/assumptions/38.md). -/
def Obligations.HybridInstructionsOutsideTheirModes : Prop :=
  (∀ (s : State) (i : Instr) (validInInt : Bool), hybridUse s.cfg i = some validInInt →
    (s.cfg.hasHybrid = true → mode s = .off → exec i s = Illegal s) ∧
    (s.cfg.hasHybrid = true → mode s = .int → validInInt = false → exec i s = Illegal s) ∧
    (s.cfg.hasHybrid = false → exec i s = .refused .noHybridExtension)) ∧
  (∀ (s : State) (e : DecodeError) (w : IWord) (k : KnownWord),
    ((e = .noRow w ∧ ∀ b, decodeBase w = some b → baseMeaningStated (mode s) b = false) ∨
      ∃ p, e = .compressed p ∧ w = p.setWidth 32 ∧ isRemapped s.cfg p = false) →
    knownWord s.cfg w = some k → isPresent s.cfg k = some true →
    (mode s = .off ∧ k.cheri.isSome = true ∨ mode s = .int ∧ k.cls = some .capOnly ∨
      mode s = .cap ∧ k.cls = some .intOnly) →
    withoutRow e s = Illegal s) ∧
  (∀ (s : State) (w : IWord) (b : BaseInstr), decodeBase w = some b → baseMeaningStated (mode s) b = true →
    withoutRow (.noRow w) s = settle s (baseStep b w s)) ∧
  (∀ (s : State) (w : IWord), isRowWord s.cfg w = true →
    (∀ b, decodeBase w = some b → withoutRow (.noRow w) s = settle s (baseStep b w s)) ∧
    (decodeBase w = none → withoutRow (.noRow w) s = .refused (.noMeaning w))) ∧
  ∀ (s : State) (p : BitVec 16), isRemapped s.cfg p = true → mode s ≠ .cap →
    withoutRow (.compressed p) s = .refused (.compressedBase p)

/-! ### Traps (spec/60_exceptions.md) -/

/-- Trap entry to machine level: what is saved and where it goes (R165; the places of the fields are the family's,
notes/assumptions/10.md). -/
def Obligations.MachineTrapEntrySavesAndVectors : Prop :=
  ∀ (s : State) (interrupt : Bool) (code : Nat) (tval : XWord),
    let t := trapEntry s .m interrupt code tval
    let vec := readVal s.cfg s.csrs .mtvecc
    t.csrs.mepcc = storeForm s.cfg (misaC s.csrs) .mepcc s.pcc ∧
    t.csrs.mcause = setBit (s.cfg.xlen.trunc (BitVec.ofNat 64 code)) (s.cfg.xlen.bits - 1) interrupt ∧
    t.csrs.mtval = s.cfg.xlen.trunc tval ∧
    bit t.csrs.mstatus mpieBit = bit s.csrs.mstatus mieBit ∧ bit t.csrs.mstatus mieBit = false ∧
    mppOf t.csrs.mstatus = privCode s.priv ∧ t.priv = .M ∧
    t.pcc.tag = vec.tag ∧ t.pcc.md = vec.md ∧
    (interrupt = false ∨ vec.addr &&& 3#64 ≠ 1#64 → t.pcc.addr = vec.addr &&& ~~~3#64) ∧
    (interrupt = true → vec.addr &&& 3#64 = 1#64 →
      t.pcc.addr = s.cfg.xlen.trunc ((vec.addr &&& ~~~3#64) + 4#64 * BitVec.ofNat 64 code)) ∧
    TrapFrame (if interrupt = true then .interrupt else .exception) s t

/-- Trap entry to supervisor and virtual supervisor level, each with its own registers: what is saved, SPP and the enables, the
privilege, and the whole of the vector capability with the handler's address, vectored for an interrupt in vectored mode
(R165, "`s` and `vs` alike"; the fields are the family's, notes/assumptions/10.md and 11.md). -/
def Obligations.SupervisorTrapEntrySavesAndVectors : Prop :=
  ∀ (s : State) (interrupt : Bool) (code : Nat) (tval : XWord),
    let cause := setBit (s.cfg.xlen.trunc (BitVec.ofNat 64 code)) (s.cfg.xlen.bits - 1) interrupt
    let goesTo (t : State) (vec : Cap) : Prop := t.pcc.tag = vec.tag ∧ t.pcc.md = vec.md ∧
      (interrupt = false ∨ vec.addr &&& 3#64 ≠ 1#64 → t.pcc.addr = vec.addr &&& ~~~3#64) ∧
      (interrupt = true → vec.addr &&& 3#64 = 1#64 →
        t.pcc.addr = s.cfg.xlen.trunc ((vec.addr &&& ~~~3#64) + 4#64 * BitVec.ofNat 64 code)) ∧
      TrapFrame (if interrupt = true then .interrupt else .exception) s t
    (let t := trapEntry s .s interrupt code tval
     t.csrs.sepcc = storeForm s.cfg (misaC s.csrs) .sepcc s.pcc ∧ t.csrs.scause = cause ∧
     t.csrs.stval = s.cfg.xlen.trunc tval ∧
     bit t.csrs.mstatus spieBit = bit s.csrs.mstatus sieBit ∧ bit t.csrs.mstatus sieBit = false ∧
     (bit t.csrs.mstatus sppBit = true ↔ s.priv = .S ∨ s.priv = .VS) ∧
     bit t.csrs.mstatus mieBit = bit s.csrs.mstatus mieBit ∧
     (s.cfg.hasH = true → bit t.csrs.hstatus spvBit = isVirtual s.priv) ∧ t.priv = .S ∧
     t.csrs.mepcc = s.csrs.mepcc ∧ goesTo t (readVal s.cfg s.csrs .stvecc)) ∧
    (let t := trapEntry s .vs interrupt code tval
     t.csrs.vsepcc = storeForm s.cfg (misaC s.csrs) .vsepcc s.pcc ∧ t.csrs.vscause = cause ∧
     t.csrs.vstval = s.cfg.xlen.trunc tval ∧
     bit t.csrs.vsstatus spieBit = bit s.csrs.vsstatus sieBit ∧ bit t.csrs.vsstatus sieBit = false ∧
     (bit t.csrs.vsstatus sppBit = true ↔ s.priv = .S ∨ s.priv = .VS) ∧
     t.csrs.mstatus = s.csrs.mstatus ∧ t.priv = .VS ∧
     t.csrs.sepcc = s.csrs.sepcc ∧ goesTo t (readVal s.cfg s.csrs .vstvecc))

/-- An exception is taken to machine level unless `medeleg` delegates it from a lower privilege; `hedeleg` passes it on to
virtual supervisor level from a virtual one (R167; the delegation rules are the family's, notes/assumptions/11.md). It is
stated for every code, CAUSE_CHERI among them: whether CHERI exceptions can be delegated R167 says is not in the source, and
that they are is the model's choice (33.md). -/
def Obligations.ExceptionsFollowDelegation : Prop :=
  ∀ (s : State) (code : Nat) (tval : XWord),
    let t := takeException s code tval
    (s.priv = .M → t.priv = .M) ∧ (bit s.csrs.medeleg code = false → t.priv = .M) ∧
    (s.priv = .U ∨ s.priv = .S → s.cfg.hasS = true → bit s.csrs.medeleg code = true → t.priv = .S) ∧
    (s.priv = .VS ∨ s.priv = .VU → s.cfg.hasS = true → bit s.csrs.medeleg code = true →
      t.priv = if bit s.csrs.hedeleg code = true then .VS else .S)

/-- A trap return restores the whole of the level's `Xepcc` as read, the saved privilege and the interrupt enable, and sets the
previous enable to 1 and the previous privilege to the least privileged mode (R166). From machine level these are MPP, MIE
and MPIE, and MPV says whether the privilege is a virtual one; from supervisor level SPP, SIE, SPIE and `hstatus.SPV`; from
virtual supervisor level the fields of `vsstatus`, and the privilege is a virtual one (the fields are the family's,
notes/assumptions/10.md and 11.md). -/
def Obligations.TrapReturnRestores : Prop :=
  ∀ s : State,
    (mppSupported s.cfg (mppOf s.csrs.mstatus) = true →
      let t := trapReturn s .m
      t.pcc = readVal s.cfg s.csrs .mepcc ∧ privCode t.priv = mppOf s.csrs.mstatus ∧
      (isVirtual t.priv = true ↔
        s.cfg.hasH = true ∧ bit s.csrs.mstatus mpvBit = true ∧ mppOf s.csrs.mstatus ≠ 3#2) ∧
      bit t.csrs.mstatus mieBit = bit s.csrs.mstatus mpieBit ∧ bit t.csrs.mstatus mpieBit = true ∧
      mppOf t.csrs.mstatus = (if s.cfg.hasU then 0#2 else 3#2) ∧ t.csrs.mepcc = s.csrs.mepcc ∧
      TrapFrame .trapReturn s t) ∧
    (let t := trapReturn s .s
     t.pcc = readVal s.cfg s.csrs .sepcc ∧
     privCode t.priv = (if bit s.csrs.mstatus sppBit = true then 1#2 else 0#2) ∧
     (isVirtual t.priv = true ↔ s.cfg.hasH = true ∧ bit s.csrs.hstatus spvBit = true) ∧
     bit t.csrs.mstatus sieBit = bit s.csrs.mstatus spieBit ∧ bit t.csrs.mstatus spieBit = true ∧
     bit t.csrs.mstatus sppBit = false ∧ (s.cfg.hasH = true → bit t.csrs.hstatus spvBit = false) ∧
     bit t.csrs.mstatus mieBit = bit s.csrs.mstatus mieBit ∧ mppOf t.csrs.mstatus = mppOf s.csrs.mstatus ∧
     t.csrs.sepcc = s.csrs.sepcc ∧ TrapFrame .trapReturn s t) ∧
    (let t := trapReturn s .vs
     t.pcc = readVal s.cfg s.csrs .vsepcc ∧ t.priv = (if bit s.csrs.vsstatus sppBit = true then .VS else .VU) ∧
     bit t.csrs.vsstatus sieBit = bit s.csrs.vsstatus spieBit ∧ bit t.csrs.vsstatus spieBit = true ∧
     bit t.csrs.vsstatus sppBit = false ∧ t.csrs.mstatus = s.csrs.mstatus ∧ t.csrs.vsepcc = s.csrs.vsepcc ∧
     TrapFrame .trapReturn s t)

/-- A return from machine level undoes an entry that was taken from a privilege the hart implements, as far as privilege
and MIE go, and goes back to the saved `pcc` as `mepcc` reads (R165, R166). -/
def Obligations.MachineReturnUndoesMachineEntry : Prop :=
  ∀ (s : State) (interrupt : Bool) (code : Nat) (tval : XWord), s.cfg.supports s.priv = true →
    let t := trapReturn (trapEntry s .m interrupt code tval) .m
    t.priv = s.priv ∧ bit t.csrs.mstatus mieBit = bit s.csrs.mstatus mieBit ∧
    t.pcc = readVal s.cfg { s.csrs with mepcc := storeForm s.cfg (misaC s.csrs) .mepcc s.pcc } .mepcc

/-- The infinite capability, at any address, authorises every access that does not wrap the address space (R12, R43). -/
def Obligations.InfiniteCapabilityAuthorises : Prop :=
  ∀ (c : HartConfig) (a b : XWord) (n : Nat) (kind : AccessKind), a.toNat + n ≤ 2 ^ c.xlen.bits →
    authorises c (infiniteCap c b) a n kind = true

/-! ### Base instructions the spec gives a rule for -/

/-- JAL links an integer and changes the address of `pcc` alone outside Capability Mode, where the target is not
misaligned and a link, if one is written, does not wrap; a misaligned target raises code 0, whatever the link; in Capability
Mode it is refused (R33; the target check of the base ISA is notes/assumptions/28.md, the order 30.md). -/
def Obligations.JalLinksAnInteger : Prop :=
  ∀ (s : State) (rd : RegNum) (off : XWord) (w : IWord),
    let target := s.cfg.xlen.trunc (s.pcc.addr + off)
    (mode s ≠ .cap → rd = 0#5 ∨ pcAdvances s = true → misaC s.csrs = true ∨ bit target 1 = false →
      ∃ t, settle s (baseStep (.jal rd off) w s) = .next t ∧ t.pcc = { s.pcc with addr := target } ∧
        RdGets rd (Cap.null (s.pcc.addr + 4#64)) t ∧ KeepsRegsBut rd s t ∧ t.csrs = s.csrs ∧ KeepsMemory s t) ∧
    (mode s ≠ .cap → misaC s.csrs = false → bit target 1 = true →
      settle s (baseStep (.jal rd off) w s) = .next (takeException s 0 target)) ∧
    (mode s = .cap → settle s (baseStep (.jal rd off) w s) = .refused (.capModeJump w))

/-- MRET returns from machine level in machine mode and is illegal below it; SRET returns from supervisor level in S, from
virtual supervisor level in VS, and is illegal in the user modes (R166, R168; notes/assumptions/28.md). -/
def Obligations.ReturnsNeedTheirPrivilege : Prop :=
  ∀ (s : State) (w : IWord),
    (s.priv = .M → settle s (baseStep .mret w s) = .next (trapReturn s .m)) ∧
    (s.priv ≠ .M → settle s (baseStep .mret w s) = Illegal s) ∧
    (s.cfg.hasS = true → s.priv = .S ∨ s.priv = .M → settle s (baseStep .sret w s) = .next (trapReturn s .s)) ∧
    (s.cfg.hasS = true → s.priv = .VS → settle s (baseStep .sret w s) = .next (trapReturn s .vs)) ∧
    (s.priv = .U ∨ s.priv = .VU → settle s (baseStep .sret w s) = Illegal s)

/-! ### The whole machine -/

/-- Every step keeps the invariant: memory in canonical form (R40), no stored reserved bit (R23), and the model's own:
XLEN-bit values in every register (notes/assumptions/1.md), a configuration the spec allows (5.md), a privilege the hart
implements (R167) and, as a WARL field that names a supported mode only, `mstatus.MPP` likewise (PRESUMED, 39.md). -/
def Obligations.StepKeepsTheInvariant : Prop := ∀ s t : State, Inv s → step s = .next t → Inv t

/-- The invariant and R148's proviso hold after reset, in machine mode with the effective CRE 0 and no reservation (values
recommended by R36; notes/assumptions/7.md). -/
def Obligations.ResetMeetsTheInvariant : Prop :=
  Inv State.reset ∧ standardProviso State.reset = true ∧ mode State.reset = .off ∧ State.reset.priv = .M ∧
    State.reset.reservation = none ∧ State.reset.cfg.encodingsWf = true

/-- With the effective CRE 0 no step takes the infinite capability out of the registers of R148's proviso: the values must
be in place before CRE is cleared (R148, R181; that InfiniteCap's M bit is free and that its tag survives XLEN-bit writes
and StoreForm are notes/assumptions/3.md and 15.md to 18.md). -/
def Obligations.OffModeKeepsTheStandardProviso : Prop :=
  ∀ s t : State, Inv s → s.cfg.hasHybrid = true → mode s = .off → standardProviso s = true → step s = .next t →
    standardProviso t = true

/-- No step changes the configuration: XLEN and the implemented extensions are fixed for a run (D4; the configuration is
the model's own, notes/assumptions/2.md). -/
def Obligations.StepKeepsTheConfiguration : Prop := ∀ s t : State, step s = .next t → t.cfg = s.cfg

/-- An instruction of the table changes the tag or metadata of `pcc` only by MODESW_CAP, MODESW_INT or a trap it raises
(R15). -/
def Obligations.OnlyModeswAndTrapsChangePccMetadata : Prop :=
  ∀ (i : Instr) (s t : State), exec i s = .next t →
    (t.pcc.tag = s.pcc.tag ∧ t.pcc.md = s.pcc.md) ∨ i = .modeswCap ∨ i = .modeswInt ∨
      ∃ code tval, t = takeException s code tval

/-- Memory changes only at the bytes an SC.B or SC.H addresses, and only where it completes holding a reservation that contains
them; no other instruction of the table stores, and a next state that is the entry of an exception leaves every byte as it
was (R47, R53, R74, R75, spec/00_scope.md section 6.3). -/
def Obligations.OnlyStoreConditionalsWriteMemory : Prop :=
  ∀ (i : Instr) (s t : State), memoryWf s = true → exec i s = .next t →
    ((∃ code tval, t = takeException s code tval) → ∀ a, readByte t a = readByte s a) ∧
    ∀ a, readByte t a = readByte s a ∨
      (∃ rd rs1 rs2 aq rl, i = .scB rd rs1 rs2 aq rl ∧ a = lrScAddrOf s rs1 ∧ reserved s (lrScAddrOf s rs1) 1 = true ∧
        AdvancedBy4 s t ∧ t.csrs = s.csrs) ∨
      (∃ rd rs1 rs2 aq rl, i = .scH rd rs1 rs2 aq rl ∧ lrScAddrOf s rs1 ≤ a ∧ a < lrScAddrOf s rs1 + 2 ∧
        reserved s (lrScAddrOf s rs1) 2 = true ∧ AdvancedBy4 s t ∧ t.csrs = s.csrs)

/-- Below machine mode no instruction of the table changes a machine-level CSR but by the trap it raises; of `mstatus` only the
bits that `sstatus` shows can change, so MIE, MPIE and MPP stay (R110; which bits `sstatus` shows is the family's,
notes/assumptions/10.md). -/
def Obligations.MachineCsrsAreOutOfReachBelowMachineMode : Prop :=
  ∀ (i : Instr) (s t : State), s.priv ≠ .M → exec i s = .next t →
    (∃ code tval, t = takeException s code tval) ∨
      (t.csrs.mtvecc = s.csrs.mtvecc ∧ t.csrs.mepcc = s.csrs.mepcc ∧ t.csrs.mseccfg = s.csrs.mseccfg ∧
        t.csrs.menvcfg = s.csrs.menvcfg ∧ t.csrs.misa = s.csrs.misa ∧ t.csrs.mcause = s.csrs.mcause ∧
        t.csrs.mtval = s.csrs.mtval ∧ t.csrs.mie = s.csrs.mie ∧ t.csrs.mip = s.csrs.mip ∧
        t.csrs.medeleg = s.csrs.medeleg ∧ t.csrs.mideleg = s.csrs.mideleg ∧
        t.csrs.mstatus &&& ~~~sstatusMask = s.csrs.mstatus &&& ~~~sstatusMask ∧
        bit t.csrs.mstatus mieBit = bit s.csrs.mstatus mieBit ∧
        bit t.csrs.mstatus mpieBit = bit s.csrs.mstatus mpieBit ∧ mppOf t.csrs.mstatus = mppOf s.csrs.mstatus)

/-- An instruction that would advance the pc past the top of the address space is refused: here SH4ADD, which raises
nothing (R15). -/
def Obligations.PcWrapIsRefused : Prop :=
  ∀ (s : State) (rd rs1 rs2 : RegNum), mode s ≠ .cap → pcAdvances s = false →
    exec (.sh4add rd rs1 rs2) s = .refused .pcWraps
end

