-- ==== Sys2Proof/Laws/Compressed.lean ====
section
/-! SUPPORT. What the lookup of known words and of remapped parcels can do. -/

namespace Sys2Proof.Machine

/-- Of a word of a row nothing is known, whether or not the hart has the row. -/
theorem knownWord_of_isRowWord {c : HartConfig} {w : IWord} (h : isRowWord c w = true) : knownWord c w = none := by
  simp [knownWord, h]

/-- A known word is none of a row, its pattern selects it, and it is not known to be absent. -/
theorem knownWord_some {c : HartConfig} {w : IWord} {k : KnownWord} (h : knownWord c w = some k) :
    isRowWord c w = false ∧ k ∈ c.knownWords ∧ k.enc.hits w = true ∧ isPresent c k ≠ some false := by
  unfold knownWord at h
  split at h
  · cases h
  · rename_i hr
    have := List.find?_some h
    simp only [Bool.and_eq_true, bne_iff_ne] at this
    exact ⟨by simpa using hr, List.mem_of_find?_eq_some h, this.1, this.2⟩

/-- Outcome 2 of R64 lets a word of which nothing is known pass. -/
theorem knownGate_of_none {s : State} {w : IWord} (h : knownWord s.cfg w = none) : knownGate w s = .ok () := by
  simp [knownGate, h]

theorem knownGate_of_some {s : State} {w : IWord} {k : KnownWord} (h : knownWord s.cfg w = some k) :
    knownGate w s = knownCheck k w s := by
  simp [knownGate, h]

/-- A parcel that is remapped now is one of `RemapCompressed`. -/
theorem isRemapped_of_remapped {s : State} {p : BitVec 16} {i : Instr} (h : remapped s p = some i) :
    isRemapped s.cfg p = true := by
  unfold remapped at h
  split at h
  · obtain ⟨e, he, -⟩ := Option.map_eq_some_iff.1 h
    exact List.any_eq_true.2 ⟨e, List.mem_of_find?_eq_some he, List.find?_some (p := fun r : BitVec 16 × Instr => r.1 == p) he⟩
  · cases h

end Sys2Proof.Machine
end

