-- ==== Sys2Proof/Laws/Memory.lean ====
section
/-! SUPPORT. What the sparse maps and sets do: reading back, frames, and that every operation keeps the canonical form. -/

namespace Sys2Proof.Laws

open Sys2Proof.Machine

section Maps

variable {α : Type} [DecidableEq α] {d : α}

theorem mapWf_cons {k : Nat} {v : α} {rest : List (Nat × α)} :
    mapWf d ((k, v) :: rest) = true ↔ v ≠ d ∧ (∀ e ∈ rest, k < e.1) ∧ mapWf d rest = true := by
  simp [mapWf, and_assoc]

omit [DecidableEq α] in
/-- Below its first key a map reads as its default. -/
theorem lookup_below {l : List (Nat × α)} {a : Nat} (h : ∀ e ∈ l, a < e.1) : lookup d l a = d := by
  cases l with
  | nil => rfl
  | cons e rest => simp [lookup, h e (by simp)]

theorem lookup_update_same {l : List (Nat × α)} (wf : mapWf d l = true) (a : Nat) (v : α) :
    lookup d (update d l a v) a = v := by
  induction l with
  | nil => by_cases h : v = d <;> simp [update, lookup, h]
  | cons e rest ih =>
    obtain ⟨k, w⟩ := e
    obtain ⟨_, above, wfRest⟩ := mapWf_cons.mp wf
    by_cases hlt : a < k
    · by_cases h : v = d <;> simp [update, lookup, h, hlt]
    · by_cases heq : a = k
      · subst heq
        by_cases h : v = d
        · simp [update, h, lookup_below above]
        · simp [update, lookup, h]
      · simpa [update, lookup, hlt, heq] using ih wfRest

theorem lookup_update_other {l : List (Nat × α)} (wf : mapWf d l = true) {a b : Nat} (ne : b ≠ a) (v : α) :
    lookup d (update d l a v) b = lookup d l b := by
  induction l with
  | nil =>
    by_cases h : v = d
    · simp [update, h]
    · by_cases hb : b < a <;> simp [update, lookup, h, hb, ne]
  | cons e rest ih =>
    obtain ⟨k, w⟩ := e
    obtain ⟨_, above, wfRest⟩ := mapWf_cons.mp wf
    by_cases hlt : a < k
    · by_cases h : v = d
      · simp [update, h, hlt]
      · by_cases hb : b < a
        · simp [update, lookup, h, hlt, hb, Nat.lt_trans hb hlt]
        · simp [update, lookup, h, hlt, hb, ne]
    · by_cases heq : a = k
      · subst heq
        by_cases h : v = d
        · by_cases hb : b < a
          · simp [update, h, lookup, hb, lookup_below fun e he => Nat.lt_trans hb (above e he)]
          · simp [update, h, lookup, hb, ne]
        · simp [update, lookup, h, ne]
      · simp only [update, hlt, heq, if_false, lookup]
        split
        · rfl
        · split
          · rfl
          · exact ih wfRest

/-- Every key of an updated map is the written one or an old one. -/
theorem key_of_mem_update {l : List (Nat × α)} {a : Nat} {v : α} {e : Nat × α} (h : e ∈ update d l a v) :
    e = (a, v) ∨ e ∈ l := by
  induction l with
  | nil =>
    by_cases hv : v = d
    · simp [update, hv] at h
    · simpa [update, hv] using h
  | cons f rest ih =>
    obtain ⟨k, w⟩ := f
    simp only [update] at h
    split at h
    · split at h <;> simp_all
    · split at h
      · split at h <;> simp_all
        tauto
      · rcases List.mem_cons.mp h with rfl | h
        · simp
        · rcases ih h with h | h <;> simp [h]

theorem mapWf_update {l : List (Nat × α)} (wf : mapWf d l = true) (a : Nat) (v : α) :
    mapWf d (update d l a v) = true := by
  induction l with
  | nil => by_cases h : v = d <;> simp [update, mapWf, h]
  | cons e rest ih =>
    obtain ⟨k, w⟩ := e
    obtain ⟨hw, above, wfRest⟩ := mapWf_cons.mp wf
    simp only [update]
    split
    · rename_i hlt
      split
      · exact wf
      · rename_i hv
        exact mapWf_cons.mpr ⟨hv, by
          intro e he
          rcases List.mem_cons.mp he with rfl | he
          · exact hlt
          · exact Nat.lt_trans hlt (above e he), wf⟩
    · rename_i hlt
      split
      · rename_i heq
        subst heq
        split
        · exact wfRest
        · rename_i hv
          exact mapWf_cons.mpr ⟨hv, above, wfRest⟩
      · rename_i hne
        refine mapWf_cons.mpr ⟨hw, fun e he => ?_, ih wfRest⟩
        rcases key_of_mem_update he with rfl | he
        · show k < a
          omega
        · exact above e he

end Maps

section Sets

theorem setWf_cons {k : Nat} {rest : List Nat} :
    setWf (k :: rest) = true ↔ (∀ e ∈ rest, k < e) ∧ setWf rest = true := by
  simp [setWf]

theorem mem_insertKey {l : List Nat} {a b : Nat} : b ∈ insertKey l a ↔ b = a ∨ b ∈ l := by
  induction l with
  | nil => simp [insertKey]
  | cons k rest ih =>
    simp only [insertKey]
    split
    · simp
    · split
      · rename_i h
        simp [h]
      · simp only [List.mem_cons, ih]
        tauto

theorem setWf_insertKey {l : List Nat} (wf : setWf l = true) (a : Nat) : setWf (insertKey l a) = true := by
  induction l with
  | nil => rfl
  | cons k rest ih =>
    obtain ⟨above, wfRest⟩ := setWf_cons.mp wf
    simp only [insertKey]
    split
    · rename_i hlt
      exact setWf_cons.mpr ⟨by
        intro e he
        rcases List.mem_cons.mp he with rfl | he
        · exact hlt
        · exact Nat.lt_trans hlt (above e he), wf⟩
    · split
      · exact wf
      · refine setWf_cons.mpr ⟨fun e he => ?_, ih wfRest⟩
        rcases mem_insertKey.mp he with rfl | he
        · omega
        · exact above e he

theorem mem_removeKey {l : List Nat} {a b : Nat} : b ∈ removeKey l a ↔ b ∈ l ∧ b ≠ a := by
  simp [removeKey]

theorem setWf_removeKey {l : List Nat} (wf : setWf l = true) (a : Nat) : setWf (removeKey l a) = true := by
  induction l with
  | nil => rfl
  | cons k rest ih =>
    obtain ⟨above, wfRest⟩ := setWf_cons.mp wf
    have ih := ih wfRest
    simp only [removeKey, List.filter] at ih ⊢
    split
    · exact setWf_cons.mpr ⟨fun e he => above e (List.mem_filter.mp he).1, ih⟩
    · exact ih

end Sets

end Sys2Proof.Laws
end

