-- ==== Sys2Proof/Laws/State.lean ====
section
/-! SUPPORT. What each named update leaves of each field of the state, and what it writes: the small lemmas proofs cite
instead of unfolding a record update. -/

namespace Sys2Proof.Laws

open Sys2Proof.Machine

variable (s : State)

/-! ### writeC -/

@[simp] theorem writeC_cfg (r : RegNum) (v : Cap) : (writeC s r v).cfg = s.cfg := by unfold writeC; split <;> rfl
@[simp] theorem writeC_pcc (r : RegNum) (v : Cap) : (writeC s r v).pcc = s.pcc := by unfold writeC; split <;> rfl
@[simp] theorem writeC_csrs (r : RegNum) (v : Cap) : (writeC s r v).csrs = s.csrs := by unfold writeC; split <;> rfl
@[simp] theorem writeC_priv (r : RegNum) (v : Cap) : (writeC s r v).priv = s.priv := by unfold writeC; split <;> rfl
@[simp] theorem writeC_mem (r : RegNum) (v : Cap) : (writeC s r v).mem = s.mem := by unfold writeC; split <;> rfl
@[simp] theorem writeC_memTags (r : RegNum) (v : Cap) : (writeC s r v).memTags = s.memTags := by unfold writeC; split <;> rfl
@[simp] theorem writeC_reservation (r : RegNum) (v : Cap) : (writeC s r v).reservation = s.reservation := by unfold writeC; split <;> rfl
@[simp] theorem writeC_unfenced (r : RegNum) (v : Cap) : (writeC s r v).unfenced = s.unfenced := by unfold writeC; split <;> rfl
@[simp] theorem writeC_draws (r : RegNum) (v : Cap) : (writeC s r v).draws = s.draws := by unfold writeC; split <;> rfl

/-! ### writeX -/

@[simp] theorem writeX_cfg (r : RegNum) (v : XWord) : (writeX s r v).cfg = s.cfg := by simp [writeX]
@[simp] theorem writeX_pcc (r : RegNum) (v : XWord) : (writeX s r v).pcc = s.pcc := by simp [writeX]
@[simp] theorem writeX_csrs (r : RegNum) (v : XWord) : (writeX s r v).csrs = s.csrs := by simp [writeX]
@[simp] theorem writeX_priv (r : RegNum) (v : XWord) : (writeX s r v).priv = s.priv := by simp [writeX]
@[simp] theorem writeX_mem (r : RegNum) (v : XWord) : (writeX s r v).mem = s.mem := by simp [writeX]
@[simp] theorem writeX_memTags (r : RegNum) (v : XWord) : (writeX s r v).memTags = s.memTags := by simp [writeX]
@[simp] theorem writeX_reservation (r : RegNum) (v : XWord) : (writeX s r v).reservation = s.reservation := by simp [writeX]
@[simp] theorem writeX_unfenced (r : RegNum) (v : XWord) : (writeX s r v).unfenced = s.unfenced := by simp [writeX]
@[simp] theorem writeX_draws (r : RegNum) (v : XWord) : (writeX s r v).draws = s.draws := by simp [writeX]

/-! ### setPc -/

@[simp] theorem setPc_cfg (a : XWord) : (setPc s a).cfg = s.cfg := rfl
@[simp] theorem setPc_regs (a : XWord) : (setPc s a).regs = s.regs := rfl
@[simp] theorem setPc_csrs (a : XWord) : (setPc s a).csrs = s.csrs := rfl
@[simp] theorem setPc_priv (a : XWord) : (setPc s a).priv = s.priv := rfl
@[simp] theorem setPc_mem (a : XWord) : (setPc s a).mem = s.mem := rfl
@[simp] theorem setPc_memTags (a : XWord) : (setPc s a).memTags = s.memTags := rfl
@[simp] theorem setPc_reservation (a : XWord) : (setPc s a).reservation = s.reservation := rfl
@[simp] theorem setPc_unfenced (a : XWord) : (setPc s a).unfenced = s.unfenced := rfl
@[simp] theorem setPc_draws (a : XWord) : (setPc s a).draws = s.draws := rfl

/-! ### setMode -/

@[simp] theorem setMode_cfg (m : Bool) : (setMode s m).cfg = s.cfg := rfl
@[simp] theorem setMode_regs (m : Bool) : (setMode s m).regs = s.regs := rfl
@[simp] theorem setMode_csrs (m : Bool) : (setMode s m).csrs = s.csrs := rfl
@[simp] theorem setMode_priv (m : Bool) : (setMode s m).priv = s.priv := rfl
@[simp] theorem setMode_mem (m : Bool) : (setMode s m).mem = s.mem := rfl
@[simp] theorem setMode_memTags (m : Bool) : (setMode s m).memTags = s.memTags := rfl
@[simp] theorem setMode_reservation (m : Bool) : (setMode s m).reservation = s.reservation := rfl
@[simp] theorem setMode_unfenced (m : Bool) : (setMode s m).unfenced = s.unfenced := rfl
@[simp] theorem setMode_draws (m : Bool) : (setMode s m).draws = s.draws := rfl

/-! ### storeByte -/

@[simp] theorem storeByte_cfg (a : Nat) (b : Byte) : (storeByte s a b).cfg = s.cfg := rfl
@[simp] theorem storeByte_regs (a : Nat) (b : Byte) : (storeByte s a b).regs = s.regs := rfl
@[simp] theorem storeByte_pcc (a : Nat) (b : Byte) : (storeByte s a b).pcc = s.pcc := rfl
@[simp] theorem storeByte_csrs (a : Nat) (b : Byte) : (storeByte s a b).csrs = s.csrs := rfl
@[simp] theorem storeByte_priv (a : Nat) (b : Byte) : (storeByte s a b).priv = s.priv := rfl
@[simp] theorem storeByte_reservation (a : Nat) (b : Byte) : (storeByte s a b).reservation = s.reservation := rfl
@[simp] theorem storeByte_draws (a : Nat) (b : Byte) : (storeByte s a b).draws = s.draws := rfl

/-! ### csrWriteX -/

@[simp] theorem csrWriteX_cfg (t : CsrTarget) (a : XWord) : (csrWriteX s t a).cfg = s.cfg := by cases t <;> rfl
@[simp] theorem csrWriteX_regs (t : CsrTarget) (a : XWord) : (csrWriteX s t a).regs = s.regs := by cases t <;> rfl
@[simp] theorem csrWriteX_pcc (t : CsrTarget) (a : XWord) : (csrWriteX s t a).pcc = s.pcc := by cases t <;> rfl
@[simp] theorem csrWriteX_priv (t : CsrTarget) (a : XWord) : (csrWriteX s t a).priv = s.priv := by cases t <;> rfl
@[simp] theorem csrWriteX_mem (t : CsrTarget) (a : XWord) : (csrWriteX s t a).mem = s.mem := by cases t <;> rfl
@[simp] theorem csrWriteX_memTags (t : CsrTarget) (a : XWord) : (csrWriteX s t a).memTags = s.memTags := by cases t <;> rfl
@[simp] theorem csrWriteX_reservation (t : CsrTarget) (a : XWord) : (csrWriteX s t a).reservation = s.reservation := by cases t <;> rfl
@[simp] theorem csrWriteX_unfenced (t : CsrTarget) (a : XWord) : (csrWriteX s t a).unfenced = s.unfenced := by cases t <;> rfl
@[simp] theorem csrWriteX_draws (t : CsrTarget) (a : XWord) : (csrWriteX s t a).draws = s.draws := by cases t <;> rfl

/-! ### csrWriteC -/

@[simp] theorem csrWriteC_cfg (t : CsrTarget) (v : Cap) : (csrWriteC s t v).cfg = s.cfg := by cases t <;> simp [csrWriteC]
@[simp] theorem csrWriteC_regs (t : CsrTarget) (v : Cap) : (csrWriteC s t v).regs = s.regs := by cases t <;> simp [csrWriteC]
@[simp] theorem csrWriteC_pcc (t : CsrTarget) (v : Cap) : (csrWriteC s t v).pcc = s.pcc := by cases t <;> simp [csrWriteC]
@[simp] theorem csrWriteC_priv (t : CsrTarget) (v : Cap) : (csrWriteC s t v).priv = s.priv := by cases t <;> simp [csrWriteC]
@[simp] theorem csrWriteC_mem (t : CsrTarget) (v : Cap) : (csrWriteC s t v).mem = s.mem := by cases t <;> simp [csrWriteC]
@[simp] theorem csrWriteC_memTags (t : CsrTarget) (v : Cap) : (csrWriteC s t v).memTags = s.memTags := by cases t <;> simp [csrWriteC]
@[simp] theorem csrWriteC_reservation (t : CsrTarget) (v : Cap) : (csrWriteC s t v).reservation = s.reservation := by cases t <;> simp [csrWriteC]
@[simp] theorem csrWriteC_unfenced (t : CsrTarget) (v : Cap) : (csrWriteC s t v).unfenced = s.unfenced := by cases t <;> simp [csrWriteC]
@[simp] theorem csrWriteC_draws (t : CsrTarget) (v : Cap) : (csrWriteC s t v).draws = s.draws := by cases t <;> simp [csrWriteC]

/-! ### deliver -/

@[simp] theorem deliver_cfg (r : RegNum) (w : Width) (v : Cap) : (deliver s r w v).cfg = s.cfg := by cases w <;> simp [deliver]
@[simp] theorem deliver_pcc (r : RegNum) (w : Width) (v : Cap) : (deliver s r w v).pcc = s.pcc := by cases w <;> simp [deliver]
@[simp] theorem deliver_csrs (r : RegNum) (w : Width) (v : Cap) : (deliver s r w v).csrs = s.csrs := by cases w <;> simp [deliver]
@[simp] theorem deliver_priv (r : RegNum) (w : Width) (v : Cap) : (deliver s r w v).priv = s.priv := by cases w <;> simp [deliver]
@[simp] theorem deliver_mem (r : RegNum) (w : Width) (v : Cap) : (deliver s r w v).mem = s.mem := by cases w <;> simp [deliver]
@[simp] theorem deliver_memTags (r : RegNum) (w : Width) (v : Cap) : (deliver s r w v).memTags = s.memTags := by cases w <;> simp [deliver]
@[simp] theorem deliver_reservation (r : RegNum) (w : Width) (v : Cap) : (deliver s r w v).reservation = s.reservation := by cases w <;> simp [deliver]
@[simp] theorem deliver_unfenced (r : RegNum) (w : Width) (v : Cap) : (deliver s r w v).unfenced = s.unfenced := by cases w <;> simp [deliver]
@[simp] theorem deliver_draws (r : RegNum) (w : Width) (v : Cap) : (deliver s r w v).draws = s.draws := by cases w <;> simp [deliver]

/-! ### passEvent -/

@[simp] theorem passEvent_cfg (e : ReservationEvent) : (passEvent e s).cfg = s.cfg := rfl
@[simp] theorem passEvent_regs (e : ReservationEvent) : (passEvent e s).regs = s.regs := rfl
@[simp] theorem passEvent_pcc (e : ReservationEvent) : (passEvent e s).pcc = s.pcc := rfl
@[simp] theorem passEvent_csrs (e : ReservationEvent) : (passEvent e s).csrs = s.csrs := rfl
@[simp] theorem passEvent_priv (e : ReservationEvent) : (passEvent e s).priv = s.priv := rfl
@[simp] theorem passEvent_mem (e : ReservationEvent) : (passEvent e s).mem = s.mem := rfl
@[simp] theorem passEvent_memTags (e : ReservationEvent) : (passEvent e s).memTags = s.memTags := rfl
@[simp] theorem passEvent_unfenced (e : ReservationEvent) : (passEvent e s).unfenced = s.unfenced := rfl
@[simp] theorem passEvent_draws (e : ReservationEvent) : (passEvent e s).draws = s.draws := rfl
@[simp] theorem passEvent_reservation (e : ReservationEvent) :
    (passEvent e s).reservation = afterEvent s.cfg e s.reservation := rfl

/-- An event clears the reservation or leaves it (R35). -/
theorem afterEvent_cases (c : HartConfig) (e : ReservationEvent) (r : Option Reservation) :
    afterEvent c e r = none ∨ afterEvent c e r = r := by
  unfold afterEvent
  split <;> simp

/-! ### trapEntry -/

@[simp] theorem trapEntry_cfg (l : TrapLevel) (i : Bool) (c : Nat) (v : XWord) : (trapEntry s l i c v).cfg = s.cfg := rfl
@[simp] theorem trapEntry_regs (l : TrapLevel) (i : Bool) (c : Nat) (v : XWord) : (trapEntry s l i c v).regs = s.regs := rfl
@[simp] theorem trapEntry_mem (l : TrapLevel) (i : Bool) (c : Nat) (v : XWord) : (trapEntry s l i c v).mem = s.mem := rfl
@[simp] theorem trapEntry_memTags (l : TrapLevel) (i : Bool) (c : Nat) (v : XWord) : (trapEntry s l i c v).memTags = s.memTags := rfl
@[simp] theorem trapEntry_reservation (l : TrapLevel) (i : Bool) (c : Nat) (v : XWord) :
    (trapEntry s l i c v).reservation = afterEvent s.cfg (trapEvent i) s.reservation := rfl
@[simp] theorem trapEntry_priv (l : TrapLevel) (i : Bool) (c : Nat) (v : XWord) : (trapEntry s l i c v).priv = l.priv := rfl
@[simp] theorem trapEntry_unfenced (l : TrapLevel) (i : Bool) (c : Nat) (v : XWord) : (trapEntry s l i c v).unfenced = s.unfenced := rfl
@[simp] theorem trapEntry_draws (l : TrapLevel) (i : Bool) (c : Nat) (v : XWord) : (trapEntry s l i c v).draws = s.draws := rfl

/-! ### takeException -/

@[simp] theorem takeException_cfg (c : Nat) (v : XWord) : (takeException s c v).cfg = s.cfg := rfl
@[simp] theorem takeException_regs (c : Nat) (v : XWord) : (takeException s c v).regs = s.regs := rfl
@[simp] theorem takeException_mem (c : Nat) (v : XWord) : (takeException s c v).mem = s.mem := rfl
@[simp] theorem takeException_memTags (c : Nat) (v : XWord) : (takeException s c v).memTags = s.memTags := rfl
@[simp] theorem takeException_reservation (c : Nat) (v : XWord) : (takeException s c v).reservation = afterEvent s.cfg .exception s.reservation := rfl
@[simp] theorem takeException_unfenced (c : Nat) (v : XWord) : (takeException s c v).unfenced = s.unfenced := rfl
@[simp] theorem takeException_draws (c : Nat) (v : XWord) : (takeException s c v).draws = s.draws := rfl

/-! ### trapReturn -/

@[simp] theorem trapReturn_cfg (l : TrapLevel) : (trapReturn s l).cfg = s.cfg := rfl
@[simp] theorem trapReturn_regs (l : TrapLevel) : (trapReturn s l).regs = s.regs := rfl
@[simp] theorem trapReturn_mem (l : TrapLevel) : (trapReturn s l).mem = s.mem := rfl
@[simp] theorem trapReturn_memTags (l : TrapLevel) : (trapReturn s l).memTags = s.memTags := rfl
@[simp] theorem trapReturn_reservation (l : TrapLevel) : (trapReturn s l).reservation = afterEvent s.cfg .trapReturn s.reservation := rfl
@[simp] theorem trapReturn_unfenced (l : TrapLevel) : (trapReturn s l).unfenced = s.unfenced := rfl
@[simp] theorem trapReturn_draws (l : TrapLevel) : (trapReturn s l).draws = s.draws := rfl

/-! ### Several bytes -/

theorem storeBytes_keeps (bs : List Byte) : ∀ (s : State) (a : Nat),
    (storeBytes s a bs).cfg = s.cfg ∧ (storeBytes s a bs).regs = s.regs ∧ (storeBytes s a bs).pcc = s.pcc ∧
      (storeBytes s a bs).csrs = s.csrs ∧ (storeBytes s a bs).priv = s.priv ∧
      (storeBytes s a bs).reservation = s.reservation ∧ (storeBytes s a bs).draws = s.draws := by
  induction bs with
  | nil => intros; simp [storeBytes]
  | cons b rest ih => intro s a; simpa [storeBytes] using ih (storeByte s a b) (a + 1)

@[simp] theorem memWrite_cfg (a : XWord) (n : Nat) (v : XWord) : (memWrite s a n v).cfg = s.cfg :=
  (storeBytes_keeps _ s _).1
@[simp] theorem memWrite_regs (a : XWord) (n : Nat) (v : XWord) : (memWrite s a n v).regs = s.regs :=
  (storeBytes_keeps _ s _).2.1
@[simp] theorem memWrite_pcc (a : XWord) (n : Nat) (v : XWord) : (memWrite s a n v).pcc = s.pcc :=
  (storeBytes_keeps _ s _).2.2.1
@[simp] theorem memWrite_csrs (a : XWord) (n : Nat) (v : XWord) : (memWrite s a n v).csrs = s.csrs :=
  (storeBytes_keeps _ s _).2.2.2.1
@[simp] theorem memWrite_priv (a : XWord) (n : Nat) (v : XWord) : (memWrite s a n v).priv = s.priv :=
  (storeBytes_keeps _ s _).2.2.2.2.1
@[simp] theorem memWrite_reservation (a : XWord) (n : Nat) (v : XWord) : (memWrite s a n v).reservation = s.reservation :=
  (storeBytes_keeps _ s _).2.2.2.2.2.1
@[simp] theorem memWrite_draws (a : XWord) (n : Nat) (v : XWord) : (memWrite s a n v).draws = s.draws :=
  (storeBytes_keeps _ s _).2.2.2.2.2.2

/-! ### What is written -/

@[simp] theorem setPc_pcc (a : XWord) : (setPc s a).pcc = { s.pcc with addr := s.cfg.xlen.trunc a } := rfl

@[simp] theorem setMode_pcc (m : Bool) : (setMode s m).pcc = { s.pcc with md := withM s.cfg m s.pcc.md } := rfl

/-- Register 0 reads as `NullCap(0)` in every state (R13). -/
@[simp] theorem readC_zero : readC s 0#5 = Cap.null 0#64 := rfl

/-- Reading a register after a write of the same or another one (R13). -/
theorem readC_writeC (r q : RegNum) (v : Cap) :
    readC (writeC s r v) q =
      if q = 0#5 then Cap.null 0#64 else if q = r then v.trunc s.cfg.xlen else readC s q := by
  by_cases hq : q = 0#5
  · simp [readC, hq]
  · by_cases hr : r = 0#5
    · subst hr
      simp [readC, writeC, hq]
    · by_cases h : q = r
      · subst h
        simp [readC, writeC, hq]
      · have : r.toNat ≠ q.toNat := fun e => h (BitVec.eq_of_toNat_eq e.symm)
        simp [readC, writeC, hq, hr, h, this]

theorem readC_writeX (r q : RegNum) (v : XWord) :
    readC (writeX s r v) q =
      if q = 0#5 then Cap.null 0#64 else if q = r then Cap.null (s.cfg.xlen.trunc v) else readC s q := by
  have : (Cap.null v).trunc s.cfg.xlen = Cap.null (s.cfg.xlen.trunc v) := by
    simp [Cap.null, Cap.trunc, Xlen.trunc]
  rw [writeX, readC_writeC, this]

/-- Registers depend on nothing but the register file. -/
theorem readC_congr {s t : State} (h : t.regs = s.regs) (r : RegNum) : readC t r = readC s r := by
  simp [readC, h]

/-- Bytes of memory depend on nothing but memory. -/
theorem readByte_congr {s t : State} (h : t.mem = s.mem) (a : Nat) : readByte t a = readByte s a := by
  simp [readByte, h]

end Sys2Proof.Laws
end

