-- ==== Sys2Proof/Laws/Ops.lean ====
section
/-! SUPPORT. What each shared operation answers: the lemmas proofs cite instead of unfolding it. A lemma ending in `_ok`
says when the operation succeeds and with what; the others say how it ends. -/

namespace Sys2Proof.Laws

open Sys2Proof.Machine Sys2Proof.Safety

/-! ### Ending an instruction -/

@[simp] theorem settle_ok (s t : State) : settle s (.ok t) = .next t := rfl
@[simp] theorem settle_pure (s t : State) : settle s (pure t) = .next t := rfl
@[simp] theorem settle_trap (s : State) (code : Nat) (v : XWord) :
    settle s (.error (.trap code v)) = .next (takeException s code v) := rfl
@[simp] theorem settle_fault (s : State) (r : Fault) : settle s (.error (.fault r)) = .fault r := rfl
@[simp] theorem settle_refuse (s : State) (r : Refusal) : settle s (.error (.refuse r)) = .refused r := rfl

@[simp] theorem bind_ok {α β : Type} (a : α) (f : α → Except Stop β) : (Except.ok a >>= f) = f a := rfl
@[simp] theorem bind_error {α β : Type} (e : Stop) (f : α → Except Stop β) : (Except.error e >>= f) = Except.error e := rfl

@[simp] theorem map_ok {α β : Type} (a : α) (f : α → β) : f <$> (Except.ok a : Except Stop α) = Except.ok (f a) := rfl
@[simp] theorem map_error {α β : Type} (e : Stop) (f : α → β) : f <$> (Except.error e : Except Stop α) = Except.error e := rfl

@[simp] theorem require_true (e : Stop) : require true e = .ok () := rfl
@[simp] theorem require_false (e : Stop) : require false e = .error e := rfl

theorem bind_eq_ok {α β : Type} {x : Except Stop α} {f : α → Except Stop β} {b : β} :
    (x >>= f) = .ok b ↔ ∃ a, x = .ok a ∧ f a = .ok b := by
  cases x <;> simp

/-- A next state comes from an instruction that ended, or is the entry of the exception it raised. -/
theorem settle_eq_next {s t : State} {x : Except Stop State} :
    settle s x = .next t ↔ x = .ok t ∨ ∃ code v, x = .error (.trap code v) ∧ t = takeException s code v := by
  rcases x with (⟨code, v⟩ | r | r) | u
  · simp [eq_comm]
  · simp
  · simp
  · simp

theorem settle_illegal (s : State) : settle s (.error (illegalInstruction s)) = Illegal s := rfl

/-! ### Reduction to XLEN bits -/

@[simp] theorem trunc_rv64 (v : XWord) : Xlen.rv64.trunc v = v := by
  show v &&& BitVec.allOnes 64 = v
  exact BitVec.and_allOnes

theorem trunc_toNat (x : Xlen) (v : XWord) : (x.trunc v).toNat = v.toNat % 2 ^ x.bits := by
  cases x
  · have : (0xffffffff#64).toNat = 2 ^ 32 - 1 := by decide
    simp only [Xlen.trunc, Xlen.mask, Xlen.bits, BitVec.toNat_and, this, Nat.and_two_pow_sub_one_eq_mod]
  · rw [trunc_rv64, Xlen.bits, Nat.mod_eq_of_lt v.isLt]

theorem trunc_of_lt {x : Xlen} {v : XWord} (h : v.toNat < 2 ^ x.bits) : x.trunc v = v :=
  BitVec.eq_of_toNat_eq (by rw [trunc_toNat, Nat.mod_eq_of_lt h])

@[simp] theorem trunc_zero (x : Xlen) : x.trunc 0#64 = 0#64 := by simp [Xlen.trunc]

@[simp] theorem trunc_one (x : Xlen) : x.trunc 1#64 = 1#64 := by cases x <;> decide

@[simp] theorem trunc_trunc (x : Xlen) (v : XWord) : x.trunc (x.trunc v) = x.trunc v := by
  simp [Xlen.trunc, BitVec.and_assoc]

theorem fits_iff {x : Xlen} {v : XWord} : x.fits v = true ↔ x.trunc v = v := by simp [Xlen.fits]

@[simp] theorem fits_trunc (x : Xlen) (v : XWord) : x.fits (x.trunc v) = true := by simp [Xlen.fits]

@[simp] theorem capFits_trunc (x : Xlen) (c : Cap) : (c.trunc x).fits x = true := by simp [Cap.fits, Cap.trunc]

@[simp] theorem capFits_null (x : Xlen) (v : XWord) : (Cap.null (x.trunc v)).fits x = true := by
  simp [Cap.fits, Cap.null, Xlen.fits]

/-! ### Advancing (R15) -/

theorem advanceBy_ok {len : Nat} {s : State} (h : pcAdvancesBy len s = true) :
    advanceBy len s = .ok (setPc s (pc s + BitVec.ofNat 64 len)) := by
  simp [advanceBy, h]

theorem advanceBy_wraps {len : Nat} {s : State} (h : pcAdvancesBy len s = false) :
    advanceBy len s = .error (.refuse .pcWraps) := by
  simp [advanceBy, h]

theorem advance_ok {s : State} (h : pcAdvances s = true) : advance s = .ok (setPc s (pc s + 4#64)) := advanceBy_ok h

theorem advance_wraps {s : State} (h : pcAdvances s = false) : advance s = .error (.refuse .pcWraps) := advanceBy_wraps h

/-- Advancing changes the address of `pcc` alone, and only where it does not wrap. -/
theorem advanceBy_eq_ok {len : Nat} {s t : State} :
    advanceBy len s = .ok t ↔ pcAdvancesBy len s = true ∧ t = setPc s (pc s + BitVec.ofNat 64 len) := by
  cases h : pcAdvancesBy len s
  · simp [advanceBy_wraps h]
  · simp [advanceBy_ok h, eq_comm]

/-- Advancing depends on `pcc` and the configuration alone. -/
theorem pcAdvances_congr {s t : State} (hp : t.pcc = s.pcc) (hc : t.cfg = s.cfg) : pcAdvances t = pcAdvances s := by
  unfold pcAdvances pcAdvancesBy pc
  rw [hp, hc]

/-- The advanced pc is not reduced: it does not wrap. -/
theorem trunc_next {s : State} (h : pcAdvances s = true) :
    s.cfg.xlen.trunc (pc s + 4#64) = pc s + 4#64 := by
  have h : (pc s).toNat + 4 < 2 ^ s.cfg.xlen.bits := by simpa [pcAdvances, pcAdvancesBy] using h
  have : 2 ^ s.cfg.xlen.bits ≤ 2 ^ 64 := Nat.pow_le_pow_right (by decide) (by cases s.cfg.xlen <;> decide)
  refine trunc_of_lt ?_
  rw [BitVec.toNat_add, Nat.mod_eq_of_lt (by simp; omega)]
  simpa using h

/-! ### A whole instruction -/

@[simp] theorem finish_error (len : Nat) (s : State) (e : Stop) : finish len s (.error e) = settle s (.error e) := rfl

@[simp] theorem finish_ok (len : Nat) (s t : State) : finish len s (.ok t) = settle s (advanceBy len t) := rfl

/-- Every instruction of the table is its own effect and then `next`: the one fact about exec that holds of all. -/
theorem exec_eq_finish (i : Instr) (s : State) : exec i s = finish 4 s (body i s) := by cases i <;> rfl

/-- A next state of an instruction: its own effect `u` with the pc advanced, or the entry of the exception it raised. -/
theorem finish_eq_next {len : Nat} {s t : State} {x : Except Stop State} :
    finish len s x = .next t ↔
      (∃ u, x = .ok u ∧ pcAdvancesBy len u = true ∧ t = setPc u (pc u + BitVec.ofNat 64 len)) ∨
        ∃ code v, x = .error (.trap code v) ∧ t = takeException s code v := by
  unfold finish
  rw [settle_eq_next]
  cases x with
  | error e => simp
  | ok u =>
    rw [bind_ok, advanceBy_eq_ok]
    constructor
    · rintro (h | ⟨code, v, h, -⟩)
      · exact .inl ⟨u, rfl, h⟩
      · unfold advanceBy at h
        split at h <;> cases h
    · rintro (⟨_, ⟨⟩, h⟩ | ⟨code, v, h, -⟩)
      · exact .inl h
      · cases h

/-- A CSR instruction: its checks answered the target, and its act passed the event. -/
theorem csrBody_eq_ok {s t : State} {num : CsrNum} {writes : Bool} {act : CsrTarget → State} :
    csrBody s num writes act = .ok t ↔
      ∃ g, csrCheck s num writes = .ok g ∧ t = passEvent .csrAccess (act g) := by
  unfold csrBody
  cases csrCheck s num writes with
  | error e =>
    constructor
    · rintro ⟨⟩
    · rintro ⟨_, ⟨⟩, _⟩
  | ok g =>
    constructor
    · rintro ⟨⟩
      exact ⟨g, rfl, rfl⟩
    · rintro ⟨_, ⟨⟩, rfl⟩
      rfl

/-! ### Reading and writing registers (R13) -/

@[simp] theorem readC_setPc (s : State) (a : XWord) (r : RegNum) : readC (setPc s a) r = readC s r := rfl
@[simp] theorem readX_setPc (s : State) (a : XWord) (r : RegNum) : readX (setPc s a) r = readX s r := rfl

theorem readC_deliver (s : State) (r q : RegNum) (w : Width) (v : Cap) :
    readC (deliver s r w v) q =
      if q = 0#5 then Cap.null 0#64 else if q = r then delivered s.cfg w v else readC s q := by
  cases w
  · exact readC_writeX s r q v.addr
  · exact readC_writeC s r q v

/-! ### CSR checks (R110, R115) -/

theorem csrCheck_ok {s : State} {num : CsrNum} {writes : Bool} {t : CsrTarget}
    (h : CsrAccessible s num writes t) : csrCheck s num writes = .ok t := by
  obtain ⟨target, ⟨notAbsent, notUnknown⟩, privilege, writable, enabled⟩ := h
  have hw : ¬ ((writes && csrReadOnly num) = true) := by
    cases writes with
    | false => simp
    | true => simp [writable rfl]
  unfold csrCheck
  rw [privilege, target]
  simp only [Bool.not_true, hw]
  cases t with
  | cap id cls =>
    have : ¬ (cls = .newCap ∧ mode s = .off) := fun ⟨hc, hm⟩ => by
      subst hc
      exact enabled id rfl hm
    simp [this]
  | narrow _ => simp
  | base _ => simp
  | absent => exact absurd rfl notAbsent
  | unknown => exact absurd rfl notUnknown

/-- The target a passed check answers is the one the number names, and an access to it is allowed. -/
theorem csrAccessible_of_check {s : State} {num : CsrNum} {writes : Bool} {t : CsrTarget}
    (h : csrCheck s num writes = .ok t) : CsrAccessible s num writes t := by
  unfold csrCheck at h
  split at h
  · simp at h
  · rename_i hp
    split at h
    · simp at h
    · rename_i hw
      have hw' : writes = true → csrReadOnly num = false := by
        intro e
        subst e
        simpa using hw
      have hp' : csrPrivOk s num = true := by simpa using hp
      split at h
      · simp at h
      · simp at h
      · rename_i id cls ht
        split at h
        · simp at h
        · rename_i hd
          cases h
          exact ⟨ht, by simp, hp', hw', fun i e hm => hd ⟨by cases e; rfl, hm⟩⟩
      · rename_i ht
        cases h
        exact ⟨ht, by simp, hp', hw', fun i e => by simp at e⟩
      · rename_i ht
        cases h
        exact ⟨ht, by simp, hp', hw', fun i e => by simp at e⟩

/-! ### Memory checks (R47) -/

theorem checkMemory_ok {c : HartConfig} {kind : AccessKind} {a n : Nat} (h : MainMemory c a n) :
    checkMemory c kind a n = .ok () := by
  induction n generalizing a with
  | zero => rfl
  | succ n ih =>
    have h0 : regionAt c a = some .main := h 0 (Nat.succ_pos n)
    have : MainMemory c (a + 1) n := fun k hk => by
      have := h (k + 1) (Nat.succ_lt_succ hk)
      rwa [show a + (k + 1) = a + 1 + k by omega] at this
    rw [checkMemory, h0]
    exact ih this

/-- A check that fails says where and how: the first byte that is not main memory. -/
theorem checkMemory_fails {s : State} {kind : AccessKind} {a k n : Nat} {r : Option RegionKind} (hk : k < n)
    (h : FirstFails s.cfg a k r) (f : Unit → Except Stop State) :
    settle s (checkMemory s.cfg kind a n >>= f) = MemoryFailure s kind (BitVec.ofNat 64 (a + k)) r := by
  obtain ⟨before, region, fails⟩ := h
  induction k generalizing a n with
  | zero =>
    obtain ⟨n, rfl⟩ : ∃ m, n = m + 1 := ⟨n - 1, by omega⟩
    rw [Nat.add_zero] at region ⊢
    rw [checkMemory, region]
    cases r with
    | none => rfl
    | some q => cases q <;> first | rfl | exact absurd rfl fails
  | succ k ih =>
    obtain ⟨n, rfl⟩ : ∃ m, n = m + 1 := ⟨n - 1, by omega⟩
    have h0 : regionAt s.cfg a = some .main := before 0 (Nat.succ_pos k)
    rw [checkMemory, h0, show a + (k + 1) = a + 1 + k by omega]
    refine ih (by omega) (fun j hj => ?_) (by rw [← region]; congr 1; omega)
    have := before (j + 1) (by omega)
    rwa [show a + (j + 1) = a + 1 + j by omega] at this

theorem mainMemory_of_check {c : HartConfig} {kind : AccessKind} {a n : Nat} {u : Unit}
    (h : checkMemory c kind a n = .ok u) : MainMemory c a n := by
  induction n generalizing a with
  | zero => exact fun k hk => absurd hk (Nat.not_lt_zero k)
  | succ n ih =>
    rw [checkMemory] at h
    split at h
    · rename_i h0
      intro k hk
      cases k with
      | zero => exact h0
      | succ k =>
        have := ih h k (Nat.lt_of_succ_lt_succ hk)
        rwa [show a + 1 + k = a + (k + 1) by omega] at this
    · simp at h
    · simp at h
    · simp at h

/-! ### Authorisation (R43, R71) -/

theorem authorise_ok {c : HartConfig} {v : Cap} {a : XWord} {n : Nat} {kind : AccessKind}
    (h : authorises c v a n kind = true) : authorise c v a n kind = .ok () := by
  simp [authorise, h]

/-- A failed check ends as the configuration says. -/
theorem settle_authorise_fails {s : State} {v : Cap} {a : XWord} {n : Nat} {kind : AccessKind}
    (h : authorises s.cfg v a n kind = false) (f : Unit → Except Stop State) :
    settle s (authorise s.cfg v a n kind >>= f) = CheriFailure s v a n kind := by
  unfold authorise CheriFailure
  rw [h]
  cases s.cfg.causeCheri <;> rfl

theorem authoriseData_ok {s : State} {rs1 : RegNum} {n : Nat} {kind : AccessKind}
    (h : DataAuthorised s rs1 n kind) : authoriseData s rs1 n kind = .ok () := by
  unfold authoriseData
  split
  · exact authorise_ok (h _ ‹_›)
  · rfl

theorem lrScAddr_ok {s : State} {rs1 : RegNum} {n : Nat} {kind : AccessKind}
    (h : DataAuthorised s rs1 n kind) (aligned : lrScAddrOf s rs1 % n = 0) :
    lrScAddr s rs1 n kind = .ok (readX s rs1) := by
  have : (readX s rs1).toNat % n = 0 := aligned
  simp [lrScAddr, authoriseData_ok h, this, dataAddr]

theorem lrScAddr_misaligned {s : State} {rs1 : RegNum} {n : Nat} {kind : AccessKind}
    (h : DataAuthorised s rs1 n kind) (aligned : lrScAddrOf s rs1 % n ≠ 0) :
    lrScAddr s rs1 n kind = .error (.trap (misalignedCode kind) (readX s rs1)) := by
  have : ((readX s rs1).toNat % n == 0) = false := beq_eq_false_iff_ne.mpr aligned
  simp [lrScAddr, authoriseData_ok h, this, dataAddr]

/-! ### Bytes of memory (R40, R45, R48, R54) -/

/-- One stored byte, read back. -/
theorem readByte_storeByte {s : State} (wf : Memory.wf s.mem = true) (a b : Nat) (v : Byte) :
    readByte (storeByte s a v) b = if b = a then v else readByte s b := by
  by_cases h : b = a
  · subst h
    simp [readByte, storeByte, lookup_update_same wf]
  · simp [readByte, storeByte, lookup_update_other wf h, h]

theorem memWf_storeByte {s : State} (wf : memoryWf s = true) (a : Nat) (v : Byte) :
    memoryWf (storeByte s a v) = true := by
  simp only [memoryWf, Bool.and_eq_true, Memory.wf] at wf ⊢
  exact ⟨⟨mapWf_update wf.1.1 a v, setWf_removeKey wf.1.2 _⟩, setWf_insertKey wf.2 a⟩

/-- Every store keeps memory and the sets in canonical form. -/
theorem memWf_storeBytes (bs : List Byte) : ∀ {s : State}, memoryWf s = true → ∀ a, memoryWf (storeBytes s a bs) = true := by
  induction bs with
  | nil => intro s wf a; exact wf
  | cons b rest ih => intro s wf a; exact ih (memWf_storeByte wf a b) (a + 1)

theorem memWf_memWrite {s : State} (wf : memoryWf s = true) (a : XWord) (n : Nat) (v : XWord) :
    memoryWf (memWrite s a n v) = true := memWf_storeBytes _ wf _

/-- Several stored bytes, read back. -/
theorem readByte_storeBytes (bs : List Byte) : ∀ {s : State}, memoryWf s = true → ∀ a b,
    readByte (storeBytes s a bs) b =
      if h : a ≤ b ∧ b < a + bs.length then bs[b - a]'(by omega) else readByte s b := by
  induction bs with
  | nil => intro s _ a b; simp [storeBytes]
  | cons v rest ih =>
    intro s wf a b
    have wf' : Memory.wf s.mem = true := by simp only [memoryWf, Bool.and_eq_true] at wf; exact wf.1.1
    rw [storeBytes, ih (memWf_storeByte wf a v) (a + 1) b, readByte_storeByte wf']
    by_cases h : b = a
    · subst h
      simp
    · by_cases h2 : a + 1 ≤ b ∧ b < a + 1 + rest.length
      · have : a ≤ b ∧ b < a + (v :: rest).length := by simp; omega
        have e : b - a = (b - (a + 1)) + 1 := by omega
        rw [dif_pos h2, dif_pos this]
        simp [e]
      · have : ¬ (a ≤ b ∧ b < a + (v :: rest).length) := by simp; omega
        rw [dif_neg h2, dif_neg this, if_neg h]

/-- The tags after a store: those of the granules stored into are gone (R48). -/
theorem mem_memTags_storeBytes (bs : List Byte) : ∀ (s : State) (a g : Nat),
    g ∈ (storeBytes s a bs).memTags ↔ g ∈ s.memTags ∧ ∀ k, k < bs.length → g ≠ granuleOf s.cfg (a + k) := by
  induction bs with
  | nil => intro s a g; simp [storeBytes]
  | cons v rest ih =>
    intro s a g
    rw [storeBytes, ih]
    simp only [storeByte, mem_removeKey, List.length_cons]
    constructor
    · rintro ⟨⟨h1, h2⟩, h3⟩
      refine ⟨h1, fun k hk => ?_⟩
      cases k with
      | zero => exact h2
      | succ k =>
        have := h3 k (by omega)
        rwa [show a + 1 + k = a + (k + 1) by omega] at this
    · rintro ⟨h1, h2⟩
      refine ⟨⟨h1, h2 0 (by omega)⟩, fun k hk => ?_⟩
      have := h2 (k + 1) (by omega)
      rwa [show a + (k + 1) = a + 1 + k by omega] at this

/-- The bytes that wait for a FENCE.I after a store: the stored ones join (R54). -/
theorem mem_unfenced_storeBytes (bs : List Byte) : ∀ (s : State) (a b : Nat),
    b ∈ (storeBytes s a bs).unfenced ↔ b ∈ s.unfenced ∨ a ≤ b ∧ b < a + bs.length := by
  induction bs with
  | nil => intro s a b; simp [storeBytes]
  | cons v rest ih =>
    intro s a b
    rw [storeBytes, ih]
    simp only [storeByte, mem_insertKey, List.length_cons]
    constructor
    · rintro ((h | h) | h)
      · right; omega
      · left; exact h
      · right; omega
    · rintro (h | h)
      · left; right; exact h
      · by_cases hb : b = a
        · left; left; exact hb
        · right; omega

@[simp] theorem length_leBytes (v : XWord) (n : Nat) : (leBytes v n).length = n := by
  induction n generalizing v with
  | zero => rfl
  | succ n ih => simp [leBytes, ih]

theorem getElem_leBytes (v : XWord) (n k : Nat) (h : k < (leBytes v n).length) :
    (leBytes v n)[k] = (v >>> (8 * k)).setWidth 8 := by
  induction n generalizing v k with
  | zero => simp [leBytes] at h
  | succ n ih =>
    cases k with
    | zero => simp [leBytes]
    | succ k =>
      simp only [leBytes, List.getElem_cons_succ]
      rw [ih, ← BitVec.shiftRight_add]
      congr 2
      omega

@[simp] theorem length_readBytes (s : State) (a n : Nat) : (readBytes s a n).length = n := by
  induction n generalizing a with
  | zero => rfl
  | succ n ih => simp [readBytes, ih]

end Sys2Proof.Laws
end

