-- ==== Sys2Proof/Laws/Csrs.lean ====
section
/-! SUPPORT. The CSR file: reading back what was set, the widths and reserved bits of what a CSR stores and reads as, and
what the infinite capability does (spec/10_state.md R12, R23 to R26, spec/44_csr_access.md R117 to R120). -/

namespace Sys2Proof.Laws

open Sys2Proof.Machine Sys2Proof.Safety

/-! ### Single bits -/

theorem bit_oneHot {i : Nat} (hi : i < 64) (j : Nat) : bit (1#64 <<< i) j = decide (j = i) := by
  unfold bit
  rw [BitVec.getLsbD_shiftLeft, BitVec.getLsbD_one]
  by_cases h : j = i
  · simp [h, hi]
  · rw [decide_eq_false h]
    by_cases hji : j < i
    · simp [hji]
    · have : ¬ (j - i = 0) := by omega
      simp [this]

theorem bit_setBit (w : XWord) {i : Nat} (hi : i < 64) (b : Bool) (j : Nat) :
    bit (setBit w i b) j = if j = i then b else bit w j := by
  have one := bit_oneHot hi j
  unfold bit at one ⊢
  unfold setBit
  cases b
  · rw [if_neg Bool.false_ne_true, BitVec.getLsbD_and, BitVec.getLsbD_not, one]
    by_cases h : j = i
    · simp [h]
    · by_cases hj : j < 64
      · simp [h, hj]
      · rw [BitVec.getLsbD_of_ge w j (by omega)]
        simp [h]
  · rw [if_pos rfl, BitVec.getLsbD_or, one]
    by_cases h : j = i <;> simp [h]

/-- MPP is what was put there. -/
@[simp] theorem mppOf_setMpp (w : XWord) (p : BitVec 2) : mppOf (setMpp w p) = p := by
  have low : ∀ i : Nat, i < 2 → mppMask.getLsbD (11 + i) = true := by decide
  apply BitVec.eq_of_getLsbD_eq
  intro i hi
  have e : 11 + i - 11 = i := by omega
  have h11 : ¬ (11 + i < 11) := by omega
  have h64 : i < 64 := by omega
  have h64' : 11 + i < 64 := by omega
  unfold mppOf setMpp merge
  rw [BitVec.getLsbD_extractLsb', BitVec.getLsbD_or, BitVec.getLsbD_and, BitVec.getLsbD_and, BitVec.getLsbD_not,
    BitVec.getLsbD_shiftLeft, BitVec.getLsbD_setWidth, low i hi, e]
  simp [hi, h11, h64, h64']

theorem mppOf_setBit (w : XWord) {i : Nat} (h : i < 64) (h1 : i ≠ 11) (h2 : i ≠ 12) (b : Bool) :
    mppOf (setBit w i b) = mppOf w := by
  apply BitVec.eq_of_getLsbD_eq
  intro j hj
  have := bit_setBit w h b (11 + j)
  simp only [bit] at this
  simp only [mppOf, BitVec.getLsbD_extractLsb', hj, decide_true, Bool.true_and, this]
  rw [if_neg (by omega)]

/-! ### XLEN-bit values -/

theorem fits_and {x : Xlen} {v : XWord} (h : x.fits v = true) (w : XWord) : x.fits (v &&& w) = true := by
  rw [fits_iff, Xlen.trunc] at *
  rw [BitVec.and_assoc, BitVec.and_comm w, ← BitVec.and_assoc, h]

theorem fits_or {x : Xlen} {v w : XWord} (h : x.fits v = true) (h' : x.fits w = true) : x.fits (v ||| w) = true := by
  rw [fits_iff, Xlen.trunc] at *
  rw [BitVec.and_or_distrib_right, h, h']

theorem fits_merge {x : Xlen} {m v w : XWord} (h : x.fits v = true) (h' : x.fits w = true) :
    x.fits (merge m v w) = true := fits_or (fits_and h' _) (fits_and h _)

@[simp] theorem fits_zero (x : Xlen) : x.fits 0#64 = true := by simp [Xlen.fits]

theorem fits_setBit {x : Xlen} {v : XWord} (h : x.fits v = true) {i : Nat} (hi : i < x.bits) (b : Bool) :
    x.fits (setBit v i b) = true := by
  cases b
  · exact fits_and h _
  · refine fits_or h ?_
    rw [fits_iff]
    refine trunc_of_lt ?_
    have : x.bits ≤ 64 := by cases x <;> decide
    rw [BitVec.toNat_shiftLeft, BitVec.toNat_ofNat, Nat.shiftLeft_eq, Nat.mod_eq_of_lt (by decide : 1 < 2 ^ 64), Nat.one_mul]
    rw [Nat.mod_eq_of_lt (Nat.pow_lt_pow_right (by decide) (by omega))]
    exact Nat.pow_lt_pow_right (by decide) hi

theorem fits_lt {x : Xlen} {v : XWord} (h : x.fits v = true) : v.toNat < 2 ^ x.bits := by
  rw [fits_iff] at h
  rw [← h, trunc_toNat]
  exact Nat.mod_lt _ (Nat.two_pow_pos _)

/-! ### Setting and reading back -/

theorem get_set_same {f : CsrFile} (wf : mapWf (Cap.null 0#64) f.extra = true) (id : CapCsr) (v : Cap) :
    (f.set id v).get id = v := by
  cases id with
  | extra n => exact lookup_update_same wf _ _
  | _ => rfl

theorem get_set_other {f : CsrFile} (wf : mapWf (Cap.null 0#64) f.extra = true) {id other : CapCsr} (ne : other ≠ id)
    (v : Cap) : (f.set id v).get other = f.get other := by
  cases id <;> cases other <;> first | rfl | exact absurd rfl ne | skip
  rename_i n m
  exact lookup_update_other wf (fun e => ne (by rw [BitVec.eq_of_toNat_eq e])) _

@[simp] theorem readBase_set (c : HartConfig) (f : CsrFile) (id : CapCsr) (v : Cap) (b : BaseCsr) :
    readBase c (f.set id v) b = readBase c f b := by cases id <;> cases b <;> rfl

@[simp] theorem misaC_set (f : CsrFile) (id : CapCsr) (v : Cap) : misaC (f.set id v) = misaC f := by cases id <;> rfl

@[simp] theorem mstatus_set (f : CsrFile) (id : CapCsr) (v : Cap) : (f.set id v).mstatus = f.mstatus := by cases id <;> rfl

@[simp] theorem get_writeBase (c : HartConfig) (f : CsrFile) (b : BaseCsr) (v : XWord) (id : CapCsr) :
    (writeBase c f b v).get id = f.get id := by cases b <;> cases id <;> rfl

@[simp] theorem extra_writeBase (c : HartConfig) (f : CsrFile) (b : BaseCsr) (v : XWord) :
    (writeBase c f b v).extra = f.extra := by cases b <;> rfl

@[simp] theorem get_enterStatus (c : HartConfig) (f : CsrFile) (p : Priv) (l : TrapLevel) (id : CapCsr) :
    (enterStatus c f p l).get id = f.get id := by cases l <;> cases id <;> rfl

@[simp] theorem extra_enterStatus (c : HartConfig) (f : CsrFile) (p : Priv) (l : TrapLevel) :
    (enterStatus c f p l).extra = f.extra := by cases l <;> rfl

@[simp] theorem get_leaveStatus (c : HartConfig) (f : CsrFile) (l : TrapLevel) (id : CapCsr) :
    (leaveStatus c f l).get id = f.get id := by cases l <;> cases id <;> rfl

@[simp] theorem extra_leaveStatus (c : HartConfig) (f : CsrFile) (l : TrapLevel) :
    (leaveStatus c f l).extra = f.extra := by cases l <;> rfl

/-! ### What a CSR stores (R23, R25, R120) -/

theorem fits_alignFor {c : HartConfig} {a : XWord} (h : c.xlen.fits a = true) (m : Bool) (id : CapCsr) :
    c.xlen.fits (alignFor c m id a) = true := by
  unfold alignFor alignEpcc
  split
  · split <;> exact fits_and h _
  · exact h

theorem fits_storeAddr (c : HartConfig) (m : Bool) (id : CapCsr) (a : XWord) :
    c.xlen.fits (storeAddr c m id a) = true := by
  simp only [storeAddr]
  split
  · simp only [invalidAddrConv]
    split
    · exact fits_trunc _ _
    · exact fits_alignFor (fits_trunc _ _) _ _
  · exact fits_trunc _ _

theorem fits_storeForm (c : HartConfig) (m : Bool) (id : CapCsr) (v : Cap) : (storeForm c m id v).fits c.xlen = true := by
  have : c.xlen.fits (storeMeta c id v.md) = true := by unfold storeMeta; split <;> exact fits_trunc _ _
  simp [storeForm, Cap.fits, this, fits_storeAddr]

theorem storeForm_noReserved {c : HartConfig} {id : CapCsr} (h : isFull c id = false) (m : Bool) (v : Cap) :
    noReserved c (storeForm c m id v) = true := by
  have : c.xlen.trunc (v.md &&& ~~~c.reservedMask) &&& c.reservedMask = 0#64 := by
    rw [Xlen.trunc, BitVec.and_assoc, BitVec.and_comm c.xlen.mask, ← BitVec.and_assoc, BitVec.and_assoc v.md,
      BitVec.and_comm (~~~c.reservedMask), BitVec.and_not_self]
    simp
  simp [noReserved, storeForm, storeMeta, h, this]

/-! ### What a CSR reads as (R23, R26) -/

theorem fits_readMeta {c : HartConfig} (wf : c.metaWf = true) {id : CapCsr} {md : XWord} (h : c.xlen.fits md = true) :
    c.xlen.fits (readMeta c id md) = true := by
  simp only [HartConfig.metaWf, Bool.and_eq_true] at wf
  unfold readMeta
  split
  · exact h
  · refine fits_or ?_ (fits_and h _)
    rw [BitVec.and_comm]
    exact fits_and wf.1.1.1 _

theorem fits_heldVal {c : HartConfig} (wf : c.metaWf = true) {f : CsrFile} {id : CapCsr}
    (h : (f.get id).fits c.xlen = true) : (heldVal c f id).fits c.xlen = true := by
  simp only [Cap.fits, Bool.and_eq_true, heldVal] at h ⊢
  exact ⟨fits_readMeta wf h.1, h.2⟩

theorem fits_legalizeEpcc {c : HartConfig} {v : Cap} (h : v.fits c.xlen = true) (m : Bool) :
    (legalizeEpcc c m v).fits c.xlen = true := by
  simp only [Cap.fits, Bool.and_eq_true] at h
  have ha : c.xlen.fits (if m then v.addr &&& ~~~1#64 else v.addr &&& ~~~3#64) = true := by
    split <;> exact fits_and h.2 _
  unfold legalizeEpcc
  extract_lets a
  have ha : c.xlen.fits a = true := ha
  split
  · simp only [Cap.fits, h.1, ha, Bool.and_self]
  · simp only [Cap.fits, fits_trunc, ha, Bool.and_self]

theorem fits_readVal {c : HartConfig} (wf : c.metaWf = true) {f : CsrFile} {id : CapCsr}
    (h : (f.get id).fits c.xlen = true) : (readVal c f id).fits c.xlen = true := by
  have h := fits_heldVal wf h
  unfold readVal
  split
  · exact fits_legalizeEpcc h _
  · exact h

/-! ### The infinite capability (R12, R148) -/

@[simp] theorem isInfinite_addr (c : HartConfig) (v : Cap) (a : XWord) :
    isInfinite c { v with addr := a } = isInfinite c v := rfl

theorem tag_of_infinite {c : HartConfig} {v : Cap} (h : isInfinite c v = true) : v.tag = true := by
  simp only [isInfinite, Bool.and_eq_true] at h
  exact h.1

/-- The vector range check passes for an infinite capability (R119). -/
theorem vectorInRange_infinite {c : HartConfig} {v : Cap} (h : isInfinite c v = true) (ha : c.xlen.fits v.addr = true) :
    vectorInRange c v = true := by
  have h1 := fits_lt (fits_and ha (~~~3#64))
  have h2 := Nat.mod_lt ((v.addr &&& ~~~3#64).toNat + c.tvecMaxOffset) (Nat.two_pow_pos c.xlen.bits)
  unfold vectorInRange inBounds
  rw [h]
  simp only [Bool.true_and]
  rw [decide_eq_true h1, decide_eq_true h2]
  simp

/-- Storing an infinite capability and filling its unstored reserved bits in again leaves it infinite. -/
theorem infinite_stored {c : HartConfig} (wf : c.metaWf = true) {v : Cap} (h : isInfinite c v = true)
    (hf : c.xlen.fits v.md = true) (hm : c.mMask &&& c.reservedMask = 0#64) (m : Bool) (id : CapCsr) :
    isInfinite c { storeForm c m id v with md := readMeta c id (storeForm c m id v).md } = true := by
  simp only [HartConfig.metaWf, Bool.and_eq_true, beq_iff_eq] at wf
  have e := wf.2
  have ht := tag_of_infinite h
  simp only [isInfinite, Bool.and_eq_true, beq_iff_eq] at h ⊢
  constructor
  · have : isInfinite c { v with addr := storeAddr c m id v.addr } = true := by
      simp only [isInfinite, Bool.and_eq_true, beq_iff_eq]
      exact h
    simp only [storeForm, storeTag, this, Bool.or_true, Bool.true_or, if_true]
    exact ht
  · have hmd := h.2
    simp only [storeForm, storeMeta, readMeta]
    rw [fits_iff] at hf
    split
    · rw [hf]
      exact hmd
    · have ht2 : c.xlen.trunc (v.md &&& ~~~c.reservedMask) = v.md &&& ~~~c.reservedMask :=
        fits_iff.mp (fits_and (fits_iff.mpr hf) _)
      rw [ht2]
      apply BitVec.eq_of_getLsbD_eq
      intro i hi
      have e := congrArg (·.getLsbD i) e
      have hmd := congrArg (·.getLsbD i) hmd
      have hm := congrArg (·.getLsbD i) hm
      simp only [merge, BitVec.getLsbD_and, BitVec.getLsbD_or, BitVec.getLsbD_not, hi, decide_true, Bool.true_and,
        BitVec.getLsbD_zero] at e hmd hm ⊢
      cases hr : c.reservedMask.getLsbD i <;> cases hq : c.mMask.getLsbD i <;> simp_all

/-- Legalization leaves an infinite capability infinite. -/
theorem infinite_legalized {c : HartConfig} {v : Cap} (h : isInfinite c v = true) (m : Bool) :
    isInfinite c (legalizeEpcc c m v) = true := by
  simp only [legalizeEpcc, h, Bool.or_true, if_true, isInfinite_addr]

theorem infinite_readVal {c : HartConfig} {f : CsrFile} {id : CapCsr} (h : isInfinite c (heldVal c f id) = true) :
    isInfinite c (readVal c f id) = true := by
  unfold readVal
  split
  · exact infinite_legalized h _
  · exact h

/-- The M bit is not a reserved one (R11). -/
theorem mMask_unreserved {c : HartConfig} (wf : c.mBitWf = true) : c.mMask &&& c.reservedMask = 0#64 := by
  simp only [HartConfig.mBitWf, Bool.and_eq_true, decide_eq_true_eq, Bool.not_eq_true'] at wf
  obtain ⟨h1, h2⟩ := wf
  have : c.mBitPos < 64 := by have : c.xlen.bits ≤ 64 := by cases c.xlen <;> decide
                              omega
  unfold HartConfig.mMask
  split
  · apply BitVec.eq_of_getLsbD_eq
    intro i hi
    have one := bit_oneHot this i
    unfold bit at one
    rw [BitVec.getLsbD_and, one, BitVec.getLsbD_zero]
    by_cases h : i = c.mBitPos
    · rw [h, h2]
      simp
    · simp [h]
  · simp

/-- An XLEN-bit write to an infinite capability changes its address alone (R118, R148). -/
theorem xlenWrite_infinite {c : HartConfig} {old : Cap} (h : isInfinite c old = true) (m : Bool) (id : CapCsr)
    (a : XWord) : xlenWrite c m id old a = { old with addr := legalAddr c id old.addr a } := by
  have hr : vectorInRange c { old with addr := c.xlen.trunc a } = true :=
    vectorInRange_infinite (by simpa using h) (fits_trunc _ _)
  simp [xlenWrite, xlenValue, hr, h]

/-- A CLEN-bit write of an infinite capability takes all of it but the legalized address (R117). -/
theorem clenWrite_infinite {c : HartConfig} {v : Cap} (h : isInfinite c v = true) (ha : c.xlen.fits v.addr = true) (m : Bool)
    (id : CapCsr) (old : Cap) : clenWrite c m id old v = { v with addr := legalAddr c id old.addr v.addr } := by
  simp [clenWrite, clenValue, vectorInRange_infinite h ha, h]

/-- Where the vector range check passes, or is none, a write is its value (R119). -/
theorem clenWrite_in_range {c : HartConfig} {m : Bool} {id : CapCsr} {old v : Cap}
    (h : isTvecc id = false ∨ vectorInRange c v = true) :
    clenWrite c m id old v = clenValue c m id old v := by
  rcases h with h | h <;> simp [clenWrite, h]

theorem xlenWrite_in_range {c : HartConfig} {m : Bool} {id : CapCsr} {old : Cap} {a : XWord}
    (h : isTvecc id = false ∨ vectorInRange c { old with addr := c.xlen.trunc a } = true) :
    xlenWrite c m id old a = xlenValue c m id old a := by
  rcases h with h | h <;> simp [xlenWrite, h]

/-! ### Interrupts a hart has -/

/-- Every hart has the machine-level interrupts. -/
@[simp] theorem bit_absentInterrupts (c : HartConfig) {code : Nat} (h : code = 3 ∨ code = 7 ∨ code = 11) :
    bit (absentInterrupts c) code = false := by
  unfold absentInterrupts
  rcases h with rfl | rfl | rfl <;> cases c.hasS <;> cases c.hasH <;> decide

@[simp] theorem fits_mipWritable (c : HartConfig) : c.xlen.fits (mipWritable c) = true :=
  fits_and (by cases c.xlen <;> decide) _

/-! ### `sstatus` -/

/-- A write of `sstatus` changes no bit of `mstatus` that `sstatus` does not show. -/
theorem writeSstatus_hidden (c : HartConfig) (old v : XWord) :
    writeSstatus c old v &&& ~~~sstatusMask = old &&& ~~~sstatusMask := by
  unfold writeSstatus merge Xlen.trunc
  apply BitVec.eq_of_getLsbD_eq
  intro i hi
  simp only [BitVec.getLsbD_and, BitVec.getLsbD_or, BitVec.getLsbD_not, hi, decide_true, Bool.true_and]
  cases sstatusMask.getLsbD i <;> simp

end Sys2Proof.Laws
end

