-- ==== Sys2Proof/Laws/Encoding.lean ====
section
/-! SUPPORT. The words the encoder builds: the fields read back, and what the masks of the rows leave of each format; and
when a word cannot hit a pattern. -/

namespace Sys2Proof.Laws

/-! ### Fields (R61) -/

theorem csrWord_fields (csr : CsrNum) (src : BitVec 5) (f : BitVec 3) (rd : RegNum) :
    rdOf (csrWord csr src f rd) = rd ∧ rs1Of (csrWord csr src f rd) = src ∧ csrOf (csrWord csr src f rd) = csr := by
  unfold rdOf rs1Of csrOf csrWord
  change @BitVec.extractLsb' (12 + 5 + 3 + 5 + 7) _ _ _ = _ ∧ @BitVec.extractLsb' (12 + 5 + 3 + 5 + 7) _ _ _ = _ ∧
    @BitVec.extractLsb' (12 + 5 + 3 + 5 + 7) _ _ _ = _
  simp (disch := decide) only [BitVec.extractLsb'_append_eq_of_le, BitVec.extractLsb'_append_eq_of_add_le,
    Nat.reduceSub, BitVec.extractLsb'_eq_self, and_self]

theorem amoWord_fields (f5 : BitVec 5) (aq rl : Bool) (rs2 rs1 : RegNum) (f : BitVec 3) (rd : RegNum) :
    rdOf (amoWord f5 aq rl rs2 rs1 f rd) = rd ∧ rs1Of (amoWord f5 aq rl rs2 rs1 f rd) = rs1 ∧
      rs2Of (amoWord f5 aq rl rs2 rs1 f rd) = rs2 := by
  unfold rdOf rs1Of rs2Of amoWord
  change @BitVec.extractLsb' (5 + 1 + 1 + 5 + 5 + 3 + 5 + 7) _ _ _ = _ ∧
    @BitVec.extractLsb' (5 + 1 + 1 + 5 + 5 + 3 + 5 + 7) _ _ _ = _ ∧
    @BitVec.extractLsb' (5 + 1 + 1 + 5 + 5 + 3 + 5 + 7) _ _ _ = _
  simp (disch := decide) only [BitVec.extractLsb'_append_eq_of_le, BitVec.extractLsb'_append_eq_of_add_le,
    Nat.reduceSub, BitVec.extractLsb'_eq_self, and_self]

theorem amoWord_order (f5 : BitVec 5) (aq rl : Bool) (rs2 rs1 : RegNum) (f : BitVec 3) (rd : RegNum) :
    aqOf (amoWord f5 aq rl rs2 rs1 f rd) = aq ∧ rlOf (amoWord f5 aq rl rs2 rs1 f rd) = rl := by
  unfold aqOf rlOf amoWord
  change @BitVec.getLsbD (5 + 1 + 1 + 5 + 5 + 3 + 5 + 7) _ _ = _ ∧
    @BitVec.getLsbD (5 + 1 + 1 + 5 + 5 + 3 + 5 + 7) _ _ = _
  simp only [BitVec.getLsbD_append, Nat.reduceLT, if_false, if_true, Nat.reduceSub]
  simp

theorem rWord_fields (f7 : BitVec 7) (rs2 rs1 : RegNum) (f : BitVec 3) (rd : RegNum) (op : BitVec 7) :
    rdOf (rWord f7 rs2 rs1 f rd op) = rd ∧ rs1Of (rWord f7 rs2 rs1 f rd op) = rs1 ∧
      rs2Of (rWord f7 rs2 rs1 f rd op) = rs2 := by
  unfold rdOf rs1Of rs2Of rWord
  change @BitVec.extractLsb' (7 + 5 + 5 + 3 + 5 + 7) _ _ _ = _ ∧
    @BitVec.extractLsb' (7 + 5 + 5 + 3 + 5 + 7) _ _ _ = _ ∧ @BitVec.extractLsb' (7 + 5 + 5 + 3 + 5 + 7) _ _ _ = _
  simp (disch := decide) only [BitVec.extractLsb'_append_eq_of_le, BitVec.extractLsb'_append_eq_of_add_le,
    Nat.reduceSub, BitVec.extractLsb'_eq_self, and_self]

/-! ### Masks (R63) -/

theorem csrWord_and (csr : CsrNum) (src : BitVec 5) (f : BitVec 3) (rd : RegNum) :
    csrWord csr src f rd &&& 0x0000707f#32 = csrWord 0#12 0#5 f 0#5 := by
  change (csr ++ src ++ f ++ rd ++ 0b1110011#7) &&& 0x0000707f#(12 + 5 + 3 + 5 + 7) =
    0#12 ++ 0#5 ++ f ++ 0#5 ++ 0b1110011#7
  rw [show 0x0000707f#(12 + 5 + 3 + 5 + 7) = 0#12 ++ 0#5 ++ BitVec.allOnes 3 ++ 0#5 ++ BitVec.allOnes 7 by decide]
  simp only [BitVec.and_append, BitVec.and_zero, BitVec.and_allOnes]

theorem amoWord_and_funct3 (f5 : BitVec 5) (aq rl : Bool) (rs2 rs1 : RegNum) (f : BitVec 3) (rd : RegNum) :
    amoWord f5 aq rl rs2 rs1 f rd &&& 0x0000707f#32 = amoWord 0#5 false false 0#5 0#5 f 0#5 := by
  change (f5 ++ BitVec.ofBool aq ++ BitVec.ofBool rl ++ rs2 ++ rs1 ++ f ++ rd ++ 0b0101111#7) &&&
      0x0000707f#(5 + 1 + 1 + 5 + 5 + 3 + 5 + 7) =
    0#5 ++ 0#1 ++ 0#1 ++ 0#5 ++ 0#5 ++ f ++ 0#5 ++ 0b0101111#7
  rw [show 0x0000707f#(5 + 1 + 1 + 5 + 5 + 3 + 5 + 7) =
    0#5 ++ 0#1 ++ 0#1 ++ 0#5 ++ 0#5 ++ BitVec.allOnes 3 ++ 0#5 ++ BitVec.allOnes 7 by decide]
  simp only [BitVec.and_append, BitVec.and_zero, BitVec.and_allOnes]

theorem amoWord_and_sc (f5 : BitVec 5) (aq rl : Bool) (rs2 rs1 : RegNum) (f : BitVec 3) (rd : RegNum) :
    amoWord f5 aq rl rs2 rs1 f rd &&& 0xf800707f#32 = amoWord f5 false false 0#5 0#5 f 0#5 := by
  change (f5 ++ BitVec.ofBool aq ++ BitVec.ofBool rl ++ rs2 ++ rs1 ++ f ++ rd ++ 0b0101111#7) &&&
      0xf800707f#(5 + 1 + 1 + 5 + 5 + 3 + 5 + 7) =
    f5 ++ 0#1 ++ 0#1 ++ 0#5 ++ 0#5 ++ f ++ 0#5 ++ 0b0101111#7
  rw [show 0xf800707f#(5 + 1 + 1 + 5 + 5 + 3 + 5 + 7) =
    BitVec.allOnes 5 ++ 0#1 ++ 0#1 ++ 0#5 ++ 0#5 ++ BitVec.allOnes 3 ++ 0#5 ++ BitVec.allOnes 7 by decide]
  simp only [BitVec.and_append, BitVec.and_zero, BitVec.and_allOnes]

theorem amoWord_and_lr (f5 : BitVec 5) (aq rl : Bool) (rs2 rs1 : RegNum) (f : BitVec 3) (rd : RegNum) :
    amoWord f5 aq rl rs2 rs1 f rd &&& 0xf9f0707f#32 = amoWord f5 false false rs2 0#5 f 0#5 := by
  change (f5 ++ BitVec.ofBool aq ++ BitVec.ofBool rl ++ rs2 ++ rs1 ++ f ++ rd ++ 0b0101111#7) &&&
      0xf9f0707f#(5 + 1 + 1 + 5 + 5 + 3 + 5 + 7) =
    f5 ++ 0#1 ++ 0#1 ++ rs2 ++ 0#5 ++ f ++ 0#5 ++ 0b0101111#7
  rw [show 0xf9f0707f#(5 + 1 + 1 + 5 + 5 + 3 + 5 + 7) =
    BitVec.allOnes 5 ++ 0#1 ++ 0#1 ++ BitVec.allOnes 5 ++ 0#5 ++ BitVec.allOnes 3 ++ 0#5 ++ BitVec.allOnes 7 by decide]
  simp only [BitVec.and_append, BitVec.and_zero, BitVec.and_allOnes]

theorem rWord_and_funct3 (f7 : BitVec 7) (rs2 rs1 : RegNum) (f : BitVec 3) (rd : RegNum) (op : BitVec 7) :
    rWord f7 rs2 rs1 f rd op &&& 0x0000707f#32 = rWord 0#7 0#5 0#5 f 0#5 op := by
  change (f7 ++ rs2 ++ rs1 ++ f ++ rd ++ op) &&& 0x0000707f#(7 + 5 + 5 + 3 + 5 + 7) =
    0#7 ++ 0#5 ++ 0#5 ++ f ++ 0#5 ++ op
  rw [show 0x0000707f#(7 + 5 + 5 + 3 + 5 + 7) =
    0#7 ++ 0#5 ++ 0#5 ++ BitVec.allOnes 3 ++ 0#5 ++ BitVec.allOnes 7 by decide]
  simp only [BitVec.and_append, BitVec.and_zero, BitVec.and_allOnes]

theorem rWord_and_row (f7 : BitVec 7) (rs2 rs1 : RegNum) (f : BitVec 3) (rd : RegNum) (op : BitVec 7) :
    rWord f7 rs2 rs1 f rd op &&& 0xfe00707f#32 = rWord f7 0#5 0#5 f 0#5 op := by
  change (f7 ++ rs2 ++ rs1 ++ f ++ rd ++ op) &&& 0xfe00707f#(7 + 5 + 5 + 3 + 5 + 7) =
    f7 ++ 0#5 ++ 0#5 ++ f ++ 0#5 ++ op
  rw [show 0xfe00707f#(7 + 5 + 5 + 3 + 5 + 7) =
    BitVec.allOnes 7 ++ 0#5 ++ 0#5 ++ BitVec.allOnes 3 ++ 0#5 ++ BitVec.allOnes 7 by decide]
  simp only [BitVec.and_append, BitVec.and_zero, BitVec.and_allOnes]

/-! ### Hitting and missing a pattern -/

/-- A word that differs from a pattern under a part of its mask misses it. -/
theorem hits_false {p : Pattern} {w : IWord} (m : IWord) (hm : p.mask &&& m = m) (h : w &&& m ≠ p.pat &&& m) :
    p.hits w = false := by
  simp only [Pattern.hits, beq_eq_false_iff_ne]
  intro e
  apply h
  rw [← e, BitVec.and_assoc, hm]

/-- A word that hits one of two patterns that are apart misses the other. -/
theorem misses_of_apart {p q : Pattern} {w : IWord} (h : p.apart q = true) (hp : p.hits w = true) :
    q.hits w = false := by
  simp only [Pattern.apart, bne_iff_ne] at h
  simp only [Pattern.hits, beq_iff_eq, beq_eq_false_iff_ne] at hp ⊢
  intro hq
  apply h
  rw [← BitVec.and_assoc p.pat, ← hp, ← hq, BitVec.and_comm p.mask q.mask, ← BitVec.and_assoc (w &&& q.mask),
    BitVec.and_assoc w p.mask p.mask, BitVec.and_self, BitVec.and_assoc w q.mask q.mask, BitVec.and_self,
    BitVec.and_assoc, BitVec.and_assoc, BitVec.and_comm p.mask q.mask]

/-- A word the decoder gives an instruction is the word of a row. -/
theorem isRowWord_of_decodeWord {c : HartConfig} {w : IWord} {i : Instr} (h : decodeWord c w = some i) :
    isRowWord c w = true := by
  by_contra hn
  simp only [isRowWord, tableRows, List.any_append, List.any_cons, List.any_nil, Bool.or_false,
    Bool.or_eq_true, not_or, Bool.not_eq_true] at hn
  simp [decodeWord, decodeHybrid, hn] at h

end Sys2Proof.Laws
end

