-- ==== Sys2Proof/Laws/PerInstr.lean ====
section
/-! SUPPORT. The statements made per instruction. `WideWords` says that every instruction a hart has is one 32-bit word by the
length rule: bits 1 and 0 of its word are both 1 (R60). -/

namespace Sys2Proof.Laws.WideWords

open Sys2Proof

/-- Where the instruction exists and the supplied encodings are sound, the encoder gives a word that the length rule
reads as 32 bits long. -/
def Statement (i : Instr) : Prop :=
  ∀ c : HartConfig, c.encodingsWf = true → i.wf c = true → ∃ w, encode c i = some w ∧ w &&& 3#32 = 3#32

theorem low_of_append (hi : BitVec 25) (lo : BitVec 7) (h : lo &&& 3#7 = 3#7) :
    (hi ++ lo : BitVec 32) &&& 3#32 = 3#32 := by
  rw [show (3#32 : BitVec 32) = (0#25 ++ 3#7 : BitVec (25 + 7)) by decide]
  show (hi ++ lo : BitVec (25 + 7)) &&& (0#25 ++ 3#7) = _
  rw [BitVec.and_append, h, BitVec.and_zero]

theorem low_of_pattern {p : Option Pattern} (h : p.all Pattern.supplied = true) (hs : p.isSome = true) :
    ∃ w, p.map (·.pat) = some w ∧ w &&& 3#32 = 3#32 := by
  cases p with
  | none => cases hs
  | some p =>
    simp only [Option.all_some, Pattern.supplied, Bool.and_eq_true, beq_iff_eq] at h
    exact ⟨_, rfl, h.1.1.2⟩

theorem encodings (c : HartConfig) (h : c.encodingsWf = true) :
    c.encModeswCap.all Pattern.supplied = true ∧ c.encModeswInt.all Pattern.supplied = true ∧
      c.encScmode.all Pattern.supplied = true := by
  simp only [HartConfig.encodingsWf, Bool.and_eq_true] at h
  exact ⟨h.1.1.1.1.1, h.1.1.1.1.2, h.1.1.1.2⟩

theorem csrrw (rd : RegNum) (csr : CsrNum) (rs1 : RegNum) : Statement (.csrrw rd csr rs1) :=
  fun _ _ _ => ⟨_, rfl, low_of_append (csr ++ rs1 ++ 0b001#3 ++ rd) _ (by decide)⟩

theorem csrrs (rd : RegNum) (csr : CsrNum) (rs1 : RegNum) : Statement (.csrrs rd csr rs1) :=
  fun _ _ _ => ⟨_, rfl, low_of_append (csr ++ rs1 ++ 0b010#3 ++ rd) _ (by decide)⟩

theorem csrrc (rd : RegNum) (csr : CsrNum) (rs1 : RegNum) : Statement (.csrrc rd csr rs1) :=
  fun _ _ _ => ⟨_, rfl, low_of_append (csr ++ rs1 ++ 0b011#3 ++ rd) _ (by decide)⟩

theorem csrrwi (rd : RegNum) (csr : CsrNum) (uimm : BitVec 5) : Statement (.csrrwi rd csr uimm) :=
  fun _ _ _ => ⟨_, rfl, low_of_append (csr ++ uimm ++ 0b101#3 ++ rd) _ (by decide)⟩

theorem csrrsi (rd : RegNum) (csr : CsrNum) (uimm : BitVec 5) : Statement (.csrrsi rd csr uimm) :=
  fun _ _ _ => ⟨_, rfl, low_of_append (csr ++ uimm ++ 0b110#3 ++ rd) _ (by decide)⟩

theorem csrrci (rd : RegNum) (csr : CsrNum) (uimm : BitVec 5) : Statement (.csrrci rd csr uimm) :=
  fun _ _ _ => ⟨_, rfl, low_of_append (csr ++ uimm ++ 0b111#3 ++ rd) _ (by decide)⟩

theorem lrB (rd rs1 : RegNum) (aq rl : Bool) : Statement (.lrB rd rs1 aq rl) :=
  fun _ _ _ => ⟨_, rfl, low_of_append
    (0b00010#5 ++ BitVec.ofBool aq ++ BitVec.ofBool rl ++ 0#5 ++ rs1 ++ 0b000#3 ++ rd) _ (by decide)⟩

theorem lrH (rd rs1 : RegNum) (aq rl : Bool) : Statement (.lrH rd rs1 aq rl) :=
  fun _ _ _ => ⟨_, rfl, low_of_append
    (0b00010#5 ++ BitVec.ofBool aq ++ BitVec.ofBool rl ++ 0#5 ++ rs1 ++ 0b001#3 ++ rd) _ (by decide)⟩

theorem scB (rd rs1 rs2 : RegNum) (aq rl : Bool) : Statement (.scB rd rs1 rs2 aq rl) :=
  fun _ _ _ => ⟨_, rfl, low_of_append
    (0b00011#5 ++ BitVec.ofBool aq ++ BitVec.ofBool rl ++ rs2 ++ rs1 ++ 0b000#3 ++ rd) _ (by decide)⟩

theorem scH (rd rs1 rs2 : RegNum) (aq rl : Bool) : Statement (.scH rd rs1 rs2 aq rl) :=
  fun _ _ _ => ⟨_, rfl, low_of_append
    (0b00011#5 ++ BitVec.ofBool aq ++ BitVec.ofBool rl ++ rs2 ++ rs1 ++ 0b001#3 ++ rd) _ (by decide)⟩

theorem sh4add (rd rs1 rs2 : RegNum) : Statement (.sh4add rd rs1 rs2) :=
  fun _ _ _ => ⟨_, rfl, low_of_append (0b0010000#7 ++ rs2 ++ rs1 ++ 0b111#3 ++ rd) _ (by decide)⟩

theorem sh4addUw (rd rs1 rs2 : RegNum) : Statement (.sh4addUw rd rs1 rs2) :=
  fun _ _ _ => ⟨_, rfl, low_of_append (0b0010000#7 ++ rs2 ++ rs1 ++ 0b111#3 ++ rd) _ (by decide)⟩

theorem modeswCap : Statement .modeswCap := fun c hc hw => by
  simp only [Instr.wf, Bool.and_eq_true] at hw
  exact low_of_pattern (encodings c hc).1 hw.2

theorem modeswInt : Statement .modeswInt := fun c hc hw => by
  simp only [Instr.wf, Bool.and_eq_true] at hw
  exact low_of_pattern (encodings c hc).2.1 hw.2

theorem scmode (rd rs1 rs2 : RegNum) : Statement (.scmode rd rs1 rs2) := fun c hc hw => by
  simp only [Instr.wf, Bool.and_eq_true] at hw
  obtain ⟨w, he, hw⟩ := low_of_pattern (encodings c hc).2.2 hw.2
  obtain ⟨p, hp, rfl⟩ := Option.map_eq_some_iff.mp he
  refine ⟨p.pat ||| rOperands rs2 rs1 rd, by simp only [encode, hp, Option.map_some], ?_⟩
  have hz : rOperands rs2 rs1 rd &&& 3#32 = 0#32 := by
    change (0#7 ++ rs2 ++ rs1 ++ 0#3 ++ rd ++ 0#7 : BitVec (25 + 7)) &&& 3#32 = 0#32
    rw [show (3#32 : BitVec 32) = (0#25 ++ 3#7 : BitVec (25 + 7)) by decide, BitVec.and_append, BitVec.and_zero,
      BitVec.zero_and]
    decide
  rw [BitVec.and_or_distrib_right, hw, hz, BitVec.or_zero]

end Sys2Proof.Laws.WideWords
end

