-- ==== Sys2Proof/Tests/Slice0.lean ====
section
/-! SUPPORT. Tests of single steps against the vectors of spec/95_test_vectors.md (its numbers are cited), ill-formed terms the
checks refuse, and for each obligation with hypotheses a named witness that meets them. -/

namespace Sys2Proof.Tests

open Sys2Proof Sys2Proof.Machine Sys2Proof.Safety

/-! ### Small states -/

/-- The reset state: machine mode, effective CRE 0, so `Off` mode. -/
def off : State := State.reset

def setX (s : State) (r : RegNum) (v : XWord) : State := writeX s r v

def setC (s : State) (r : RegNum) (v : Cap) : State := writeC s r v

def setCsrs (s : State) (f : CsrFile) : State := { s with csrs := f }

def setCfg (s : State) (c : HartConfig) : State := { s with cfg := c }

/-- `mseccfg.CRE` set, the other two CRE bits clear. -/
def creSet : CreWords := { mseccfg := 8#64, menvcfg := 0#64, senvcfg := 0#64 }

/-- Integer Mode. -/
def int : State := withCreWords creSet off

/-- Capability Mode: `pcc.m` set too. -/
def cap : State := setMode int true

/-- A hart with XLEN = 32, where every address is valid. -/
def cfg32 : HartConfig :=
  { HartConfig.common with
    xlen := .rv32, infiniteMeta := 0xfffffffe#64, regions := [{ base := 0, size := 2 ^ 32, kind := .main }] }

def off32 : State :=
  { off with cfg := cfg32, csrs := CsrFile.reset cfg32, pcc := infiniteCap cfg32 0x80000000#64 }

/-- A configuration with three hybrid encodings (of the tests; the spec gives none) in the custom opcode 0x0b. -/
def cfgEnc : HartConfig :=
  { HartConfig.common with
    encModeswCap := some { pat := 0x0000000b#32, mask := 0xffffffff#32 }
    encModeswInt := some { pat := 0x0000100b#32, mask := 0xffffffff#32 }
    encScmode := some { pat := 0x0000200b#32, mask := 0xfe00707f#32 } }

def bytesAt (s : State) (a : Nat) : List Byte → State
  | [] => s
  | b :: rest => bytesAt { s with mem := update unlistedByte s.mem a b } (a + 1) rest

/-- A test of the next state; false for the other outcomes. -/
def nextIs (o : Host.Outcome State Fault Refusal) (p : State → Bool) : Bool :=
  match o with
  | .next t => p t
  | .fault _ => false
  | .refused _ => false

def faultIs (o : Host.Outcome State Fault Refusal) (r : Fault) : Bool :=
  match o with
  | .next _ => false
  | .fault q => q == r
  | .refused _ => false

def refusalIs (o : Host.Outcome State Fault Refusal) (r : Refusal) : Bool :=
  match o with
  | .next _ => false
  | .fault _ => false
  | .refused q => q == r

/-- A test of the next state is a test of some next state. -/
theorem next_of_nextIs {o : Host.Outcome State Fault Refusal} {p : State → Bool} (h : nextIs o p = true) :
    ∃ t, o = .next t := by
  cases o with
  | next t => exact ⟨t, rfl⟩
  | fault r => cases h
  | refused r => cases h

/-! ### Decoding: words written out from the encodings (section 11 and the examples of the rules) -/

theorem test_decode_csrrw : decodeTableWord 32 0x341312f3 = some (.csrrw 5#5 0x341#12 6#5) := by decide

theorem test_decode_csrrs : decodeTableWord 32 0x305423f3 = some (.csrrs 7#5 0x305#12 8#5) := by decide

theorem test_decode_csrrc : decodeTableWord 32 0x305534f3 = some (.csrrc 9#5 0x305#12 10#5) := by decide

theorem test_decode_csrrwi : decodeTableWord 32 0x34145073 = some (.csrrwi 0#5 0x341#12 8#5) := by decide

theorem test_decode_csrrsi : decodeTableWord 32 0x34116073 = some (.csrrsi 0#5 0x341#12 2#5) := by decide

theorem test_decode_csrrci : decodeTableWord 32 0x3410f5f3 = some (.csrrci 11#5 0x341#12 1#5) := by decide

theorem test_decode_lrB : decodeTableWord 32 0x140502af = some (.lrB 5#5 10#5 true false) := by decide

theorem test_decode_lrH : decodeTableWord 32 0x160512af = some (.lrH 5#5 10#5 true true) := by decide

theorem test_decode_scB : decodeTableWord 32 0x1a75032f = some (.scB 6#5 10#5 7#5 false true) := by decide

theorem test_decode_scH : decodeTableWord 32 0x1875132f = some (.scH 6#5 10#5 7#5 false false) := by decide

theorem test_decode_sh4add : decodeTableWord 32 0x20a37533 = some (.sh4add 10#5 6#5 10#5) := by decide

theorem test_decode_sh4addUw : decodeTableWord 32 0x207372bb = some (.sh4addUw 5#5 6#5 7#5) := by decide

/-- B13: LR.B with `rs2 = 1` is no row; D5: `funct3 = 010` is LR.W. -/
theorem test_decode_reserved : decodeTableWord 32 0x101502af = none ∧ decodeTableWord 32 0x100522af = none := by decide

/-- D4, U4: a row without its extension, or with the other XLEN, is no row. -/
theorem test_decode_needs_extension :
    decodeWord { HartConfig.common with hasZish4add := false } 0x207372b3#32 = none ∧
      decodeWord cfg32 0x207372bb#32 = none ∧
      decodeWord { HartConfig.common with hasZabhlrsc := false } 0x100502af#32 = none := by decide

/-- D9, D10: a supplied encoding decodes with the hybrid extension only; SCMODE's operands are those of the R format. -/
theorem test_decode_hybrid :
    decodeWord cfgEnc 0x0000000b#32 = some .modeswCap ∧ decodeWord cfgEnc 0x0000100b#32 = some .modeswInt ∧
      decodeWord cfgEnc 0x0073228b#32 = some (.scmode 5#5 6#5 7#5) ∧
      decodeWord { cfgEnc with cheri := .base } 0x0000000b#32 = none := by decide

/-- The encoder gives the words the rules list. -/
theorem test_encode :
    encode .common (.csrrw 5#5 0x341#12 6#5) = some 0x341312f3#32 ∧
      encode .common (.lrH 5#5 10#5 true true) = some 0x160512af#32 ∧
      encode .common (.scB 6#5 10#5 7#5 false true) = some 0x1a75032f#32 ∧
      encode .common (.sh4add 5#5 6#5 7#5) = some 0x207372b3#32 ∧
      encode cfgEnc (.scmode 5#5 6#5 7#5) = some 0x0073228b#32 := by decide

/-! ### WellFormed: a term each check refuses -/

theorem test_wf_needs_zabhlrsc :
    [Instr.lrB 0#5 0#5 false false, .lrH 0#5 0#5 false false, .scB 0#5 0#5 0#5 false false,
      .scH 0#5 0#5 0#5 false false].all (fun i => !i.wf { HartConfig.common with hasZabhlrsc := false }) = true := by
  decide

theorem test_wf_needs_zish4add :
    [Instr.sh4add 0#5 0#5 0#5, .sh4addUw 0#5 0#5 0#5].all
      (fun i => !i.wf { HartConfig.common with hasZish4add := false }) = true := by decide

theorem test_wf_needs_xlen64 : Instr.wf cfg32 (.sh4addUw 5#5 6#5 7#5) = false := by decide

theorem test_wf_needs_hybrid :
    [Instr.modeswCap, .modeswInt, .scmode 0#5 0#5 0#5].all
      (fun i => !i.wf { cfgEnc with cheri := .base } && !i.wf HartConfig.common && i.wf cfgEnc) = true := by decide

theorem test_wf_mxlen : ({ HartConfig.common with mxlen := .rv32 } : HartConfig).wf = false := by decide

theorem test_wf_mBit :
    ({ HartConfig.common with mBitPos := 64 } : HartConfig).wf = false ∧
      ({ HartConfig.common with reservedMask := 1#64 } : HartConfig).wf = false := by decide

theorem test_wf_cre : ({ HartConfig.common with creBitSenv := 64 } : HartConfig).wf = false := by decide

theorem test_wf_meta : ({ cfg32 with infiniteMeta := 0x100000000#64 } : HartConfig).wf = false := by decide

theorem test_wf_csrNums :
    ({ HartConfig.common with ddcNum := 0x305#12 } : HartConfig).wf = false ∧
      ({ HartConfig.common with extraCsrs := [⟨0x416#12, .newCap, true, false⟩] } : HartConfig).wf = false := by decide

theorem test_wf_encodings :
    ({ cfgEnc with encModeswInt := cfgEnc.encModeswCap } : HartConfig).encodingsWf = false ∧
      ({ cfgEnc with encModeswCap := some rowCsrrw } : HartConfig).encodingsWf = false ∧
      ({ cfgEnc with encScmode := some ⟨0x0000200b#32, 0xfff0707f#32⟩ } : HartConfig).encodingsWf = false := by decide

/-- The configurations of the tests are among those the spec allows. -/
theorem test_wf_allows :
    HartConfig.common.wf = true ∧ cfg32.wf = true ∧ cfgEnc.wf = true ∧ cfgEnc.encodingsWf = true := by decide

theorem test_memory_wf_refuses :
    Memory.wf [(2, 1#8), (1, 1#8)] = false ∧ Memory.wf [(1, 0#8)] = false ∧ Memory.wf [(1, 1#8), (2, 1#8)] = true := by
  decide

/-! ### The mode function (section 2: M1 to M9) -/

def polarity (v : Bool) (s : State) : State := setCfg s { s.cfg with capModeValue := v }

theorem test_mode_table :
    mode off = .off ∧ mode (setMode off true) = .off ∧ mode int = .int ∧ mode cap = .cap ∧
      mode (polarity false int) = .cap ∧ mode (polarity false cap) = .int ∧
      mode (polarity false (setMode off true)) = .off := by decide

theorem test_mode_of_other_harts :
    mode (setCfg int { int.cfg with cheri := .base }) = .cap ∧
      mode (setCfg int { int.cfg with cheri := .absent }) = .off := by decide

/-! ### SH4ADD and SH4ADD.UW (sections 8 and 9) -/

/-- S3: the sum wraps. -/
theorem test_sh4add_wraps :
    nextIs (exec (.sh4add 5#5 6#5 7#5) (setX (setX off 6#5 0x0800000000000000#64) 7#5 0x8000000000000000#64))
      (fun t => readC t 5#5 == Cap.null 0#64 && t.pcc.addr == 0x80000004#64) = true := by decide

/-- S5, S11: the source is read before `rd` is written, and the result carries no tag or metadata. -/
theorem test_sh4add_source_is_destination :
    nextIs (exec (.sh4add 5#5 5#5 7#5) (setX (setC off 5#5 ⟨true, 9#64, 2#64⟩) 7#5 1#64))
      (fun t => readC t 5#5 == Cap.null 0x21#64) = true := by decide

/-- U1. -/
theorem test_sh4addUw_ignores_the_upper_half :
    nextIs (exec (.sh4addUw 5#5 6#5 7#5) (setX (setX int 6#5 0xffffffff80000001#64) 7#5 0x10#64))
      (fun t => readX t 5#5 == 0x800000020#64) = true := by decide

/-- U3. -/
theorem test_sh4addUw_wraps :
    nextIs (exec (.sh4addUw 5#5 6#5 7#5) (setX (setX off 6#5 0xffffffff#64) 7#5 0xfffffffffffffff0#64))
      (fun t => readX t 5#5 == 0xfffffffe0#64) = true := by decide

/-- S9: XLEN = 32. -/
theorem test_sh4add_xlen32 :
    nextIs (exec (.sh4add 5#5 6#5 7#5) (setX (setX off32 6#5 0x10000001#64) 7#5 0xfffffff0#64))
      (fun t => readX t 5#5 == 0#64) = true := by decide

/-- S10: refused in Capability Mode. -/
theorem test_sh4add_cap_mode : refusalIs (exec (.sh4add 5#5 6#5 7#5) cap) .sh4addInCapMode = true := by decide

/-! ### LR and SC (section 10) -/

/-- `x10 = 0x80001030`, with the bytes 0x34 and 0x92 there (B4). -/
def lrsc : State := bytesAt (setX int 10#5 0x80001030#64) 0x80001030 [0x34#8, 0x92#8]

/-- B1 with the byte 0x92: sign-extended, and the byte is reserved. -/
theorem test_lrB_sign_extends :
    nextIs (exec (.lrB 5#5 10#5 false false) (setX lrsc 10#5 0x80001031#64))
      (fun t => readX t 5#5 == 0xffffffffffffff92#64 && reserved t 0x80001031 1) = true := by decide

/-- B12: an untagged operand in Capability Mode fails the check; with no CAUSE_CHERI the model stops. -/
theorem test_lrB_untagged :
    faultIs (exec (.lrB 5#5 10#5 false false) (setX cap 10#5 0x80001030#64)) .cheriCheckFailed = true := by decide

/-- B4: little-endian. -/
theorem test_lrH_is_little_endian :
    nextIs (exec (.lrH 5#5 10#5 false false) lrsc)
      (fun t => readX t 5#5 == 0xffffffffffff9234#64 && reserved t 0x80001030 2) = true := by decide

/-- B5: misaligned, cause 4, the address recorded, no reservation, `rd` unchanged. -/
theorem test_lrH_misaligned :
    nextIs (exec (.lrH 5#5 10#5 false false) (setX lrsc 10#5 0x80001031#64))
      (fun t => t.csrs.mcause == 4#64 && t.csrs.mtval == 0x80001031#64 && t.reservation == none &&
        readX t 5#5 == 0#64) = true := by decide

/-- B6: no reservation, so 1 to `rd` and memory as before. -/
theorem test_scB_without_reservation :
    nextIs (exec (.scB 6#5 10#5 7#5 false false) (setX lrsc 7#5 0xf0#64))
      (fun t => readX t 6#5 == 1#64 && t.mem == lrsc.mem && t.unfenced == []) = true := by decide

/-- B9, R48: the bytes stored, the tag of their granule cleared and no other, the code 0. -/
theorem test_scH_stores :
    let t := storeSucceeds { setX lrsc 7#5 0xdef0#64 with memTags := [0x8000102, 0x8000103] } 6#5 7#5 2 0x80001030#64
    readByte t 0x80001030 = 0xf0#8 ∧ readByte t 0x80001031 = 0xde#8 ∧ t.memTags = [0x8000102] ∧
      readX t 6#5 = 0#64 ∧ t.reservation = none ∧ t.unfenced = [0x80001030, 0x80001031] := by decide

/-- B7: one byte of the source. -/
theorem test_scB_stores :
    let t := storeSucceeds (setX lrsc 7#5 0x123456789abcdef0#64) 6#5 7#5 1 0x80001030#64
    readByte t 0x80001030 = 0xf0#8 ∧ readByte t 0x80001031 = 0x92#8 ∧ readX t 6#5 = 0#64 := by decide

/-- B10: cause 6. -/
theorem test_scH_misaligned :
    nextIs (exec (.scH 6#5 10#5 7#5 false false) (setX lrsc 10#5 0x80001031#64))
      (fun t => t.csrs.mcause == 6#64 && t.csrs.mtval == 0x80001031#64) = true := by decide

/-! ### CSR instructions (sections 5 and 6) -/

/-- `mepcc = {1, 6, 0x80000004}` and `x6`, `c6 = {1, 10, 0x80000100}`. -/
def swap (s : State) : State :=
  setCsrs (setC s 6#5 ⟨true, 10#64, 0x80000100#64⟩) { s.csrs with mepcc := ⟨true, 6#64, 0x80000004#64⟩ }

/-- V1: in Capability Mode CLEN bits both ways. -/
theorem test_csrrw_cap :
    nextIs (exec (.csrrw 5#5 0x341#12 6#5) (swap cap))
      (fun t => readC t 5#5 == ⟨true, 6#64, 0x80000004#64⟩ && t.csrs.mepcc.md == 10#64) = true := by decide

/-- V2: in Integer Mode XLEN bits both ways; the metadata stays. -/
theorem test_csrrw_int :
    nextIs (exec (.csrrw 5#5 0x341#12 6#5) (swap int))
      (fun t => readC t 5#5 == Cap.null 0x80000004#64 && t.csrs.mepcc.md == 6#64) = true := by decide

/-- V5: the old value is delivered. -/
theorem test_csrrs_reads :
    nextIs (exec (.csrrs 7#5 0x341#12 5#5) (setX (swap off) 5#5 0x3000#64))
      (fun t => readX t 7#5 == 0x80000004#64 && t.csrs.mepcc.md == 6#64) = true := by decide

/-- Z3: `rs1 = x0` reads only. -/
theorem test_csrrs_x0_writes_nothing :
    nextIs (exec (.csrrs 7#5 0x341#12 0#5) (swap off))
      (fun t => readX t 7#5 == 0x80000004#64 && t.csrs == (swap off).csrs) = true := by decide

/-- With `rd = rs1` the mask is the register before the instruction, which then gets the old word: here `mie` (entry 44). -/
theorem test_csrrs_rd_is_rs1 :
    nextIs (exec (.csrrs 5#5 0x304#12 5#5) (setX off 5#5 8#64)) (fun t => t.csrs.mie == 8#64 && readX t 5#5 == 0#64) =
      true := by decide

/-- V6 on a hart with XLEN = 32: the bits of `x10` are cleared in the address. -/
theorem test_csrrc_clears :
    nextIs (exec (.csrrc 9#5 0x341#12 10#5) (setX (swap off32) 10#5 0x80000000#64))
      (fun t => readX t 9#5 == 0x80000004#64 && t.csrs.mepcc.addr == 4#64) = true := by decide

/-- V4 on a hart with XLEN = 32. -/
theorem test_csrrwi_writes :
    nextIs (exec (.csrrwi 0#5 0x341#12 8#5) (swap off32))
      (fun t => t.csrs.mepcc.addr == 8#64 && t.csrs.mepcc.md == 6#64 && readX t 0#5 == 0#64) = true := by decide

/-- Z5: `uimm = 0` writes nothing. -/
theorem test_csrrsi_zero_writes_nothing :
    nextIs (exec (.csrrsi 5#5 0x341#12 0#5) (swap off))
      (fun t => readX t 5#5 == 0x80000004#64 && t.csrs == (swap off).csrs) = true := by decide

/-- `csrrsi` sets bits of a base CSR: here `mie`. -/
theorem test_csrrsi_sets :
    nextIs (exec (.csrrsi 5#5 0x304#12 8#5) off) (fun t => t.csrs.mie == 8#64 && readX t 5#5 == 0#64) = true := by decide

/-- V7: `uimm = 1` on a value whose bit 0 is clear. -/
theorem test_csrrci_clears :
    nextIs (exec (.csrrci 11#5 0x341#12 1#5) (swap off32))
      (fun t => readX t 11#5 == 0x80000004#64 && t.csrs.mepcc.addr == 0x80000004#64) = true := by decide

/-- P4 with V8: a new capability CSR in `Off` mode traps; `rd` and `ddc` stay, `mepcc` takes the pc, cause 2. -/
theorem test_ddc_in_off_mode :
    nextIs (exec (.csrrw 5#5 0x416#12 6#5)
        (setX (setCsrs off { off.csrs with mtvecc := infiniteCap off.cfg 0x80000100#64 }) 5#5 0x55#64))
      (fun t => t.csrs.mcause == 2#64 && readX t 5#5 == 0x55#64 && t.csrs.ddc == off.csrs.ddc &&
        t.pcc == infiniteCap off.cfg 0x80000100#64 && mppOf t.csrs.mstatus == 3#2) = true := by decide

/-- V9: in Integer Mode CLEN bits. -/
theorem test_ddc_in_int_mode :
    nextIs (exec (.csrrw 5#5 0x416#12 6#5) (swap int))
      (fun t => readC t 5#5 == int.csrs.ddc && t.csrs.ddc.md == 10#64) = true := by decide

/-- L1 to L3: the read is legalized for the current `misa.C`; the stored value is unchanged. -/
theorem test_epcc_legalized_on_read :
    let c := { HartConfig.common with misaCWritable := true }
    let f := { CsrFile.reset c with mepcc := infiniteCap c 0x80000002#64 }
    (readVal c f .mepcc).addr = 0x80000002#64 ∧
      (readVal c { f with misa := 0#64 } .mepcc).addr = 0x80000000#64 ∧ f.get .mepcc = infiniteCap c 0x80000002#64 := by
  decide

/-! ### The hybrid extension (section 12.1) -/

/-- W1, and D9: the whole step from a supplied encoding. -/
theorem test_modeswCap :
    nextIs (step ((setCfg int cfgEnc).withFetchWord 32 0x0000000b))
      (fun t => mode t == .cap && t.pcc.addr == 0x80000004#64) = true := by decide

/-- W4. -/
theorem test_modeswCap_off :
    nextIs (exec .modeswCap off) (fun t => t.csrs.mcause == 2#64 && mode t == .off) = true := by decide

/-- W2. -/
theorem test_modeswInt :
    nextIs (exec .modeswInt cap) (fun t => mode t == .int && t.pcc.addr == 0x80000004#64) = true := by decide

/-- W3 mirrored: no change but the pc. -/
theorem test_modeswInt_again : nextIs (exec .modeswInt int) (fun t => t == setPc int 0x80000004#64) = true := by decide

/-- SCMODE leaves `pcc`'s metadata, and `rd = 0` discards its result. -/
theorem test_scmode_rd0 :
    nextIs (exec (.scmode 0#5 6#5 7#5) int) (fun t => t == setPc int 0x80000004#64) = true := by decide

/-- SCMODE is illegal in `Off` mode. -/
theorem test_scmode_off : nextIs (exec (.scmode 5#5 6#5 7#5) off) (fun t => t.csrs.mcause == 2#64) = true := by decide

/-! ### Traps (section 12.2) -/

def vectored (s : State) : State := setCsrs s { s.csrs with mtvecc := infiniteCap s.cfg 0x80000101#64 }

/-- A hart without supervisor mode has no supervisor interrupt: a write of `mip` or `mie` sets none and none is taken (the
family's rule; notes/assumptions/13.md). -/
theorem test_absent_interrupts :
    let c : HartConfig := { HartConfig.common with levels := .mu }
    (writeBase c off.csrs .mip 0x222#64).mip = 0#64 ∧ (writeBase c off.csrs .mie 0x2aa#64).mie = 0x88#64 ∧
      pendingInterrupt { setCfg off c with priv := .U, csrs := { off.csrs with mip := 2#64, mie := 2#64 } } = none ∧
      pendingInterrupt { off with priv := .U, csrs := { off.csrs with mip := 2#64, mie := 2#64 } } = some (.m, 1) := by
  decide

/-- T2, T3: an exception goes to the base, an interrupt to its entry. -/
theorem test_vectored_entry :
    (takeException (vectored off) 2 0#64).pcc.addr = 0x80000100#64 ∧
      (takeInterrupt (vectored off) .m 7).pcc.addr = 0x8000011c#64 := by decide

/-- T4: the handler's M bit is that of `mtvecc`. -/
theorem test_handler_mode :
    mode (takeException (setCsrs int { int.csrs with
      mtvecc := ⟨true, withM int.cfg true int.cfg.infiniteMeta, 0x80000100#64⟩ }) 2 0#64) = .cap := by decide

/-! ### Witnesses: a state and operands that meet the hypotheses of each obligation (and of each of its clauses) -/

theorem witness_DecodeOfEncodeIsIdentity :
    cfgEnc.encodingsWf = true ∧ Instr.wf cfgEnc (.scmode 31#5 0#5 31#5) = true ∧
      encode cfgEnc (.scmode 31#5 0#5 31#5) = some 0x01f02f8b#32 ∧ Instr.wf cfgEnc (.lrH 31#5 31#5 true true) = true ∧
      encode cfgEnc (.lrH 31#5 31#5 true true) = some 0x160f9faf#32 := by decide

theorem witness_EncodeOfDecodeIsIdentity :
    decodeWord .common 0x160f9faf#32 = some (.lrH 31#5 31#5 true true) ∧
      hybridUse .common (.lrH 31#5 31#5 true true) = none := by decide

/-- The byte of an address space that the region of the common configuration covers. -/
theorem main_common {a : Nat} (h : a < 2 ^ 64) : regionAt HartConfig.common a = some .main := by
  have h' : a < 2 ^ HartConfig.common.xlen.bits := h
  rw [regionAt, if_pos h']
  simp only [HartConfig.common, List.find?_cons, Nat.zero_le, decide_true, Nat.zero_add, Bool.true_and, h,
    Option.map_some]

/-- The state of S1: `sh4add x5, x6, x7` at the pc. -/
def fetching : State := off.withFetchWord 32 0x207372b3

theorem fetches_fetching : Fetches fetching 0x207372b3#32 where
  authorised := ⟨fun _ => by decide, fun _ => by decide⟩
  aligned := by decide
  memory := fun k hk => main_common (show 0x80000000 + k < 2 ^ 64 by omega)
  fenced := fun k _ => List.not_mem_nil
  bytes := by decide

theorem witness_StepRunsTheDecodedInstruction :
    pendingInterrupt fetching = none ∧ Fetches fetching 0x207372b3#32 ∧ 0x207372b3#32 &&& 3#32 = 3#32 ∧
      decodeWord fetching.cfg 0x207372b3#32 = some (.sh4add 5#5 6#5 7#5) :=
  ⟨by decide, fetches_fetching, by decide, by decide⟩

/-- The timer's bit set and enabled; in machine mode with MIE, and in user mode without. -/
def timer : State := setCsrs off { off.csrs with mip := 0x80#64, mie := 0x80#64, mstatus := 8#64 }

theorem witness_TimerInterruptComesBeforeTheFetch :
    28 ≤ timer.cfg.tvecMaxOffset ∧ pendingInterrupt timer = some (.m, 7) ∧ bit timer.csrs.mip 7 = true ∧ bit timer.csrs.mie 7 = true ∧ (∀ k, k = 11 ∨ k = 3 → bit timer.csrs.mip k = false) ∧
      bit timer.csrs.mideleg 7 = false ∧ bit timer.csrs.mstatus mieBit = true ∧
      ({ timer with priv := .U } : State).priv ≠ .M :=
  ⟨by decide, by decide, by decide, by decide, by rintro k (rfl | rfl) <;> decide, by decide, by decide, by decide⟩

/-- The state of S1 after a store to the last byte of its second parcel. -/
def storedLast : State := { fetching with unfenced := [0x80000003] }

theorem firstParcel_storedLast : FirstParcelIsWide storedLast where
  authorised := fun _ => by decide
  aligned := by decide
  memory := fun k hk => main_common (show 0x80000000 + k < 2 ^ 64 by omega)
  fenced := show ∀ k, k < 2 → 0x80000000 + k ∉ [0x80000003] by decide
  wide := by decide

/-- The first byte of the first parcel, and the last byte of the second. -/
theorem witness_FetchOfStoredBytesIsRefused :
    let s : State := { fetching with unfenced := [0x80000000] }
    let t := storedLast
    pendingInterrupt s = none ∧ FetchAuthorised s 2 ∧ fetchAligned s = true ∧ MainMemory s.cfg s.pcc.addr.toNat 2 ∧
      s.pcc.addr.toNat + 0 ∈ s.unfenced ∧
      pendingInterrupt t = none ∧ FirstParcelIsWide t ∧ FetchAuthorised t 4 ∧ MainMemory t.cfg t.pcc.addr.toNat 4 ∧
      t.pcc.addr.toNat + 3 ∈ t.unfenced :=
  ⟨by decide, fun _ => by decide, by decide, fun k hk => main_common (show 0x80000000 + k < 2 ^ 64 by omega), by decide,
    by decide, firstParcel_storedLast, fun _ => by decide,
    fun k hk => main_common (show 0x80000000 + k < 2 ^ 64 by omega), by decide⟩

/-- Capability Mode on a hart that remaps the parcel 0x0000 to MODESW_INT. -/
def remapping : State := setCfg cap { cap.cfg with remapCompressed := [(0#16, .modeswInt)] }

/-- A remapped parcel is 2 bytes long (R143, R144). -/
theorem test_remapped_parcel :
    nextIs (step remapping) (fun t => mode t == .int && t.pcc.addr == 0x80000002#64) = true := by decide

/-- It is remapped in Capability Mode only (R143). -/
theorem test_parcel_not_remapped_in_int :
    refusalIs (step (setMode remapping false)) (.compressedBase 0#16) = true := by decide

/-- The same hart with `misa.C` 0: a remapping that is not in force (R60). -/
def uncompressed : State := setCsrs remapping { remapping.csrs with misa := 0#64 }

theorem witness_CompressedIsRefusedInCapMode :
    pendingInterrupt cap = none ∧ mode cap = .cap ∧ FetchAuthorised cap 2 ∧ fetchAligned cap = true ∧
      MainMemory cap.cfg cap.pcc.addr.toNat 2 ∧ FetchFenced cap 2 ∧
      readBytes cap cap.pcc.addr.toNat 2 = [0#8, 0#8] ∧ isWide (parcelOf 0#8 0#8) = false ∧
      remapped cap (parcelOf 0#8 0#8) = none ∧ knownWord cap.cfg ((parcelOf 0#8 0#8).setWidth 32) = none ∧
      mode remapping = .cap ∧ remapped remapping (parcelOf 0#8 0#8) = some .modeswInt ∧
      mode uncompressed = .cap ∧ remapped uncompressed (parcelOf 0#8 0#8) = none ∧
      isRemapped uncompressed.cfg (parcelOf 0#8 0#8) = true :=
  ⟨by decide, by decide, fun _ => by decide, by decide,
    fun k hk => main_common (show 0x80000000 + k < 2 ^ 64 by omega), fun k _ => List.not_mem_nil, by decide, by decide,
    by decide, by decide, by decide, by decide, by decide, by decide, by decide⟩

/-- The common hart with the admitted memory of one kind. -/
def memoryOf (kind : RegionKind) : State :=
  setCfg int { int.cfg with regions := [{ base := 0, size := 2 ^ 64, kind := kind }] }

/-- The common hart that admits no memory. -/
def noMemory : State := setCfg int { int.cfg with regions := [] }

/-- The hart whose main memory ends two bytes after the pc. -/
def halfMemory : State :=
  setCfg fetching { fetching.cfg with regions := [⟨0x80000000, 2, .main⟩, ⟨0, 2 ^ 64, .accessFault⟩] }

/-- The common hart with the last parcel of the address space at the pc. -/
def atTheTop : State := bytesAt (setPc off 0xfffffffffffffffe#64) 0xfffffffffffffffe [0x03#8, 0x00#8]

theorem firstFails_at (c : HartConfig) (a : Nat) (r : Option RegionKind) (h : regionAt c a = r) (hr : r ≠ some .main) :
    FirstFails c a 0 r := ⟨fun k hk => absurd hk (Nat.not_lt_zero k), h, hr⟩

theorem witness_FetchExceptionsInOrder :
    let untagged : State := { off with pcc := { off.pcc with tag := false } }
    let odd : State := setPc off 0x80000001#64
    pendingInterrupt untagged = none ∧ untagged.cfg.hasBase = true ∧
      authorises untagged.cfg untagged.pcc untagged.pcc.addr 2 .fetch = false ∧
      pendingInterrupt odd = none ∧ FetchAuthorised odd 2 ∧ fetchAligned odd = false ∧
      FetchAuthorised (memoryOf .accessFault) 2 ∧ fetchAligned (memoryOf .accessFault) = true ∧
      FirstFails (memoryOf .accessFault).cfg 0x80000000 0 (some .accessFault) ∧
      FetchAuthorised (memoryOf .pageFault) 2 ∧ FirstFails (memoryOf .pageFault).cfg 0x80000000 0 (some .pageFault) ∧
      FetchAuthorised noMemory 2 ∧ FirstFails noMemory.cfg 0x80000000 0 none :=
  ⟨by decide, by decide, by decide, by decide, fun _ => by decide, by decide, fun _ => by decide, by decide,
    firstFails_at _ _ _ (by decide) (by decide), fun _ => by decide, firstFails_at _ _ _ (by decide) (by decide),
    fun _ => by decide, firstFails_at _ _ _ (by decide) (by decide)⟩

/-- The later bytes: byte 2 is outside main memory; and byte 2 is outside the address space, where the authority of
everything ends (a hart with no CHERI extension has none). -/
theorem witness_FetchExceptionsInOrder_later :
    pendingInterrupt halfMemory = none ∧ FirstParcelIsWide halfMemory ∧ FetchAuthorised halfMemory 4 ∧
      FirstFails halfMemory.cfg 0x80000000 2 (some .accessFault) ∧
      regionAt atTheTop.cfg 0xffffffffffffffff = some .main ∧ regionAt atTheTop.cfg 0x10000000000000000 = none := by
  have main : MainMemory halfMemory.cfg 0x80000000 2 := by
    intro k hk
    have : k = 0 ∨ k = 1 := by omega
    rcases this with rfl | rfl <;> decide
  exact ⟨by decide, ⟨fun _ => by decide, by decide, main, fun k _ => List.not_mem_nil, by decide⟩, fun _ => by decide,
    ⟨main, by decide, by decide⟩, by decide, by decide⟩

theorem witness_ModeFollowsTheTable :
    off.cfg.cheri = .hybrid ∧ effCre off = false ∧ effCre int = true ∧ mOf int.cfg int.pcc = int.cfg.intModeValue ∧
      mOf cap.cfg cap.pcc = cap.cfg.capModeValue := by decide

theorem witness_Sh4addAddsTheShiftedIndex :
    mode off ≠ .cap ∧ pcAdvances off = true ∧ pcAdvances (setPc off 0xfffffffffffffff8#64) = true := by decide

theorem witness_Sh4addUwAddsTheZeroExtendedIndex :
    int.cfg.xlen = .rv64 ∧ mode int ≠ .cap ∧ pcAdvances int = true ∧ off32.cfg.xlen = .rv32 := by decide

/-- A hart with XLEN = 32 in Capability Mode. -/
def cap32 : State := setCfg off32 { off32.cfg with cheri := .base }

theorem witness_Sh4addInCapModeFollowsTheParameter :
    mode cap = .cap ∧ cap.cfg.xlen = .rv64 ∧ pcAdvances cap = true ∧ cap.cfg.sh4addCap = none ∧
      mode (setCfg cap { cap.cfg with sh4addCap := some .capability }) = .cap ∧
      mode cap32 = .cap ∧ cap32.cfg.xlen = .rv32 ∧ pcAdvances cap32 = true := by decide

/-- `ddc` is infinite in Integer Mode, so a data access is authorised. -/
theorem dataAuth_int (a : XWord) (n : Nat) (kind : AccessKind)
    (h : authorises int.cfg int.csrs.ddc a n kind = true) (s : State) (hs : s.cfg = int.cfg) (hc : s.csrs = int.csrs)
    (hm : mode s = .int) (rs1 : RegNum) (ha : readX s rs1 = a) : DataAuthorised s rs1 n kind := by
  intro auth e
  have hd : readVal s.cfg s.csrs .ddc = int.csrs.ddc := by rw [hs, hc]; decide
  have hh : s.cfg.hasHybrid = true := by rw [hs]; decide
  rw [dataAuth, hm, if_neg (by decide), if_pos hh, hd, Option.some.injEq] at e
  rw [ha, hs, ← e]
  exact h

theorem witness_LoadReservedByteCompletes :
    DataAuthorised lrsc 10#5 1 .load ∧ MainMemory lrsc.cfg (lrScAddrOf lrsc 10#5) 1 ∧ pcAdvances lrsc = true :=
  ⟨dataAuth_int 0x80001030#64 1 .load (by decide) lrsc rfl rfl (by decide) 10#5 (by decide),
    fun k hk => main_common (show 0x80001030 + k < 2 ^ 64 by omega), by decide⟩

theorem witness_LoadReservedHalfCompletes :
    DataAuthorised lrsc 10#5 2 .load ∧ lrScAddrOf lrsc 10#5 % 2 = 0 ∧ MainMemory lrsc.cfg (lrScAddrOf lrsc 10#5) 2 ∧
      pcAdvances lrsc = true :=
  ⟨dataAuth_int 0x80001030#64 2 .load (by decide) lrsc rfl rfl (by decide) 10#5 (by decide), by decide,
    fun k hk => main_common (show 0x80001030 + k < 2 ^ 64 by omega), by decide⟩

/-- The reservation of B7; whether the store then succeeds is free. -/
def holding : State := { lrsc with reservation := some ⟨0x80001000, 64⟩ }

theorem witness_StoreConditionalByteCompletes :
    memoryWf holding = true ∧ DataAuthorised holding 10#5 1 .store ∧
      MainMemory holding.cfg (lrScAddrOf holding 10#5) 1 ∧ pcAdvances holding = true ∧ reserved holding 0x80001030 1 = true :=
  ⟨by decide, dataAuth_int 0x80001030#64 1 .store (by decide) holding rfl rfl (by decide) 10#5 (by decide),
    fun k hk => main_common (show 0x80001030 + k < 2 ^ 64 by omega), by decide, by decide⟩

/-- At the last halfword of the granule. -/
theorem witness_StoreConditionalHalfCompletes :
    let s := setX holding 10#5 0x8000103e#64
    memoryWf s = true ∧ DataAuthorised s 10#5 2 .store ∧ lrScAddrOf s 10#5 % 2 = 0 ∧
      MainMemory s.cfg (lrScAddrOf s 10#5) 2 ∧ pcAdvances s = true ∧ reserved s 0x8000103e 2 = true :=
  ⟨by decide, dataAuth_int 0x8000103e#64 2 .store (by decide) (setX holding 10#5 0x8000103e#64) rfl rfl (by decide) 10#5 (by decide), by decide,
    fun k hk => main_common (show 0x8000103e + k < 2 ^ 64 by omega), by decide, by decide⟩

theorem witness_LrScFailsTheCheckOfItsAuthority :
    let capAt (s : State) := setX s 10#5 0x80001030#64
    let bare := setCsrs lrsc { lrsc.csrs with ddc := Cap.null 0#64 }
    mode (capAt cap) = .cap ∧ authorises cap.cfg (readC (capAt cap) 10#5) 0x80001030#64 1 .load = false ∧
      authorises cap.cfg (readC (capAt cap) 10#5) 0x80001030#64 2 .store = false ∧
      mode bare ≠ .cap ∧ bare.cfg.hasHybrid = true ∧
      authorises bare.cfg (readVal bare.cfg bare.csrs .ddc) 0x80001030#64 2 .load = false ∧
      authorises bare.cfg (readVal bare.cfg bare.csrs .ddc) 0x80001030#64 1 .store = false := by decide

theorem witness_MisalignedHalfRaises :
    let s := setX lrsc 10#5 0x80001031#64
    lrScAddrOf s 10#5 % 2 = 1 ∧ DataAuthorised s 10#5 2 .load ∧ DataAuthorised s 10#5 2 .store :=
  ⟨by decide, dataAuth_int 0x80001031#64 2 .load (by decide) (setX lrsc 10#5 0x80001031#64) rfl rfl (by decide) 10#5 (by decide),
    dataAuth_int 0x80001031#64 2 .store (by decide) (setX lrsc 10#5 0x80001031#64) rfl rfl (by decide) 10#5 (by decide)⟩

/-- On a hart with no CHERI extension nothing has to be authorised; the three answers of memory at address 0, and a halfword
whose second byte fails. -/
theorem witness_MemoryFaultsOfLrAndSc :
    let bare (s : State) := setCfg s { s.cfg with cheri := .absent }
    let half := setX (bare halfMemory) 10#5 0x80000000#64
    (∀ n kind, DataAuthorised (bare (memoryOf .accessFault)) 10#5 n kind) ∧
      FirstFails (bare (memoryOf .accessFault)).cfg 0 0 (some .accessFault) ∧
      FirstFails (bare (memoryOf .pageFault)).cfg 0 0 (some .pageFault) ∧ FirstFails (bare noMemory).cfg 0 0 none ∧
      lrScAddrOf (bare noMemory) 10#5 = 0 ∧ lrScAddrOf half 10#5 % 2 = 0 ∧
      regionAt half.cfg (lrScAddrOf half 10#5) = some .main ∧
      regionAt { half.cfg with regions := [⟨0x80000000, 1, .main⟩] } (lrScAddrOf half 10#5 + 1) = none := by
  refine ⟨fun n kind auth e => ?_, firstFails_at _ _ _ (by decide) (by decide), firstFails_at _ _ _ (by decide) (by decide),
    firstFails_at _ _ _ (by decide) (by decide), by decide, by decide, by decide, by decide⟩
  rw [show dataAuth (setCfg (memoryOf .accessFault) { (memoryOf .accessFault).cfg with cheri := .absent }) 10#5 = none by
    decide] at e
  cases e

/-- From `Off` to Integer Mode; and, in Capability Mode, with other bits of `menvcfg` and `senvcfg`. -/
theorem witness_CreDoesNotControlLrScAndSh4add :
    notCreControlled (.scH 6#5 10#5 7#5 false false) = true ∧
      (mode (withCreWords creSet off) = .cap ↔ mode off = .cap) ∧ mode off = .off ∧
      mode (withCreWords creSet off) = .int ∧
      (mode (withCreWords { creSet with menvcfg := 0x10000000#64, senvcfg := 0x10000000#64 } cap) = .cap ↔ mode cap = .cap) := by
  decide

/-- `mepcc` is accessible in every mode to machine mode. -/
theorem accessible_mepcc (s : State) (writes : Bool) (hc : s.cfg = HartConfig.common) (hp : s.priv = .M) :
    CsrAccessible s 0x341#12 writes (.cap .mepcc .extended) where
  target := by rw [hc, hp]; decide
  known := by decide
  privilege := by rw [csrPrivOk, hc, hp]; decide
  writable := fun _ => by decide
  enabled := by simp

/-- `ddc` is accessible with the effective CRE 1. -/
theorem accessible_ddc (s : State) (writes : Bool) (hc : s.cfg = HartConfig.common) (hp : s.priv = .M)
    (hm : mode s ≠ .off) : CsrAccessible s 0x416#12 writes (.cap .ddc .newCap) where
  target := by rw [hc, hp]; decide
  known := by decide
  privilege := by rw [csrPrivOk, hc, hp]; decide
  writable := fun _ => by decide
  enabled := fun _ _ => hm

theorem witness_CsrrwOnExtendedCsrFollowsTheMode :
    CsrAccessible cap 0x341#12 true (.cap .mepcc .extended) ∧ mode cap = .cap ∧
      CsrAccessible off 0x341#12 true (.cap .mepcc .extended) ∧ mode off ≠ .cap ∧ pcAdvances cap = true ∧
      pcAdvances off = true :=
  ⟨accessible_mepcc cap true rfl rfl, by decide, accessible_mepcc off true rfl rfl, by decide, by decide, by decide⟩

theorem witness_CsrrwOnNewCapCsrMovesClenBits :
    CsrAccessible int 0x416#12 true (.cap .ddc .newCap) ∧ CsrAccessible cap 0x416#12 true (.cap .ddc .newCap) ∧
      pcAdvances int = true ∧ pcAdvances cap = true :=
  ⟨accessible_ddc int true rfl rfl (by decide), accessible_ddc cap true rfl rfl (by decide), by decide, by decide⟩

/-- A base-only hart is in Capability Mode. -/
def baseOnly : State := setCfg off { off.cfg with cheri := .base }

theorem witness_CsrrwOnBaseOnlyHartMovesClenBits :
    baseOnly.cfg.hasHybrid = false ∧ CsrAccessible baseOnly 0x341#12 true (.cap .mepcc .extended) ∧
      pcAdvances baseOnly = true :=
  ⟨by decide, ⟨by decide, by decide, by decide, fun _ => by decide, by simp⟩, by decide⟩

theorem witness_OtherFiveWriteXlenBitsInEveryMode :
    CsrAccessible cap 0x341#12 true (.cap .mepcc .extended) ∧ CsrAccessible off 0x341#12 true (.cap .mepcc .extended) ∧
      CsrAccessible int 0x416#12 true (.cap .ddc .newCap) ∧ pcAdvances int = true ∧ (31#5 : RegNum) ≠ 0#5 :=
  ⟨accessible_mepcc cap true rfl rfl, accessible_mepcc off true rfl rfl, accessible_ddc int true rfl rfl (by decide),
    by decide, by decide⟩

theorem witness_CsrSetAndClearWriteXlenBits :
    CsrAccessible int 0x416#12 ((0#5 : RegNum) != 0#5) (.cap .ddc .newCap) ∧
      CsrAccessible off 0x341#12 ((5#5 : RegNum) != 0#5) (.cap .mepcc .extended) ∧ pcAdvances int = true :=
  ⟨accessible_ddc int _ rfl rfl (by decide), accessible_mepcc off _ rfl rfl, by decide⟩

theorem witness_CsrrwiWritesXlenBits :
    CsrAccessible cap 0x341#12 true (.cap .mepcc .extended) ∧ pcAdvances cap = true :=
  ⟨accessible_mepcc cap true rfl rfl, by decide⟩

theorem witness_CsrSetAndClearImmediateWriteXlenBits :
    CsrAccessible cap 0x416#12 ((0#5 : BitVec 5) != 0#5) (.cap .ddc .newCap) ∧
      CsrAccessible off 0x341#12 ((31#5 : BitVec 5) != 0#5) (.cap .mepcc .extended) ∧ pcAdvances cap = true :=
  ⟨accessible_ddc cap _ rfl rfl (by decide), accessible_mepcc off _ rfl rfl, by decide⟩

/-- A base CSR; and, on a hart without the base extension, the XLEN-wide `mepc`. -/
theorem witness_BaseCsrsAreXlenWide :
    let bare := setCfg off { off.cfg with cheri := .absent }
    pcAdvances off = true ∧ (∀ w, CsrAccessible off 0x300#12 w (.base .mstatus)) ∧
      pcAdvances bare = true ∧ (∀ w, CsrAccessible bare 0x341#12 w (.narrow .mepcc)) :=
  ⟨by decide, fun w => ⟨by decide, by decide, by decide, fun _ => by decide, by simp⟩,
    by decide, fun w => ⟨by decide, by decide, by decide, fun _ => by decide, by simp⟩⟩

theorem witness_BaseCsrWritesTouchOneWord :
    BaseCsr.sstatus ≠ .mcause ∧ statusView .mcause = false ∧ statusView .hstatus = false ∧
      mppSupported .common (mppOf 0x1800#64) = true := by decide

/-- User mode asks for a machine CSR; machine mode writes a read-only number; `senvcfg` without supervisor mode. -/
theorem witness_FailedCsrChecksAreIllegal :
    csrPrivOk { off with priv := .U } 0x341#12 = false ∧ csrReadOnly 0xf11#12 = true ∧
      csrUse (.csrrw 0#5 0xf11#12 0#5) = some (0xf11#12, true) ∧
      csrTarget { off.cfg with levels := .m } .M 0x10a#12 = .absent := by decide

theorem witness_NewCapCsrIsIllegalInOffMode :
    csrUse (.csrrs 5#5 0x416#12 0#5) = some (0x416#12, false) ∧ csrTarget off.cfg off.priv 0x416#12 = .cap .ddc .newCap ∧
      mode off = .off := by decide

theorem witness_UnknownCsrIsRefused :
    csrUse (.csrrs 5#5 0xc00#12 0#5) = some (0xc00#12, false) ∧ csrPrivOk off 0xc00#12 = true ∧
      csrTarget off.cfg off.priv 0xc00#12 = .unknown := by decide

theorem witness_XlenWriteKeepsMetadata :
    cfg32.wf = true ∧ mapWf (Cap.null 0#64) off32.csrs.extra = true ∧ (heldVal cfg32 off32.csrs .mepcc).tag = true ∧
      isTvecc .mepcc = false ∧
      validAddr cfg32 (cfg32.xlen.trunc (alignFor cfg32 true .mepcc (legalAddr cfg32 .mepcc 0#64 0x104#64))) = true ∧
      vectorInRange cfg32 { infiniteCap cfg32 0#64 with addr := cfg32.xlen.trunc 0x105#64 } = true := by decide

theorem witness_ClenWriteStoresMetadata :
    cfg32.wf = true ∧ mapWf (Cap.null 0#64) off32.csrs.extra = true ∧
      (Cap.fits cfg32.xlen ⟨true, 6#64, 0x104#64⟩) = true ∧ isTvecc .ddc = false ∧
      (infiniteCap cfg32 0x100#64).fits cfg32.xlen = true ∧
      vectorInRange cfg32 (infiniteCap cfg32 0x100#64) = true ∧
      isFull { cfg32 with fullWidth := [0x305#12] } .mtvecc = true ∧
      validAddr cfg32 (cfg32.xlen.trunc (alignFor cfg32 true .ddc (legalAddr cfg32 .ddc 0#64 0x104#64))) = true := by
  decide

theorem witness_ReservedBitsAreNotStored :
    isFull .common .mepcc = false ∧ isFull .common .mtvecc = false ∧ isEpcc .mtvecc = false := by decide

/-- Whether an address is invalid is a free value on a hart with XLEN = 64, so only the valid case has a witness. -/
theorem witness_InvalidAddressesStayInvalid :
    isPointer .common .mtvecc = true ∧ isPointer cfg32 .mtvecc = true ∧ validAddr cfg32 0x100#64 = true ∧
      cfg32.xlen = .rv32 := by decide

theorem witness_EpccReadsAreLegalized :
    bit (infiniteCap .common 0x80000002#64).addr 0 = false ∧ isEpcc .sepcc = true := by decide

theorem witness_InfiniteCapabilitySurvivesWrites :
    HartConfig.common.wf = true ∧ CapCsr.mtvecc ∈ namedCaps ∧ (infiniteCap .common 0x100#64).fits .rv64 = true ∧
      isInfinite .common (infiniteCap .common 0x100#64) = true ∧ (off.csrs.get .mtvecc).fits .rv64 = true ∧
      isInfinite .common (heldVal .common off.csrs .mtvecc) = true := by decide

theorem witness_CapCsrWritesTouchOneCsr : mapWf (Cap.null 0#64) off.csrs.extra = true ∧ CapCsr.ddc ≠ .mepcc := by decide

theorem witness_CreWriteActsOnTheNextInstruction :
    off.cfg.wf = true ∧ off.cfg.hasHybrid = true ∧ off.priv = .M ∧ pcAdvances off = true := by decide

theorem witness_ModeswCapSwitchesToCapMode :
    let excluded := setCfg int { int.cfg with modeswCapInInt := false }
    int.cfg.hasHybrid = true ∧ int.cfg.mBitPos < 64 ∧ mode off = .off ∧ mode excluded = .int ∧
      excluded.cfg.modeswCapInInt = false ∧ HybridLegal int int.cfg.modeswCapInInt ∧ pcAdvances int = true :=
  ⟨by decide, by decide, by decide, by decide, by decide, ⟨by decide, by decide⟩, by decide⟩

theorem witness_ModeswIntSwitchesToIntMode :
    let excluded := setCfg int { int.cfg with modeswIntInInt := false }
    cap.cfg.hasHybrid = true ∧ cap.cfg.mBitPos < 64 ∧ mode off = .off ∧ mode excluded = .int ∧
      excluded.cfg.modeswIntInInt = false ∧ HybridLegal cap cap.cfg.modeswIntInInt ∧ pcAdvances cap = true :=
  ⟨by decide, by decide, by decide, by decide, by decide, ⟨by decide, by decide⟩, by decide⟩

theorem witness_ScmodeWritesTheCapability :
    let excluded := setCfg int { int.cfg with scmodeInInt := false }
    int.cfg.hasHybrid = true ∧ mode off = .off ∧ mode excluded = .int ∧ excluded.cfg.scmodeInInt = false ∧
      HybridLegal int int.cfg.scmodeInInt ∧ pcAdvances int = true :=
  ⟨by decide, by decide, by decide, by decide, ⟨by decide, by decide⟩, by decide⟩

/-- A CHERI word that is present with the base extension and valid in Capability Mode only, and JAL as an instruction of
Integer Mode only. -/
def knowing (s : State) : State :=
  setCfg s { s.cfg with
    knownWords := [⟨⟨0x0000005b#32, 0x0000007f#32⟩, some (.needs [[.base]]), some .capOnly⟩,
      ⟨⟨0x0000006f#32, 0x0000007f#32⟩, none, some .intOnly⟩] }

/-- R64, outcome 2: the word of no CHERI instruction is illegal in the mode its class excludes and in which the spec states
no meaning of it, and runs in the other. -/
theorem test_class_of_a_base_word :
    nextIs (withoutRow (.noRow 0x0080006f#32) (knowing cap)) (fun t => t.csrs.mcause == 2#64) = true ∧
      nextIs (withoutRow (.noRow 0x0080006f#32) (knowing int)) (fun t => t.pcc.addr == 0x80000008#64) = true := by decide

/-- R142, R91: a CHERI word is illegal with the effective CRE 0, unless it is not present on the hart. -/
theorem test_cheri_word_in_off_mode :
    nextIs (withoutRow (.noRow 0x0000005b#32) (knowing off)) (fun t => t.csrs.mcause == 2#64) = true ∧
      refusalIs (withoutRow (.noRow 0x0000005b#32) (setCfg (knowing off) { (knowing off).cfg with cheri := .absent }))
        (.noMeaning 0x0000005b#32) = true := by decide

/-- The common hart without Zabhlrsc that knows every word and parcel as a CHERI instruction of Capability Mode only, and
remaps the parcel 0x0000. -/
def knowingAll (s : State) : State :=
  setCfg s { s.cfg with
    hasZabhlrsc := false, remapCompressed := [(0#16, .modeswInt)],
    knownWords := [⟨⟨0#32, 0#32⟩, some (.needs [[.base]]), some .capOnly⟩] }

/-- R64, R65: neither LR.B on a hart without Zabhlrsc nor LR.B with rs2 = 1 is illegal, although both are known; the word of
no row next to them is. -/
theorem test_word_of_an_absent_row_is_not_illegal :
    nextIs (withoutRow (.noRow 0x1000202f#32) (knowingAll int)) (fun t => t.csrs.mcause == 2#64) = true ∧
      refusalIs (withoutRow (.noRow 0x1000002f#32) (knowingAll int)) (.noMeaning 0x1000002f#32) = true ∧
      refusalIs (withoutRow (.noRow 0x1010002f#32) (knowingAll int)) (.noMeaning 0x1010002f#32) = true := by decide

/-- R143, R144: a remapped parcel keeps its standard meaning in Integer Mode, although its class excludes that mode; another
parcel of that class is illegal. -/
theorem test_remapped_parcel_is_not_illegal_in_int :
    refusalIs (withoutRow (.compressed 0#16) (knowingAll int)) (.compressedBase 0#16) = true ∧
      nextIs (withoutRow (.compressed 4#16) (knowingAll int)) (fun t => t.csrs.mcause == 2#64) = true := by decide

/-- R168: ECALL (code 11 from machine mode) and MRET have their meaning with the effective CRE 0, and FENCE in Integer Mode,
although every word is known as a CHERI instruction of Capability Mode only. -/
theorem test_environment_words_are_never_illegal :
    nextIs (withoutRow (.noRow 0x00000073#32) (knowingAll off)) (fun t => t.csrs.mcause == 11#64) = true ∧
      nextIs (withoutRow (.noRow 0x30200073#32) (knowingAll off)) (fun t => t.csrs.mcause == 0#64) = true ∧
      nextIs (withoutRow (.noRow 0x0ff0000f#32) (knowingAll int)) (fun t => t.pcc.addr == 0x80000004#64) = true := by decide

/-- R142, R148: of opcode 0x0f and funct3 2 only the family's four cache-block words are base words; a CHERI word in the same
slot, here with rd = 5 and with an immediate of no such word, is illegal with the effective CRE 0. -/
theorem test_cache_block_words :
    decodeBase 0x0010a00f#32 = some .cacheBlock ∧
      refusalIs (withoutRow (.noRow 0x0010a00f#32) (knowingAll off)) (.noMeaning 0x0010a00f#32) = true ∧
      nextIs (withoutRow (.noRow 0x0000228f#32) (knowingAll off)) (fun t => t.csrs.mcause == 2#64) = true ∧
      nextIs (withoutRow (.noRow 0x0030a00f#32) (knowingAll off)) (fun t => t.csrs.mcause == 2#64) = true := by decide

theorem witness_HybridInstructionsOutsideTheirModes :
    let excluded := setCfg int { int.cfg with scmodeInInt := false }
    hybridUse off.cfg .modeswCap = some true ∧ off.cfg.hasHybrid = true ∧ mode off = .off ∧
      hybridUse excluded.cfg (.scmode 5#5 6#5 7#5) = some false ∧ excluded.cfg.hasHybrid = true ∧
      mode excluded = .int ∧ ({ off.cfg with cheri := .base } : HartConfig).hasHybrid = false ∧
      (knownWord (knowing off).cfg 0x5b#32).any (fun k => isPresent (knowing off).cfg k == some true &&
        k.cheri.isSome && k.cls == some .capOnly) = true ∧ mode (knowing off) = .off ∧ mode (knowing int) = .int ∧
      (knownWord (knowing cap).cfg 0x6f#32).any (fun k => isPresent (knowing cap).cfg k == some true &&
        k.cls == some .intOnly) = true ∧ mode (knowing cap) = .cap ∧
      decodeBase 0x5b#32 = none ∧ decodeBase 0x6f#32 = some (.jal 0#5 0#64) ∧
      baseMeaningStated .cap (.jal 0#5 0#64) = false ∧ decodeBase 0x73#32 = some .ecall ∧
      baseMeaningStated (mode off) .ecall = true ∧
      (knownWord (knowingAll int).cfg 4#32).any (fun k => isPresent (knowingAll int).cfg k == some true &&
        k.cls == some .capOnly) = true ∧ isRemapped (knowingAll int).cfg 4#16 = false ∧
      isRowWord (knowingAll int).cfg 0x1010002f#32 = true ∧ decodeBase 0x1010002f#32 = none ∧
      isRowWord { off.cfg with encModeswCap := some ⟨0x0000006f#32, 0x0000007f#32⟩ } 0x0080006f#32 = true ∧
      (decodeBase 0x0080006f#32).isSome = true ∧
      isRemapped (knowingAll int).cfg 0#16 = true ∧ mode (knowingAll int) ≠ .cap := by decide

theorem witness_MachineTrapEntrySavesAndVectors :
    (readVal off.cfg off.csrs .mtvecc).addr &&& 3#64 ≠ 1#64 ∧
      (readVal off.cfg (vectored off).csrs .mtvecc).addr &&& 3#64 = 1#64 := by decide

theorem witness_SupervisorTrapEntrySavesAndVectors :
    let f := { off.csrs with stvecc := infiniteCap off.cfg 0x101#64, vstvecc := infiniteCap off.cfg 0x201#64 }
    (readVal off.cfg off.csrs .stvecc).addr &&& 3#64 ≠ 1#64 ∧ (readVal off.cfg f .stvecc).addr &&& 3#64 = 1#64 ∧
      (readVal off.cfg f .vstvecc).addr &&& 3#64 = 1#64 ∧ off.cfg.hasH = true := by decide

/-- A trap clears the reservation where the configuration says so (R35). -/
theorem test_trap_clears_reservation :
    (takeException (setCfg { off with reservation := some ⟨0, 64⟩ } { off.cfg with clearsReservation := [.exception] })
      2 0#64).reservation = none ∧
      (takeException { off with reservation := some ⟨0, 64⟩ } 2 0#64).reservation = some ⟨0, 64⟩ := by decide

theorem witness_ExceptionsFollowDelegation :
    let deleg := setCsrs off { off.csrs with medeleg := 4#64 }
    off.priv = .M ∧ bit off.csrs.medeleg 2 = false ∧ deleg.cfg.hasS = true ∧ bit deleg.csrs.medeleg 2 = true ∧
      ({ deleg with priv := .VU } : State).priv = .VU ∧ bit deleg.csrs.hedeleg 2 = false := by decide

theorem witness_TrapReturnRestores : mppSupported off.cfg (mppOf off.csrs.mstatus) = true ∧ off.cfg.hasH = true := by decide

theorem witness_MachineReturnUndoesMachineEntry :
    off.cfg.supports off.priv = true ∧ off.cfg.supports .VU = true := by decide

theorem witness_InfiniteCapabilityAuthorises :
    (0xffffffffffffffff#64).toNat + 1 ≤ 2 ^ HartConfig.common.xlen.bits ∧
      (0#64).toNat + 2 ^ 64 ≤ 2 ^ HartConfig.common.xlen.bits := by decide

/-- The last clause but one needs a hart whose `misa.C` is clear; a jump at the top of the address space links nothing. -/
theorem witness_JalLinksAnInteger :
    let top := setPc off 0xfffffffffffffffc#64
    mode off ≠ .cap ∧ pcAdvances off = true ∧ misaC off.csrs = true ∧
      bit (off.cfg.xlen.trunc (off.pcc.addr + 8#64)) 1 = false ∧ mode cap = .cap ∧
      mode top ≠ .cap ∧ pcAdvances top = false ∧
      misaC (setCsrs off { off.csrs with misa := 0#64 }).csrs = false ∧
      bit (off.cfg.xlen.trunc (off.pcc.addr + 6#64)) 1 = true := by decide

theorem witness_ReturnsNeedTheirPrivilege :
    off.priv = .M ∧ ({ off with priv := .VS } : State).priv ≠ .M ∧ off.cfg.hasS = true := by decide

/-- A store-conditional without a reservation, from a state that meets the invariant. -/
def stepping : State := (setX off 10#5 0x80001030#64).withFetchWord 32 0x1875032f

theorem inv_stepping : Inv stepping :=
  ⟨by decide, by decide, by decide, by decide, by decide, by decide⟩

theorem steps_stepping : ∃ t, step stepping = .next t :=
  next_of_nextIs (p := fun t => readX t 6#5 == 1#64) (by decide)

theorem witness_StepKeepsTheInvariant : Inv stepping ∧ ∃ t, step stepping = .next t := ⟨inv_stepping, steps_stepping⟩

theorem witness_OffModeKeepsTheStandardProviso :
    Inv stepping ∧ stepping.cfg.hasHybrid = true ∧ mode stepping = .off ∧ standardProviso stepping = true ∧
      ∃ t, step stepping = .next t :=
  ⟨inv_stepping, by decide, by decide, by decide, steps_stepping⟩

theorem witness_StepKeepsTheConfiguration : ∃ t, step stepping = .next t := steps_stepping

theorem witness_OnlyModeswAndTrapsChangePccMetadata : ∃ t, exec (.sh4add 5#5 6#5 7#5) off = .next t :=
  next_of_nextIs (p := fun _ => true) (by decide)

theorem witness_OnlyStoreConditionalsWriteMemory :
    memoryWf stepping = true ∧ (∃ t, exec (.scB 6#5 10#5 7#5 false false) stepping = .next t) ∧
      ∃ t, exec (.csrrw 5#5 0x416#12 6#5) off = .next t ∧ ∃ code tval, t = takeException off code tval :=
  ⟨by decide, next_of_nextIs (p := fun t => readX t 6#5 == 1#64) (by decide), _, rfl, _, _, rfl⟩

theorem witness_MachineCsrsAreOutOfReachBelowMachineMode :
    let user : State := { off with priv := .S }
    user.priv ≠ .M ∧ ∃ t, exec (.csrrw 5#5 0x142#12 6#5) user = .next t :=
  ⟨by decide, next_of_nextIs (p := fun t => t.priv == .S) (by decide)⟩

theorem witness_PcWrapIsRefused :
    let s := setPc off 0xfffffffffffffffc#64
    mode s ≠ .cap ∧ pcAdvances s = false := by decide

end Sys2Proof.Tests
end

