-- ==== Sys2Proof/Proofs/ModeSwitch.lean ====
section
/-! PROOF. MODESW_CAP and MODESW_INT (spec/43_cheri_hybrid.md R101, R102). Both are the check of the hybrid instructions and
then one write of `pcc.m`, so one argument over the value written serves the two. -/

namespace Sys2Proof.Proofs

open Sys2Proof.Machine Sys2Proof.Safety Sys2Proof.Laws

/-! ### The M bit and the mode (R11, R141) -/

/-- On a hart with an M bit, writing a mode value is writing that one bit. -/
theorem withM_eq_setBit {c : HartConfig} (hybrid : c.hasHybrid = true) (m : Bool) (md : XWord) :
    withM c m md = setBit md c.mBitPos m := by
  simp [withM, HartConfig.mMask, hybrid, setBit]

theorem getLsbD_withM {c : HartConfig} (hybrid : c.hasHybrid = true) (pos : c.mBitPos < 64) (m : Bool) (md : XWord)
    (k : Nat) : (withM c m md).getLsbD k = if k = c.mBitPos then m else md.getLsbD k := by
  rw [withM_eq_setBit hybrid]
  exact bit_setBit md pos m k

theorem mode_of_hybrid {s : State} (hybrid : s.cfg.hasHybrid = true) :
    mode s = if effCre s then (if mOf s.cfg s.pcc = s.cfg.capModeValue then .cap else .int) else .off := by
  have cheri : s.cfg.cheri = .hybrid := by simpa [HartConfig.hasHybrid] using hybrid
  cases cre : effCre s <;> simp [mode, cheri, cre]

theorem effCre_of_mode_ne_off {s : State} (hybrid : s.cfg.hasHybrid = true) (h : mode s ≠ .off) : effCre s = true := by
  rw [mode_of_hybrid hybrid] at h
  by_contra cre
  exact h (if_neg cre)

/-! ### The check of the hybrid instructions (R104, R142, R144) -/

theorem hybridCheck_off {s : State} {validInInt : Bool} (hybrid : s.cfg.hasHybrid = true) (h : mode s = .off) :
    hybridCheck s validInInt = .error (illegalInstruction s) := by
  simp [hybridCheck, hybrid, h]

theorem hybridCheck_excluded {s : State} {validInInt : Bool} (hybrid : s.cfg.hasHybrid = true) (h : mode s = .int)
    (excluded : validInInt = false) : hybridCheck s validInInt = .error (illegalInstruction s) := by
  simp [hybridCheck, hybrid, h, excluded]

theorem hybridCheck_legal {s : State} {validInInt : Bool} (hybrid : s.cfg.hasHybrid = true)
    (legal : HybridLegal s validInInt) : hybridCheck s validInInt = .ok () := by
  obtain ⟨notOff, inInt⟩ := legal
  simpa [hybridCheck, hybrid, notOff] using inInt

/-- A hybrid instruction that fails its check is illegal, whatever it would have done. -/
theorem finish_map_illegal {s : State} {x : Except Stop Unit} (h : x = .error (illegalInstruction s)) (f : Unit → State) :
    finish 4 s (x.map f) = Illegal s := by
  subst h
  rfl

/-! ### The switch -/

/-- `pcc.m <- m`, then `next`. -/
def switchTo (m : Bool) (s : State) : State := setPc (setMode s m) (pc s + 4#64)

/-- A switch whose check passes ends in the switched state. -/
theorem finish_map_setMode {s : State} {x : Except Stop Unit} (h : x = .ok ()) (adv : pcAdvances s = true) (m : Bool) :
    finish 4 s (x.map fun _ => setMode s m) = .next (switchTo m s) := by
  subst h
  have adv : pcAdvances (setMode s m) = true := adv
  show finish 4 s (.ok (setMode s m)) = _
  rw [finish_ok, advanceBy_ok adv]
  rfl

theorem switchedTo_switchTo {s : State} (hybrid : s.cfg.hasHybrid = true) (pos : s.cfg.mBitPos < 64)
    (adv : pcAdvances s = true) (m : Bool) : SwitchedTo m s (switchTo m s) where
  mode := by
    show (withM s.cfg m s.pcc.md).getLsbD s.cfg.mBitPos = m
    rw [getLsbD_withM hybrid pos, if_pos rfl]
  md k hk := by
    show (withM s.cfg m s.pcc.md).getLsbD k = _
    rw [getLsbD_withM hybrid pos, if_neg hk]
  tag := rfl
  pc := trunc_next adv
  rest := rfl

/-- A switch leaves what the effective CRE depends on, so the M bit alone decides the mode after one made outside `Off`. -/
theorem mode_of_switchedTo {m : Bool} {s t : State} (hybrid : s.cfg.hasHybrid = true) (notOff : mode s ≠ .off)
    (h : SwitchedTo m s t) : mode t = if m = s.cfg.capModeValue then .cap else .int := by
  have cfg : t.cfg = s.cfg := by rw [h.rest]
  have sameCre : effCre t = effCre s := by rw [h.rest]; rfl
  have cre : effCre t = true := sameCre.trans (effCre_of_mode_ne_off hybrid notOff)
  rw [mode_of_hybrid (by rw [cfg, hybrid]), if_pos cre, cfg, h.mode]

/-- A legal switch, whichever value it writes: it runs, changes `pcc.m` and the pc alone, and the value decides the mode. -/
theorem switch_runs {s : State} {validInInt : Bool} (hybrid : s.cfg.hasHybrid = true) (pos : s.cfg.mBitPos < 64)
    (legal : HybridLegal s validInInt) (adv : pcAdvances s = true) (m : Bool) :
    ∃ t, finish 4 s ((hybridCheck s validInInt).map fun _ => setMode s m) = .next t ∧ SwitchedTo m s t ∧
      mode t = if m = s.cfg.capModeValue then .cap else .int :=
  have switched := switchedTo_switchTo hybrid pos adv m
  ⟨_, finish_map_setMode (hybridCheck_legal hybrid legal) adv m, switched, mode_of_switchedTo hybrid legal.1 switched⟩

/-! ### The two instructions -/

theorem exec_modeswCap (s : State) :
    exec .modeswCap s = finish 4 s ((hybridCheck s s.cfg.modeswCapInInt).map fun _ => setMode s s.cfg.capModeValue) := rfl

theorem exec_modeswInt (s : State) :
    exec .modeswInt s = finish 4 s ((hybridCheck s s.cfg.modeswIntInInt).map fun _ => setMode s s.cfg.intModeValue) := rfl

/-- Settles O41: the check decides the two illegal cases, and a legal switch to CAP_MODE_VALUE ends in Capability Mode. -/
theorem modeswCapSwitchesToCapMode : Obligations.ModeswCapSwitchesToCapMode := by
  intro s hybrid pos
  rw [exec_modeswCap]
  refine ⟨fun off => finish_map_illegal (hybridCheck_off hybrid off) _,
    fun int excluded => finish_map_illegal (hybridCheck_excluded hybrid int excluded) _, fun legal adv => ?_⟩
  have runs := switch_runs hybrid pos legal adv s.cfg.capModeValue
  rwa [if_pos rfl] at runs

/-- Settles O42: as O41, with INT_MODE_VALUE, which is not CAP_MODE_VALUE. -/
theorem modeswIntSwitchesToIntMode : Obligations.ModeswIntSwitchesToIntMode := by
  intro s hybrid pos
  rw [exec_modeswInt]
  refine ⟨fun off => finish_map_illegal (hybridCheck_off hybrid off) _,
    fun int excluded => finish_map_illegal (hybridCheck_excluded hybrid int excluded) _, fun legal adv => ?_⟩
  have runs := switch_runs hybrid pos legal adv s.cfg.intModeValue
  have notCap : s.cfg.intModeValue ≠ s.cfg.capModeValue := Bool.not_ne_self _
  rwa [if_neg notCap] at runs

end Sys2Proof.Proofs
end

section
/-! PROOF. The checks of a CSR access (spec/44_csr_access.md R110, R115). A CSR instruction, whichever of the six, is its
checks and then an act on the target, so an access that fails its checks ends the same way for all of them. -/

namespace Sys2Proof.Proofs

open Sys2Proof.Machine Sys2Proof.Safety Sys2Proof.Laws

/-- The six CSR instructions have one form, over the number and the write that `csrUse` gives. -/
theorem body_of_csrUse {i : Instr} {num : CsrNum} {writes : Bool} (use : csrUse i = some (num, writes)) (s : State) :
    ∃ act, body i s = csrBody s num writes act := by
  cases i <;> cases use <;> exact ⟨_, rfl⟩

/-- A CSR instruction that fails a check ends with what the check raised, whatever it would have done. -/
theorem exec_of_csrCheck_error {s : State} {i : Instr} {num : CsrNum} {writes : Bool} {e : Stop}
    (use : csrUse i = some (num, writes)) (failed : csrCheck s num writes = .error e) :
    exec i s = settle s (.error e) := by
  obtain ⟨act, isCsr⟩ := body_of_csrUse use s
  have stops : csrBody s num writes act = .error e := by rw [csrBody, failed]; rfl
  rw [exec_eq_finish, isCsr, stops, finish_error]

/-- With the effective CRE 0 the check of a new capability CSR fails: at the privilege, at the read-only number, or else
at R115, and each of the three is illegal. -/
theorem csrCheck_newCap_off {s : State} {num : CsrNum} {id : CapCsr} (target : csrTarget s.cfg s.priv num = .cap id .newCap)
    (off : mode s = .off) (writes : Bool) : csrCheck s num writes = .error (illegalInstruction s) := by
  unfold csrCheck
  split
  case isTrue => rfl
  case isFalse =>
    split
    case isTrue => rfl
    case isFalse => simp [target, off]

/-- Settles O31: the check of the access is illegal, and it is all that any of the six instructions does. -/
theorem newCapCsrIsIllegalInOffMode : Obligations.NewCapCsrIsIllegalInOffMode := by
  intro s i num writes id use target off
  rw [exec_of_csrCheck_error use (csrCheck_newCap_off target off writes), settle_illegal]

end Sys2Proof.Proofs
end

section
/-! PROOF. The decoder and the encoder (spec/30_encoding.md R60 to R64). A word that hits a row is the word of the fields it
holds; and the word of an instruction misses every row that stands before its own. -/

namespace Sys2Proof.Proofs

open Sys2Proof.Machine Sys2Proof.Safety Sys2Proof.Laws

/-! ### The rows a word misses -/

theorem csrWord_hits (csr : CsrNum) (src : BitVec 5) (f : BitVec 3) (rd : RegNum) (pat : IWord) :
    Pattern.hits { pat, mask := 0x0000707f#32 } (csrWord csr src f rd) = (csrWord 0#12 0#5 f 0#5 == pat) := by
  rw [Pattern.hits, csrWord_and]

/-- The six CSR rows look at the opcode and `funct3` alone, so a word that is none by these misses them all. -/
theorem misses_csrRows {w : IWord} (h : w &&& 0x0000007f#32 ≠ 0x00000073#32) :
    rowCsrrw.hits w = false ∧ rowCsrrs.hits w = false ∧ rowCsrrc.hits w = false ∧ rowCsrrwi.hits w = false ∧
      rowCsrrsi.hits w = false ∧ rowCsrrci.hits w = false := by
  refine ⟨?_, ?_, ?_, ?_, ?_, ?_⟩ <;> exact hits_false 0x0000007f#32 (by decide) h

/-- The four rows of Zabhlrsc share one opcode. -/
theorem misses_amoRows {w : IWord} (h : w &&& 0x0000007f#32 ≠ 0x0000002f#32) :
    rowLrB.hits w = false ∧ rowLrH.hits w = false ∧ rowScB.hits w = false ∧ rowScH.hits w = false := by
  refine ⟨?_, ?_, ?_, ?_⟩ <;> exact hits_false 0x0000007f#32 (by decide) h

/-- The opcode of an AMO word. -/
theorem amoWord_opcode (f5 : BitVec 5) (aq rl : Bool) (rs2 rs1 : RegNum) (f : BitVec 3) (rd : RegNum) :
    amoWord f5 aq rl rs2 rs1 f rd &&& 0x0000007f#32 = 0x0000002f#32 := by
  have split : (0x0000007f#32 : IWord) = 0x0000707f#32 &&& 0x0000007f#32 := by decide
  rw [split, ← BitVec.and_assoc, amoWord_and_funct3]
  revert f
  decide

/-- The opcode of a word in R format. -/
theorem rWord_opcode (f7 : BitVec 7) (rs2 rs1 : RegNum) (f : BitVec 3) (rd : RegNum) (op : BitVec 7) :
    rWord f7 rs2 rs1 f rd op &&& 0x0000007f#32 = op.setWidth 32 := by
  have split : (0x0000007f#32 : IWord) = 0x0000707f#32 &&& 0x0000007f#32 := by decide
  rw [split, ← BitVec.and_assoc, rWord_and_funct3]
  revert f op
  decide

/-- What a supplied pattern says: its match lies within its mask, and no word hits both it and a row. -/
theorem supplied_apart {p : Pattern} (h : p.supplied = true) :
    p.pat &&& p.mask = p.pat ∧ ∀ q ∈ tableRows, p.apart q = true := by
  simp only [Pattern.supplied, Bool.and_eq_true, beq_iff_eq, List.all_eq_true] at h
  obtain ⟨⟨⟨within, -⟩, -⟩, apart⟩ := h
  exact ⟨within, apart⟩

/-- A word that hits a supplied pattern is left to the hybrid rows. -/
theorem decodeWord_of_supplied {c : HartConfig} {p : Pattern} {w : IWord} (h : p.supplied = true) (hits : p.hits w = true) :
    decodeWord c w = decodeHybrid c w := by
  have misses : ∀ q ∈ tableRows, q.hits w = false := fun q hq => misses_of_apart ((supplied_apart h).2 q hq) hits
  simp only [tableRows, List.forall_mem_cons, List.not_mem_nil, IsEmpty.forall_iff, implies_true, and_true] at misses
  simp [decodeWord, misses]

/-! ### The operands of SCMODE -/

theorem rOperands_eq_and (rs2 rs1 rd : RegNum) :
    rOperands rs2 rs1 rd = rOperands rs2 rs1 rd &&& rOperands 31#5 31#5 31#5 := by
  change (0#7 ++ rs2 ++ rs1 ++ 0#3 ++ rd ++ 0#7) =
    (0#7 ++ rs2 ++ rs1 ++ 0#3 ++ rd ++ 0#7) &&& (0#7 ++ BitVec.allOnes 5 ++ BitVec.allOnes 5 ++ 0#3 ++ BitVec.allOnes 5 ++ 0#7)
  simp only [BitVec.and_append, BitVec.and_zero, BitVec.and_allOnes]

/-- Bits beside the operand fields do not show in them. -/
theorem fields_or_rOperands {v : IWord} (free : v &&& rOperands 31#5 31#5 31#5 = 0#32) (rs2 rs1 rd : RegNum) :
    rdOf (v ||| rOperands rs2 rs1 rd) = rd ∧ rs1Of (v ||| rOperands rs2 rs1 rd) = rs1 ∧
      rs2Of (v ||| rOperands rs2 rs1 rd) = rs2 := by
  have zero {start : Nat} (ones : (rOperands 31#5 31#5 31#5).extractLsb' start 5 = BitVec.allOnes 5) :
      v.extractLsb' start 5 = 0#5 := by
    have := congrArg (BitVec.extractLsb' start 5) free
    rwa [BitVec.extractLsb'_and, ones, BitVec.and_allOnes, BitVec.extractLsb'_zero] at this
  have fields := rWord_fields 0#7 rs2 rs1 0#3 rd 0#7
  simp only [rdOf, rs1Of, rs2Of, rOperands, BitVec.extractLsb'_or] at fields ⊢
  rw [zero (by decide), zero (by decide), zero (by decide), BitVec.zero_or, BitVec.zero_or, BitVec.zero_or]
  exact fields

/-! ### Decoding what was encoded -/

/-- The rows of a CSR word are told apart by `funct3`. -/
theorem decodeWord_csrWord (c : HartConfig) (csr : CsrNum) (src : BitVec 5) (rd : RegNum) :
    decodeWord c (csrWord csr src 0b001#3 rd) = some (.csrrw rd csr src) ∧
    decodeWord c (csrWord csr src 0b010#3 rd) = some (.csrrs rd csr src) ∧
    decodeWord c (csrWord csr src 0b011#3 rd) = some (.csrrc rd csr src) ∧
    decodeWord c (csrWord csr src 0b101#3 rd) = some (.csrrwi rd csr src) ∧
    decodeWord c (csrWord csr src 0b110#3 rd) = some (.csrrsi rd csr src) ∧
    decodeWord c (csrWord csr src 0b111#3 rd) = some (.csrrci rd csr src) := by
  have fields (f : BitVec 3) := csrWord_fields csr src f rd
  have row (f : BitVec 3) (pat : IWord) := csrWord_hits csr src f rd pat
  unfold decodeWord rowCsrrw rowCsrrs rowCsrrc rowCsrrwi rowCsrrsi rowCsrrci
  simp only [row, fields]
  refine ⟨?_, ?_, ?_, ?_, ?_, ?_⟩ <;> rfl

theorem decodeWord_lrWord {c : HartConfig} (ext : c.hasZabhlrsc = true) (rd rs1 : RegNum) (aq rl : Bool) :
    decodeWord c (amoWord 0b00010#5 aq rl 0#5 rs1 0b000#3 rd) = some (.lrB rd rs1 aq rl) ∧
    decodeWord c (amoWord 0b00010#5 aq rl 0#5 rs1 0b001#3 rd) = some (.lrH rd rs1 aq rl) := by
  have notCsr (f : BitVec 3) := misses_csrRows (w := amoWord 0b00010#5 aq rl 0#5 rs1 f rd) (by rw [amoWord_opcode]; decide)
  have row (f : BitVec 3) := amoWord_and_lr 0b00010#5 aq rl 0#5 rs1 f rd
  have fields (f : BitVec 3) := amoWord_fields 0b00010#5 aq rl 0#5 rs1 f rd
  have order (f : BitVec 3) := amoWord_order 0b00010#5 aq rl 0#5 rs1 f rd
  constructor
  · have hit : rowLrB.hits (amoWord 0b00010#5 aq rl 0#5 rs1 0b000#3 rd) = true := by
      rw [Pattern.hits, rowLrB, row]; decide
    simp [decodeWord, notCsr, ext, hit, fields, order]
  · have miss : rowLrB.hits (amoWord 0b00010#5 aq rl 0#5 rs1 0b001#3 rd) = false := by
      rw [Pattern.hits, rowLrB, row]; decide
    have hit : rowLrH.hits (amoWord 0b00010#5 aq rl 0#5 rs1 0b001#3 rd) = true := by
      rw [Pattern.hits, rowLrH, row]; decide
    simp [decodeWord, notCsr, ext, miss, hit, fields, order]

theorem decodeWord_scWord {c : HartConfig} (ext : c.hasZabhlrsc = true) (rd rs1 rs2 : RegNum) (aq rl : Bool) :
    decodeWord c (amoWord 0b00011#5 aq rl rs2 rs1 0b000#3 rd) = some (.scB rd rs1 rs2 aq rl) ∧
    decodeWord c (amoWord 0b00011#5 aq rl rs2 rs1 0b001#3 rd) = some (.scH rd rs1 rs2 aq rl) := by
  have notCsr (f : BitVec 3) := misses_csrRows (w := amoWord 0b00011#5 aq rl rs2 rs1 f rd) (by rw [amoWord_opcode]; decide)
  have row (f : BitVec 3) := amoWord_and_sc 0b00011#5 aq rl rs2 rs1 f rd
  have fields (f : BitVec 3) := amoWord_fields 0b00011#5 aq rl rs2 rs1 f rd
  have order (f : BitVec 3) := amoWord_order 0b00011#5 aq rl rs2 rs1 f rd
  have notLr (f : BitVec 3) : rowLrB.hits (amoWord 0b00011#5 aq rl rs2 rs1 f rd) = false ∧
      rowLrH.hits (amoWord 0b00011#5 aq rl rs2 rs1 f rd) = false := by
    constructor <;> refine hits_false 0xf800707f#32 (by decide) ?_ <;> rw [row] <;> revert f <;> decide
  constructor
  · have hit : rowScB.hits (amoWord 0b00011#5 aq rl rs2 rs1 0b000#3 rd) = true := by
      rw [Pattern.hits, rowScB, row]; decide
    simp [decodeWord, notCsr, notLr, ext, hit, fields, order]
  · have miss : rowScB.hits (amoWord 0b00011#5 aq rl rs2 rs1 0b001#3 rd) = false := by
      rw [Pattern.hits, rowScB, row]; decide
    have hit : rowScH.hits (amoWord 0b00011#5 aq rl rs2 rs1 0b001#3 rd) = true := by
      rw [Pattern.hits, rowScH, row]; decide
    simp [decodeWord, notCsr, notLr, ext, miss, hit, fields, order]

theorem decodeWord_sh4addWord {c : HartConfig} (ext : c.hasZish4add = true) (rd rs1 rs2 : RegNum) :
    decodeWord c (rWord 0b0010000#7 rs2 rs1 0b111#3 rd 0b0110011#7) = some (.sh4add rd rs1 rs2) ∧
    (c.xlen = .rv64 →
      decodeWord c (rWord 0b0010000#7 rs2 rs1 0b111#3 rd 0b0111011#7) = some (.sh4addUw rd rs1 rs2)) := by
  have notCsr (op : BitVec 7) (h : op.setWidth 32 ≠ 0x00000073#32) :=
    misses_csrRows (w := rWord 0b0010000#7 rs2 rs1 0b111#3 rd op) (by rwa [rWord_opcode])
  have notAmo (op : BitVec 7) (h : op.setWidth 32 ≠ 0x0000002f#32) :=
    misses_amoRows (w := rWord 0b0010000#7 rs2 rs1 0b111#3 rd op) (by rwa [rWord_opcode])
  have row (op : BitVec 7) := rWord_and_row 0b0010000#7 rs2 rs1 0b111#3 rd op
  have fields (op : BitVec 7) := rWord_fields 0b0010000#7 rs2 rs1 0b111#3 rd op
  constructor
  · have hit : rowSh4add.hits (rWord 0b0010000#7 rs2 rs1 0b111#3 rd 0b0110011#7) = true := by
      rw [Pattern.hits, rowSh4add, row]; decide
    simp [decodeWord, notCsr 0b0110011#7 (by decide), notAmo 0b0110011#7 (by decide), ext, hit, fields]
  · intro rv64
    have miss : rowSh4add.hits (rWord 0b0010000#7 rs2 rs1 0b111#3 rd 0b0111011#7) = false := by
      rw [Pattern.hits, rowSh4add, row]; decide
    have hit : rowSh4addUw.hits (rWord 0b0010000#7 rs2 rs1 0b111#3 rd 0b0111011#7) = true := by
      rw [Pattern.hits, rowSh4addUw, row]; decide
    simp [decodeWord, notCsr 0b0111011#7 (by decide), notAmo 0b0111011#7 (by decide), ext, rv64, miss, hit, fields]

/-- A supplied encoding's own match hits it. -/
theorem hits_pat {p : Pattern} (h : p.supplied = true) : p.hits p.pat = true := by
  rw [Pattern.hits, (supplied_apart h).1, beq_self_eq_true]

theorem decodeWord_modeswCap {c : HartConfig} (enc : c.encodingsWf = true) (hybrid : c.hasHybrid = true) {p : Pattern}
    (given : c.encModeswCap = some p) : decodeWord c p.pat = some .modeswCap := by
  have supplied := (WideWords.encodings c enc).1
  rw [given, Option.all_some] at supplied
  rw [decodeWord_of_supplied supplied (hits_pat supplied)]
  simp [decodeHybrid, hybrid, given, hits_pat supplied]

/-- The supplied encodings are told apart, and SCMODE's operand fields lie outside its mask. -/
theorem encodings_apart {c : HartConfig} (enc : c.encodingsWf = true) :
    (∀ p q, c.encModeswCap = some p → c.encModeswInt = some q → p.apart q = true) ∧
    (∀ p q, c.encModeswCap = some p → c.encScmode = some q → p.apart q = true) ∧
    (∀ p q, c.encModeswInt = some p → c.encScmode = some q → p.apart q = true) ∧
    (∀ p, c.encScmode = some p → p.mask &&& rOperands 31#5 31#5 31#5 = 0#32) := by
  simp only [HartConfig.encodingsWf, Bool.and_eq_true, Option.all_eq_true, beq_iff_eq] at enc
  obtain ⟨⟨⟨-, free⟩, cap⟩, int⟩ := enc
  exact ⟨fun p q hp hq => (cap p hp).1 q hq, fun p q hp hq => (cap p hp).2 q hq, fun p q hp hq => int p hp q hq, free⟩

/-- Of two supplied encodings that are apart, one misses what the other hits. -/
theorem any_hits_false {o : Option Pattern} {q : Pattern} {w : IWord} (apart : ∀ p, o = some p → p.apart q = true)
    (hits : q.hits w = true) : o.any (·.hits w) = false := by
  cases o with
  | none => rfl
  | some p =>
    rw [Option.any_some]
    by_contra hit
    rw [misses_of_apart (apart p rfl) (by simpa using hit)] at hits
    cases hits

theorem decodeWord_modeswInt {c : HartConfig} (enc : c.encodingsWf = true) (hybrid : c.hasHybrid = true) {p : Pattern}
    (given : c.encModeswInt = some p) : decodeWord c p.pat = some .modeswInt := by
  have supplied := (WideWords.encodings c enc).2.1
  rw [given, Option.all_some] at supplied
  have notCap := any_hits_false (fun q hq => (encodings_apart enc).1 q p hq given) (hits_pat supplied)
  rw [decodeWord_of_supplied supplied (hits_pat supplied)]
  simp [decodeHybrid, hybrid, notCap, given, hits_pat supplied]

theorem decodeWord_scmode {c : HartConfig} (enc : c.encodingsWf = true) (hybrid : c.hasHybrid = true) {p : Pattern}
    (given : c.encScmode = some p) (rd rs1 rs2 : RegNum) :
    decodeWord c (p.pat ||| rOperands rs2 rs1 rd) = some (.scmode rd rs1 rs2) := by
  obtain ⟨-, capApart, intApart, free⟩ := encodings_apart enc
  have supplied := (WideWords.encodings c enc).2.2
  rw [given, Option.all_some] at supplied
  have free := free p given
  have within := (supplied_apart supplied).1
  have operands : rOperands rs2 rs1 rd &&& p.mask = 0#32 := by
    rw [rOperands_eq_and, BitVec.and_assoc, BitVec.and_comm _ p.mask, free, BitVec.and_zero]
  have patFree : p.pat &&& rOperands 31#5 31#5 31#5 = 0#32 := by
    rw [← within, BitVec.and_assoc, free, BitVec.and_zero]
  have hit : p.hits (p.pat ||| rOperands rs2 rs1 rd) = true := by
    rw [Pattern.hits, BitVec.and_or_distrib_right, within, operands, BitVec.or_zero, beq_self_eq_true]
  rw [decodeWord_of_supplied supplied hit]
  simp [decodeHybrid, hybrid, any_hits_false (fun q hq => capApart q p hq given) hit,
    any_hits_false (fun q hq => intApart q p hq given) hit, given, hit, fields_or_rOperands patFree]

/-- Settles O1: format by format, the word misses the rows before its own and holds the fields it was built from; a supplied
encoding misses every row of the table and the supplied ones before it. -/
theorem decodeOfEncodeIsIdentity : Obligations.DecodeOfEncodeIsIdentity := by
  intro c i w enc wf encoded
  cases i with
  | csrrw rd csr rs1 => cases encoded; obtain ⟨decodes, -⟩ := decodeWord_csrWord c csr rs1 rd; exact decodes
  | csrrs rd csr rs1 => cases encoded; obtain ⟨-, decodes, -⟩ := decodeWord_csrWord c csr rs1 rd; exact decodes
  | csrrc rd csr rs1 => cases encoded; obtain ⟨-, -, decodes, -⟩ := decodeWord_csrWord c csr rs1 rd; exact decodes
  | csrrwi rd csr uimm => cases encoded; obtain ⟨-, -, -, decodes, -⟩ := decodeWord_csrWord c csr uimm rd; exact decodes
  | csrrsi rd csr uimm => cases encoded; obtain ⟨-, -, -, -, decodes, -⟩ := decodeWord_csrWord c csr uimm rd; exact decodes
  | csrrci rd csr uimm => cases encoded; obtain ⟨-, -, -, -, -, decodes⟩ := decodeWord_csrWord c csr uimm rd; exact decodes
  | lrB rd rs1 aq rl => cases encoded; exact (decodeWord_lrWord wf rd rs1 aq rl).1
  | lrH rd rs1 aq rl => cases encoded; exact (decodeWord_lrWord wf rd rs1 aq rl).2
  | scB rd rs1 rs2 aq rl => cases encoded; exact (decodeWord_scWord wf rd rs1 rs2 aq rl).1
  | scH rd rs1 rs2 aq rl => cases encoded; exact (decodeWord_scWord wf rd rs1 rs2 aq rl).2
  | sh4add rd rs1 rs2 => cases encoded; exact (decodeWord_sh4addWord wf rd rs1 rs2).1
  | sh4addUw rd rs1 rs2 =>
    cases encoded
    simp only [Instr.wf, Bool.and_eq_true, beq_iff_eq] at wf
    exact (decodeWord_sh4addWord wf.1 rd rs1 rs2).2 wf.2
  | modeswCap =>
    obtain ⟨p, given, rfl⟩ := Option.map_eq_some_iff.mp encoded
    simp only [Instr.wf, Bool.and_eq_true] at wf
    exact decodeWord_modeswCap enc wf.1 given
  | modeswInt =>
    obtain ⟨p, given, rfl⟩ := Option.map_eq_some_iff.mp encoded
    simp only [Instr.wf, Bool.and_eq_true] at wf
    exact decodeWord_modeswInt enc wf.1 given
  | scmode rd rs1 rs2 =>
    obtain ⟨p, given, rfl⟩ := Option.map_eq_some_iff.mp encoded
    simp only [Instr.wf, Bool.and_eq_true] at wf
    exact decodeWord_scmode enc wf.1 given rd rs1 rs2

/-! ### Encoding what was decoded -/

/-- A word that hits a row holds the row's bits in every field the mask covers. -/
theorem field_of_hits {p : Pattern} {w : IWord} (h : p.hits w = true) {start len : Nat}
    (covered : p.mask.extractLsb' start len = BitVec.allOnes len) :
    w.extractLsb' start len = p.pat.extractLsb' start len := by
  rw [Pattern.hits, beq_iff_eq] at h
  rw [← h, BitVec.extractLsb'_and, covered, BitVec.and_allOnes]

/-- A word is its fields, in CSR format. -/
theorem csr_fields_append (w : IWord) :
    csrOf w ++ rs1Of w ++ w.extractLsb' 12 3 ++ rdOf w ++ w.extractLsb' 0 7 = w := by
  unfold csrOf rs1Of rdOf
  repeat rw [BitVec.extractLsb'_append_extractLsb'_eq_extractLsb' (by rfl)]
  exact BitVec.extractLsb'_eq_self

/-- A word is its fields, in AMO format. -/
theorem amo_fields_append (w : IWord) :
    w.extractLsb' 27 5 ++ BitVec.ofBool (aqOf w) ++ BitVec.ofBool (rlOf w) ++ rs2Of w ++ rs1Of w ++
      w.extractLsb' 12 3 ++ rdOf w ++ w.extractLsb' 0 7 = w := by
  have single (i : Nat) : BitVec.ofBool (w.getLsbD i) = w.extractLsb' i 1 := by
    apply BitVec.eq_of_getLsbD_eq
    intro j hj
    obtain rfl : j = 0 := by omega
    simp
  unfold aqOf rlOf rs2Of rs1Of rdOf
  rw [single, single]
  repeat rw [BitVec.extractLsb'_append_extractLsb'_eq_extractLsb' (by rfl)]
  exact BitVec.extractLsb'_eq_self

/-- A word is its fields, in R format. -/
theorem r_fields_append (w : IWord) :
    w.extractLsb' 25 7 ++ rs2Of w ++ rs1Of w ++ w.extractLsb' 12 3 ++ rdOf w ++ w.extractLsb' 0 7 = w := by
  unfold rs2Of rs1Of rdOf
  repeat rw [BitVec.extractLsb'_append_extractLsb'_eq_extractLsb' (by rfl)]
  exact BitVec.extractLsb'_eq_self

theorem csrWord_of_hits {p : Pattern} {w : IWord} {f : BitVec 3} (h : p.hits w = true) (mask : p.mask = 0x0000707f#32)
    (funct3 : p.pat.extractLsb' 12 3 = f) (opcode : p.pat.extractLsb' 0 7 = 0b1110011#7) :
    csrWord (csrOf w) (rs1Of w) f (rdOf w) = w := by
  have fields := csr_fields_append w
  rwa [field_of_hits h (by rw [mask]; rfl), funct3, field_of_hits h (by rw [mask]; rfl), opcode] at fields

/-- A load-reserved row fixes the whole of `rs2`. -/
theorem lrWord_of_hits {p : Pattern} {w : IWord} {f : BitVec 3} (h : p.hits w = true) (mask : p.mask = 0xf9f0707f#32)
    (funct5 : p.pat.extractLsb' 27 5 = 0b00010#5) (rs2 : p.pat.extractLsb' 20 5 = 0#5)
    (funct3 : p.pat.extractLsb' 12 3 = f) (opcode : p.pat.extractLsb' 0 7 = 0b0101111#7) :
    amoWord 0b00010#5 (aqOf w) (rlOf w) 0#5 (rs1Of w) f (rdOf w) = w := by
  have fields := amo_fields_append w
  rwa [field_of_hits h (by rw [mask]; rfl), funct5, rs2Of, field_of_hits h (by rw [mask]; rfl), rs2,
    field_of_hits h (by rw [mask]; rfl), funct3, field_of_hits h (by rw [mask]; rfl), opcode] at fields

theorem scWord_of_hits {p : Pattern} {w : IWord} {f : BitVec 3} (h : p.hits w = true) (mask : p.mask = 0xf800707f#32)
    (funct5 : p.pat.extractLsb' 27 5 = 0b00011#5) (funct3 : p.pat.extractLsb' 12 3 = f)
    (opcode : p.pat.extractLsb' 0 7 = 0b0101111#7) :
    amoWord 0b00011#5 (aqOf w) (rlOf w) (rs2Of w) (rs1Of w) f (rdOf w) = w := by
  have fields := amo_fields_append w
  rwa [field_of_hits h (by rw [mask]; rfl), funct5, field_of_hits h (by rw [mask]; rfl), funct3,
    field_of_hits h (by rw [mask]; rfl), opcode] at fields

theorem sh4addWord_of_hits {p : Pattern} {w : IWord} {op : BitVec 7} (h : p.hits w = true) (mask : p.mask = 0xfe00707f#32)
    (funct7 : p.pat.extractLsb' 25 7 = 0b0010000#7) (funct3 : p.pat.extractLsb' 12 3 = 0b111#3)
    (opcode : p.pat.extractLsb' 0 7 = op) :
    rWord 0b0010000#7 (rs2Of w) (rs1Of w) 0b111#3 (rdOf w) op = w := by
  have fields := r_fields_append w
  rwa [field_of_hits h (by rw [mask]; rfl), funct7, field_of_hits h (by rw [mask]; rfl), funct3,
    field_of_hits h (by rw [mask]; rfl), opcode] at fields

/-- A hybrid instruction is decoded only on a hart that has it and supplies its encoding. -/
theorem wf_of_decodeHybrid {c : HartConfig} {w : IWord} {i : Instr} (h : decodeHybrid c w = some i) :
    i.wf c = true ∧ hybridUse c i ≠ none := by
  have supplied {o : Option Pattern} (hit : o.any (·.hits w) = true) : o.isSome = true := by
    cases o with
    | none => cases hit
    | some p => rfl
  unfold decodeHybrid at h
  split at h
  · cases h
  · rename_i hybrid
    have hybrid : c.hasHybrid = true := by simpa using hybrid
    split at h
    · cases h; exact ⟨by simp [Instr.wf, hybrid, supplied ‹_›], by simp [hybridUse]⟩
    · split at h
      · cases h; exact ⟨by simp [Instr.wf, hybrid, supplied ‹_›], by simp [hybridUse]⟩
      · split at h
        · cases h; exact ⟨by simp [Instr.wf, hybrid, supplied ‹_›], by simp [hybridUse]⟩
        · cases h

/-- One row of the decoder: its instruction, or what the rows after it answer. -/
theorem eq_or_of_ite_eq_some {b : Bool} {i j : Instr} {rest : Option Instr}
    (h : (if b then some i else rest) = some j) : b = true ∧ i = j ∨ rest = some j := by
  cases b
  · exact .inr h
  · exact .inl ⟨rfl, Option.some.inj h⟩

/-- Settles O2: each row the decoder tries fixes all the bits that the fields of its instruction do not hold. -/
theorem encodeOfDecodeIsIdentity : Obligations.EncodeOfDecodeIsIdentity := by
  intro c i w decoded
  unfold decodeWord at decoded
  obtain ⟨hit, rfl⟩ | decoded := eq_or_of_ite_eq_some decoded
  · exact ⟨rfl, fun _ => congrArg some (csrWord_of_hits hit rfl rfl rfl)⟩
  obtain ⟨hit, rfl⟩ | decoded := eq_or_of_ite_eq_some decoded
  · exact ⟨rfl, fun _ => congrArg some (csrWord_of_hits hit rfl rfl rfl)⟩
  obtain ⟨hit, rfl⟩ | decoded := eq_or_of_ite_eq_some decoded
  · exact ⟨rfl, fun _ => congrArg some (csrWord_of_hits hit rfl rfl rfl)⟩
  obtain ⟨hit, rfl⟩ | decoded := eq_or_of_ite_eq_some decoded
  · exact ⟨rfl, fun _ => congrArg some (csrWord_of_hits hit rfl rfl rfl)⟩
  obtain ⟨hit, rfl⟩ | decoded := eq_or_of_ite_eq_some decoded
  · exact ⟨rfl, fun _ => congrArg some (csrWord_of_hits hit rfl rfl rfl)⟩
  obtain ⟨hit, rfl⟩ | decoded := eq_or_of_ite_eq_some decoded
  · exact ⟨rfl, fun _ => congrArg some (csrWord_of_hits hit rfl rfl rfl)⟩
  obtain ⟨both, rfl⟩ | decoded := eq_or_of_ite_eq_some decoded
  · obtain ⟨ext, hit⟩ := (Bool.and_eq_true _ _).mp both
    exact ⟨ext, fun _ => congrArg some (lrWord_of_hits hit rfl rfl rfl rfl rfl)⟩
  obtain ⟨both, rfl⟩ | decoded := eq_or_of_ite_eq_some decoded
  · obtain ⟨ext, hit⟩ := (Bool.and_eq_true _ _).mp both
    exact ⟨ext, fun _ => congrArg some (lrWord_of_hits hit rfl rfl rfl rfl rfl)⟩
  obtain ⟨both, rfl⟩ | decoded := eq_or_of_ite_eq_some decoded
  · obtain ⟨ext, hit⟩ := (Bool.and_eq_true _ _).mp both
    exact ⟨ext, fun _ => congrArg some (scWord_of_hits hit rfl rfl rfl rfl)⟩
  obtain ⟨both, rfl⟩ | decoded := eq_or_of_ite_eq_some decoded
  · obtain ⟨ext, hit⟩ := (Bool.and_eq_true _ _).mp both
    exact ⟨ext, fun _ => congrArg some (scWord_of_hits hit rfl rfl rfl rfl)⟩
  obtain ⟨both, rfl⟩ | decoded := eq_or_of_ite_eq_some decoded
  · obtain ⟨ext, hit⟩ := (Bool.and_eq_true _ _).mp both
    exact ⟨ext, fun _ => congrArg some (sh4addWord_of_hits hit rfl rfl rfl rfl)⟩
  obtain ⟨both, rfl⟩ | decoded := eq_or_of_ite_eq_some decoded
  · obtain ⟨ext, hit⟩ := (Bool.and_eq_true _ _).mp both
    exact ⟨ext, fun _ => congrArg some (sh4addWord_of_hits hit rfl rfl rfl rfl)⟩
  obtain ⟨wf, hybrid⟩ := wf_of_decodeHybrid decoded
  exact ⟨wf, fun none => absurd none hybrid⟩

/-- Settles O3: eleven words, each evaluated. -/
theorem listedWordsDecode : Obligations.ListedWordsDecode := by
  unfold Obligations.ListedWordsDecode
  decide

end Sys2Proof.Proofs
end

section
/-! PROOF. What one step can do, said once: the entry of an interrupt or an exception, an instruction of the table with the pc
advanced, or a base instruction (spec/60_exceptions.md R163). Every claim over all steps is a case analysis of these. -/

namespace Sys2Proof.Proofs

open Sys2Proof.Machine Sys2Proof.Safety Sys2Proof.Laws

/-! ### The instructions of the table -/

/-- The state after the write of a CSR instruction: none, one of XLEN bits, or one of CLEN bits where CSRRW has that
width. -/
inductive CsrWritten (s : State) (target : CsrTarget) : State → Prop
  | none : CsrWritten s target s
  | xlen (a : XWord) : CsrWritten s target (csrWriteX s target a)
  | clen (v : Cap) (width : targetRwWidth (mode s) target = .clen) : CsrWritten s target (csrWriteC s target v)

/-- What an instruction of the table that raises nothing does before `next`. -/
inductive Effect (s : State) : Instr → State → Prop
  | csr {i : Instr} {num : CsrNum} {writes : Bool} {target : CsrTarget} {written : State} (rd : RegNum) (w : Width) (v : Cap)
      (use : csrUse i = some (num, writes)) (access : CsrAccessible s num writes target)
      (write : CsrWritten s target written) : Effect s i (passEvent .csrAccess (deliver written rd w v))
  | register {i : Instr} (rd : RegNum) (v : Cap) : Effect s i (writeC s rd v)
  | loadReserved {i : Instr} (rd : RegNum) (n : Nat) (a : XWord) : Effect s i (loadReservedAt s rd n a)
  | storeByte (rd rs1 rs2 : RegNum) (aq rl : Bool) :
      Effect s (.scB rd rs1 rs2 aq rl) (storeConditionalAt s rd rs2 1 (readX s rs1))
  | storeHalf (rd rs1 rs2 : RegNum) (aq rl : Bool) :
      Effect s (.scH rd rs1 rs2 aq rl) (storeConditionalAt s rd rs2 2 (readX s rs1))
  | switch {i : Instr} (m : Bool) (isSwitch : i = .modeswCap ∨ i = .modeswInt) (notOff : mode s ≠ .off) :
      Effect s i (setMode s m)

theorem except_map_eq_ok {α β : Type} {x : Except Stop α} {f : α → β} {b : β} :
    x.map f = .ok b ↔ ∃ a, x = .ok a ∧ f a = b := by
  cases x with
  | error e =>
    constructor
    · rintro ⟨⟩
    · rintro ⟨_, ⟨⟩, _⟩
  | ok a =>
    constructor
    · rintro ⟨⟩
      exact ⟨a, rfl, rfl⟩
    · rintro ⟨_, ⟨⟩, rfl⟩
      rfl

theorem csrWritten_modify (s : State) (target : CsrTarget) (writes : Bool) (a : XWord) :
    CsrWritten s target (if writes then csrWriteX s target a else s) := by
  cases writes
  · exact .none
  · exact .xlen a

theorem effect_of_csrExchange {s : State} {i : Instr} {num : CsrNum} {writes : Bool} {target : CsrTarget}
    (use : csrUse i = some (num, writes)) (access : CsrAccessible s num writes target) (rd rs1 : RegNum) :
    Effect s i (passEvent .csrAccess (csrExchange s target rd rs1)) := by
  unfold csrExchange
  split
  · exact .csr rd _ _ use access (.clen _ ‹_›)
  · exact .csr rd _ _ use access (.xlen _)

theorem effect_of_csrModify {s : State} {i : Instr} {num : CsrNum} {writes : Bool} {target : CsrTarget}
    (use : csrUse i = some (num, writes)) (access : CsrAccessible s num writes target) (rd : RegNum) (a : XWord → XWord) :
    Effect s i (passEvent .csrAccess (csrModify s target rd writes a)) :=
  .csr rd _ _ use access (csrWritten_modify s target writes _)

/-- A load-reserved or store-conditional that ends accessed the address of its operand. -/
theorem lrScAddr_eq_ok {s : State} {rs1 : RegNum} {n : Nat} {kind : AccessKind} {a : XWord}
    (h : lrScAddr s rs1 n kind = .ok a) : a = readX s rs1 := by
  obtain ⟨_, -, h⟩ := bind_eq_ok.mp h
  obtain ⟨_, -, h⟩ := bind_eq_ok.mp h
  exact (Except.ok.inj h).symm

theorem loadReserved_eq_ok {n : Nat} {rd rs1 : RegNum} {s u : State} (h : loadReserved n rd rs1 s = .ok u) :
    u = loadReservedAt s rd n (readX s rs1) := by
  obtain ⟨a, ha, h⟩ := bind_eq_ok.mp h
  obtain ⟨_, -, h⟩ := bind_eq_ok.mp h
  rw [← lrScAddr_eq_ok ha]
  exact (Except.ok.inj h).symm

theorem storeConditional_eq_ok {n : Nat} {rd rs1 rs2 : RegNum} {s u : State} (h : storeConditional n rd rs1 rs2 s = .ok u) :
    u = storeConditionalAt s rd rs2 n (readX s rs1) := by
  obtain ⟨a, ha, h⟩ := bind_eq_ok.mp h
  obtain ⟨_, -, h⟩ := bind_eq_ok.mp h
  rw [← lrScAddr_eq_ok ha]
  exact (Except.ok.inj h).symm

/-- SH4ADD and SH4ADD.UW write one register, whichever form they take. -/
theorem sh4addForm_eq_ok {uw : Bool} {rd rs1 rs2 : RegNum} {index : XWord} {s u : State}
    (h : sh4addForm uw rd rs1 rs2 index s = .ok u) : ∃ v, u = writeC s rd v := by
  unfold sh4addForm at h
  split at h
  · split at h
    · cases h
    · cases h
    · exact ⟨_, (Except.ok.inj h).symm⟩
    · exact ⟨_, (Except.ok.inj h).symm⟩
  · exact ⟨_, (Except.ok.inj h).symm⟩

theorem hybridCheck_eq_ok {s : State} {validInInt : Bool} {x : Unit} (h : hybridCheck s validInInt = .ok x) : mode s ≠ .off := by
  intro off
  rw [hybridCheck, if_pos off] at h
  split at h <;> cases h

/-- An instruction of the table that raises nothing has one of these effects. -/
theorem effect_of_body {i : Instr} {s u : State} (h : body i s = .ok u) : Effect s i u := by
  cases i with
  | csrrw rd csr rs1 =>
    obtain ⟨g, checked, rfl⟩ := csrBody_eq_ok.mp h
    exact effect_of_csrExchange rfl (csrAccessible_of_check checked) rd rs1
  | csrrs rd csr rs1 =>
    obtain ⟨g, checked, rfl⟩ := csrBody_eq_ok.mp h
    exact effect_of_csrModify rfl (csrAccessible_of_check checked) rd _
  | csrrc rd csr rs1 =>
    obtain ⟨g, checked, rfl⟩ := csrBody_eq_ok.mp h
    exact effect_of_csrModify rfl (csrAccessible_of_check checked) rd _
  | csrrwi rd csr uimm =>
    obtain ⟨g, checked, rfl⟩ := csrBody_eq_ok.mp h
    exact .csr rd _ _ rfl (csrAccessible_of_check checked) (.xlen _)
  | csrrsi rd csr uimm =>
    obtain ⟨g, checked, rfl⟩ := csrBody_eq_ok.mp h
    exact effect_of_csrModify rfl (csrAccessible_of_check checked) rd _
  | csrrci rd csr uimm =>
    obtain ⟨g, checked, rfl⟩ := csrBody_eq_ok.mp h
    exact effect_of_csrModify rfl (csrAccessible_of_check checked) rd _
  | lrB rd rs1 aq rl =>
    rw [loadReserved_eq_ok h]
    exact .loadReserved rd 1 _
  | lrH rd rs1 aq rl =>
    rw [loadReserved_eq_ok h]
    exact .loadReserved rd 2 _
  | scB rd rs1 rs2 aq rl =>
    rw [storeConditional_eq_ok h]
    exact .storeByte rd rs1 rs2 aq rl
  | scH rd rs1 rs2 aq rl =>
    rw [storeConditional_eq_ok h]
    exact .storeHalf rd rs1 rs2 aq rl
  | sh4add rd rs1 rs2 =>
    obtain ⟨v, rfl⟩ := sh4addForm_eq_ok h
    exact .register rd v
  | sh4addUw rd rs1 rs2 =>
    simp only [body, sh4addUwBody] at h
    split at h
    · obtain ⟨v, rfl⟩ := sh4addForm_eq_ok h
      exact .register rd v
    · cases h
  | modeswCap =>
    obtain ⟨_, legal, rfl⟩ := except_map_eq_ok.mp h
    exact .switch _ (.inl rfl) (hybridCheck_eq_ok legal)
  | modeswInt =>
    obtain ⟨_, legal, rfl⟩ := except_map_eq_ok.mp h
    exact .switch _ (.inr rfl) (hybridCheck_eq_ok legal)
  | scmode rd rs1 rs2 =>
    obtain ⟨_, -, rfl⟩ := except_map_eq_ok.mp h
    exact .register rd _

/-- A next state of an instruction of the table: its effect with the pc advanced, or the entry of an exception. -/
theorem exec_eq_next {i : Instr} {s t : State} (h : exec i s = .next t) :
    (∃ u, Effect s i u ∧ pcAdvances u = true ∧ t = setPc u (pc u + 4#64)) ∨ ∃ code v, t = takeException s code v := by
  rw [exec_eq_finish, finish_eq_next] at h
  obtain ⟨u, done, adv, rfl⟩ | ⟨code, v, -, rfl⟩ := h
  · exact .inl ⟨u, effect_of_body done, adv, rfl⟩
  · exact .inr ⟨code, v, rfl⟩

/-! ### Base instructions -/

/-- The level a return leaves is one the hart is in or may enter. -/
inductive ReturnsFrom (s : State) : TrapLevel → Prop
  | machine : ReturnsFrom s .m
  | supervisor (has : s.cfg.hasS = true) : ReturnsFrom s .s
  | virtualSupervisor (priv : s.priv = .VS) : ReturnsFrom s .vs

/-- What a base instruction that raises nothing does: it moves the pc, it writes one register and moves the pc, or it
returns from a trap. -/
inductive BaseEffect (s : State) : State → Prop
  | pc (a : XWord) : BaseEffect s (setPc s a)
  | event (e : ReservationEvent) (a : XWord) : BaseEffect s (setPc (passEvent e s) a)
  | link (a : XWord) (rd : RegNum) (v : XWord) : BaseEffect s (writeX (setPc (passEvent .jump s) a) rd v)
  | register (rd : RegNum) (v a : XWord) : BaseEffect s (setPc (writeX s rd v) a)
  | fenceI (a : XWord) : BaseEffect s (setPc (passEvent .fence { s with unfenced := [] }) a)
  | trapReturn {level : TrapLevel} (from_ : ReturnsFrom s level) : BaseEffect s (trapReturn s level)

theorem advance_eq_ok {s t : State} (h : advance s = .ok t) : t = setPc s (pc s + 4#64) := (advanceBy_eq_ok.mp h).2

theorem jumpTo_eq_ok {s t : State} {target : XWord} (h : jumpTo s target = .ok t) : t = setPc (passEvent .jump s) target := by
  unfold jumpTo at h
  split at h
  · cases h
  · exact (Except.ok.inj h).symm

theorem jumpLink_eq_ok {s t : State} {rd : RegNum} {target : XWord} (h : jumpLink s rd target = .ok t) :
    t = writeX (setPc (passEvent .jump s) target) rd (pc s + 4#64) := by
  obtain ⟨u, jumps, h⟩ := bind_eq_ok.mp h
  obtain ⟨_, -, h⟩ := bind_eq_ok.mp h
  rw [← jumpTo_eq_ok jumps]
  exact (Except.ok.inj h).symm

theorem unlessCap_eq_ok {s t : State} {w : IWord} {act : Except Stop State} (h : unlessCap s w act = .ok t) : act = .ok t := by
  unfold unlessCap at h
  split at h
  · cases h
  · exact h

theorem baseEffect_of_baseStep {b : BaseInstr} {w : IWord} {s t : State} (h : baseStep b w s = .ok t) : BaseEffect s t := by
  cases b with
  | branch cond rs1 rs2 off =>
    simp only [baseStep] at h
    split at h
    · rw [jumpTo_eq_ok h]; exact .event _ _
    · rw [advance_eq_ok h]; exact .pc _
  | jal rd off => rw [jumpLink_eq_ok (unlessCap_eq_ok h)]; exact .link _ _ _
  | jalr rd rs1 off => rw [jumpLink_eq_ok (unlessCap_eq_ok h)]; exact .link _ _ _
  | auipc rd off => rw [advance_eq_ok (unlessCap_eq_ok h)]; exact .register _ _ _
  | fence => rw [advance_eq_ok h]; exact .event _ _
  | fenceI => rw [advance_eq_ok h]; exact .fenceI _
  | sfenceVma =>
    simp only [baseStep] at h
    split at h
    · cases h
    · rw [advance_eq_ok h]; exact .event _ _
  | cacheBlock =>
    simp only [baseStep] at h
    split at h <;> cases h
  | ecall => cases h
  | ebreak => cases h
  | wfi => rw [advance_eq_ok h]; exact .event _ _
  | mret =>
    simp only [baseStep] at h
    split at h
    · cases h; exact .trapReturn .machine
    · cases h
  | sret =>
    simp only [baseStep] at h
    split at h
    · cases h
    · rename_i legal
      cases h
      unfold sretLevel
      split
      · exact .trapReturn (.virtualSupervisor ‹_›)
      · exact .trapReturn (.supervisor (by simpa using (not_or.mp legal).1))

/-! ### Steps -/

/-- What a step can do. -/
inductive StepEffect (s : State) : State → Prop
  | interrupt {level : TrapLevel} {code : Nat} (pending : pendingInterrupt s = some (level, code)) :
      StepEffect s (takeInterrupt s level code)
  | exception (code : Nat) (v : XWord) : StepEffect s (takeException s code v)
  | table {i : Instr} {u : State} (effect : Effect s i u) (a : XWord) : StepEffect s (setPc u a)
  | base {t : State} (effect : BaseEffect s t) : StepEffect s t

theorem stepEffect_of_finish {len : Nat} {i : Instr} {s t : State} (h : finish len s (body i s) = .next t) : StepEffect s t := by
  obtain ⟨u, done, -, rfl⟩ | ⟨code, v, -, rfl⟩ := finish_eq_next.mp h
  · exact .table (effect_of_body done) _
  · exact .exception code v

/-- Base behaviour that ends, if it ends, in a base effect. -/
theorem stepEffect_of_settle {s t : State} {x : Except Stop State} (h : settle s x = .next t)
    (base : x = .ok t → BaseEffect s t) : StepEffect s t := by
  obtain done | ⟨code, v, -, rfl⟩ := settle_eq_next.mp h
  · exact .base (base done)
  · exact .exception code v

theorem baseEffect_of_wordWithoutRow {w : IWord} {s t : State} (h : wordWithoutRow w s = .ok t) : BaseEffect s t := by
  unfold wordWithoutRow at h
  split at h
  · split at h
    · exact baseEffect_of_baseStep h
    · obtain ⟨_, -, h⟩ := bind_eq_ok.mp h
      exact baseEffect_of_baseStep h
  · obtain ⟨_, -, h⟩ := bind_eq_ok.mp h
    cases h

theorem stepEffect_of_withoutRow {e : DecodeError} {s t : State} (h : withoutRow e s = .next t) : StepEffect s t := by
  cases e with
  | truncated => cases h
  | noRow w => exact stepEffect_of_settle h baseEffect_of_wordWithoutRow
  | compressed p =>
    simp only [withoutRow, parcelStep] at h
    split at h
    · exact stepEffect_of_finish h
    · refine stepEffect_of_settle h fun done => ?_
      obtain ⟨_, -, done⟩ := bind_eq_ok.mp done
      cases done

/-- Every step has one of these effects. -/
theorem stepEffect_of_step {s t : State} (h : step s = .next t) : StepEffect s t := by
  unfold step at h
  split at h
  · cases h
    exact .interrupt ‹_›
  · split at h
    · exact stepEffect_of_settle h fun done => nomatch done
    · split at h
      · rw [exec_eq_finish] at h
        exact stepEffect_of_finish h
      · exact stepEffect_of_withoutRow h

/-! ### What the effects leave unchanged -/

section Keeps

variable (s : State) (rd rs2 : RegNum) (n : Nat) (a : XWord)

@[simp] theorem loadReservedAt_cfg : (loadReservedAt s rd n a).cfg = s.cfg := by simp [loadReservedAt]
@[simp] theorem loadReservedAt_pcc : (loadReservedAt s rd n a).pcc = s.pcc := by simp [loadReservedAt]
@[simp] theorem loadReservedAt_csrs : (loadReservedAt s rd n a).csrs = s.csrs := by simp [loadReservedAt]
@[simp] theorem loadReservedAt_mem : (loadReservedAt s rd n a).mem = s.mem := by simp [loadReservedAt]

/-- A store-conditional stores or does not. -/
theorem storeConditionalAt_cases :
    (reserved s a.toNat n = true ∧ Config.scSucceeds s.draws = true ∧
      storeConditionalAt s rd rs2 n a = storeSucceeds { s with draws := s.draws + 1 } rd rs2 n a) ∨
    (¬ (reserved s a.toNat n = true ∧ Config.scSucceeds s.draws = true) ∧
      ∃ draws, storeConditionalAt s rd rs2 n a = storeFails { s with draws } rd) := by
  unfold storeConditionalAt
  cases reserved s a.toNat n
  · exact .inr ⟨by simp, s.draws, rfl⟩
  · cases Config.scSucceeds s.draws
    · exact .inr ⟨by simp, s.draws + 1, rfl⟩
    · exact .inl ⟨rfl, rfl, rfl⟩

/-- In either case the reservation is gone, and nothing but `rd` and memory can change beside it. -/
theorem storeConditionalAt_keeps :
    (storeConditionalAt s rd rs2 n a).cfg = s.cfg ∧ (storeConditionalAt s rd rs2 n a).pcc = s.pcc ∧
      (storeConditionalAt s rd rs2 n a).csrs = s.csrs ∧ (storeConditionalAt s rd rs2 n a).priv = s.priv ∧
      (storeConditionalAt s rd rs2 n a).reservation = none := by
  obtain ⟨-, -, e⟩ | ⟨-, draws, e⟩ := storeConditionalAt_cases s rd rs2 n a <;> simp [e, storeSucceeds, storeFails]

@[simp] theorem storeConditionalAt_cfg : (storeConditionalAt s rd rs2 n a).cfg = s.cfg :=
  (storeConditionalAt_keeps ..).1
@[simp] theorem storeConditionalAt_pcc : (storeConditionalAt s rd rs2 n a).pcc = s.pcc :=
  (storeConditionalAt_keeps ..).2.1
@[simp] theorem storeConditionalAt_csrs : (storeConditionalAt s rd rs2 n a).csrs = s.csrs := by
  obtain ⟨-, -, csrs, -⟩ := storeConditionalAt_keeps s rd rs2 n a
  exact csrs

end Keeps

theorem CsrWritten.pcc {s t : State} {target : CsrTarget} (h : CsrWritten s target t) : t.pcc = s.pcc := by
  cases h <;> simp

/-! ### The configuration (D4) -/

theorem CsrWritten.cfg {s t : State} {target : CsrTarget} (h : CsrWritten s target t) : t.cfg = s.cfg := by
  cases h <;> simp

theorem Effect.cfg {s u : State} {i : Instr} (h : Effect s i u) : u.cfg = s.cfg := by
  cases h with
  | csr rd w v use access write => simp [write.cfg]
  | register rd v => simp
  | loadReserved rd n a => simp
  | storeByte rd rs1 rs2 aq rl => simp
  | storeHalf rd rs1 rs2 aq rl => simp
  | switch m isSwitch notOff => rfl

theorem BaseEffect.cfg {s t : State} (h : BaseEffect s t) : t.cfg = s.cfg := by
  cases h <;> simp

/-- Settles O56: no effect of a step touches the configuration. -/
theorem stepKeepsTheConfiguration : Obligations.StepKeepsTheConfiguration := by
  intro s t stepped
  cases stepEffect_of_step stepped with
  | interrupt pending => rfl
  | exception code v => rfl
  | table effect a => exact effect.cfg
  | base effect => exact effect.cfg

end Sys2Proof.Proofs
end

section
/-! PROOF. What a CSR number can name (spec/10_state.md R16, R20 to R22, spec/44_csr_access.md R110), said once. -/

namespace Sys2Proof.Proofs

open Sys2Proof.Machine Sys2Proof.Safety Sys2Proof.Laws

/-- What a number names, and why. -/
inductive Names (c : HartConfig) (p : Priv) (num : CsrNum) : CsrTarget → Prop
  | extended {id : CapCsr} (base : c.hasBase = true) (listed : extendedCsr c p num = some (id, true)) :
      Names c p num (.cap id .extended)
  | narrow {id : CapCsr} (base : c.hasBase = false) (listed : extendedCsr c p num = some (id, true)) :
      Names c p num (.narrow id)
  | base {b : BaseCsr} (listed : baseCsr c p num = some (b, true)) : Names c p num (.base b)
  | ddc (hybrid : c.hasHybrid = true) : Names c p num (.cap .ddc .newCap)
  | further (cls : CapClass) (base : c.hasBase = true) : Names c p num (.cap (.extra num) cls)
  | absent : Names c p num .absent
  | unknown : Names c p num .unknown

theorem names_csrTarget (c : HartConfig) (p : Priv) (num : CsrNum) : Names c p num (csrTarget c p num) := by
  unfold csrTarget
  split
  · rename_i id there listed
    cases there
    · exact .absent
    · cases base : c.hasBase
      · exact .narrow base listed
      · exact .extended base listed
  · split
    · rename_i b there listed
      cases there
      · exact .absent
      · exact .base listed
    · split
      · cases hybrid : c.hasHybrid
        · exact .absent
        · exact .ddc hybrid
      · split
        · rename_i e _
          cases base : c.hasBase
          · by_cases new : e.cls = .newCap
            · simpa [new] using .absent
            · simpa [new] using .unknown
          · exact .further e.cls base
        · cases c.absentCsrs.contains num
          · exact .unknown
          · exact .absent

/-- On a hart with the base extension no number names an XLEN-wide predecessor (R22). -/
theorem csrTarget_ne_narrow {c : HartConfig} (base : c.hasBase = true) (p : Priv) (num : CsrNum) (id : CapCsr) :
    csrTarget c p num ≠ .narrow id := by
  intro h
  cases h ▸ names_csrTarget c p num with
  | narrow noBase listed =>
    rw [base] at noBase
    cases noBase

theorem hasBase_of_hasHybrid {c : HartConfig} (hybrid : c.hasHybrid = true) : c.hasBase = true := by
  have cheri : c.cheri = .hybrid := by simpa [HartConfig.hasHybrid] using hybrid
  simp [HartConfig.hasBase, cheri]

/-- A number names a capability-wide CSR on a hart with the base extension alone (R22). -/
theorem hasBase_of_target_cap {c : HartConfig} {p : Priv} {num : CsrNum} {id : CapCsr} {cls : CapClass}
    (h : csrTarget c p num = .cap id cls) : c.hasBase = true := by
  cases h ▸ names_csrTarget c p num with
  | extended base listed => exact base
  | ddc hybrid => exact hasBase_of_hasHybrid hybrid
  | further cls base => exact base

end Sys2Proof.Proofs
end

section
/-! PROOF. The invariant (spec/10_state.md R23, spec/20_memory.md R40, spec/60_exceptions.md R166, R167). It is taken apart
into what holds of the CSR file and of the rest of the state; every write keeps its part, and so does every effect of a
step. -/

namespace Sys2Proof.Proofs

open Sys2Proof.Machine Sys2Proof.Safety Sys2Proof.Laws

/-! ### Sparse maps -/

theorem lookup_of_mem {α : Type} [DecidableEq α] {d : α} {l : List (Nat × α)} (wf : mapWf d l = true) {e : Nat × α} (h : e ∈ l) :
    lookup d l e.1 = e.2 := by
  induction l with
  | nil => cases h
  | cons head rest ih =>
    obtain ⟨k, v⟩ := head
    obtain ⟨-, above, wfRest⟩ := mapWf_cons.mp wf
    rcases List.mem_cons.mp h with rfl | h
    · simp [lookup]
    · have := above e h
      rw [lookup, if_neg (by omega), if_neg (by omega), ih wfRest h]

theorem lookup_default_or_mem {α : Type} (d : α) (l : List (Nat × α)) (a : Nat) :
    lookup d l a = d ∨ (a, lookup d l a) ∈ l := by
  induction l with
  | nil => exact .inl rfl
  | cons head rest ih =>
    obtain ⟨k, v⟩ := head
    rw [lookup]
    split
    · exact .inl rfl
    · split
      · rename_i eq
        exact .inr (by simp [eq])
      · exact ih.imp_right (List.mem_cons_of_mem _)

/-! ### Allowed configurations -/

/-- The parts of an allowed configuration. -/
theorem metaWf_of_wf {c : HartConfig} (wf : c.wf = true) : c.metaWf = true := by
  simp only [HartConfig.wf, Bool.and_eq_true] at wf
  obtain ⟨⟨-, metadata⟩, -⟩ := wf
  exact metadata

theorem creWf_of_wf {c : HartConfig} (wf : c.wf = true) : c.creWf = true := by
  simp only [HartConfig.wf, Bool.and_eq_true] at wf
  obtain ⟨⟨⟨-, cre⟩, -⟩, -⟩ := wf
  exact cre

theorem mBitWf_of_wf {c : HartConfig} (wf : c.wf = true) : c.mBitWf = true := by
  simp only [HartConfig.wf, Bool.and_eq_true] at wf
  obtain ⟨⟨⟨⟨-, mBit⟩, -⟩, -⟩, -⟩ := wf
  exact mBit

/-! ### Writes to base CSRs -/

/-- A write to one base CSR leaves the others as they read; `mstatus`, `mstatush` and `sstatus` are views of one word. -/
theorem readBase_writeBase_other {c : HartConfig} {f : CsrFile} {b other : BaseCsr} {v : XWord} (ne : other ≠ b)
    (apart : statusView b = false ∨ statusView other = false) :
    readBase c (writeBase c f b v) other = readBase c f other := by
  cases b <;> cases other <;> simp [statusView] at ne apart <;> rfl

theorem mstatus_writeBase {c : HartConfig} {f : CsrFile} {b : BaseCsr} {v : XWord} (h : statusView b = false) :
    (writeBase c f b v).mstatus = f.mstatus := by
  cases b <;> cases h <;> rfl

/-- What a base CSR that is no view of `mstatus` holds after a write is an XLEN-bit value. -/
theorem fits_writeBase {c : HartConfig} {f : CsrFile} {b : BaseCsr} (v : XWord) (h : statusView b = false)
    (old : c.xlen.fits (readBase c f b) = true) : c.xlen.fits (readBase c (writeBase c f b v) b) = true := by
  cases b with
  | mip => exact fits_or (by rw [BitVec.and_comm]; exact fits_and (fits_mipWritable c) v) (fits_and old _)
  | mstatus => cases h
  | mstatush => cases h
  | sstatus => cases h
  | _ => exact fits_trunc _ _

/-! ### `mstatus.MPP` -/

theorem legalMpp_supported (c : HartConfig) (old new : XWord) : mppSupported c (legalMpp c old new) = true := by
  unfold legalMpp
  split
  · assumption
  · split
    · assumption
    · rfl

/-- MPP depends on the bits of its field. -/
theorem mppOf_congr {v w : XWord} (h11 : bit v 11 = bit w 11) (h12 : bit v 12 = bit w 12) : mppOf v = mppOf w := by
  unfold bit at h11 h12
  apply BitVec.eq_of_getLsbD_eq
  intro i hi
  obtain rfl | rfl : i = 0 ∨ i = 1 := by omega
  · simpa [mppOf] using h11
  · simpa [mppOf] using h12

/-- Words that agree outside the mask of `sstatus` agree in each of those bits. -/
theorem bit_eq_of_hidden {v w : XWord} (h : v &&& ~~~sstatusMask = w &&& ~~~sstatusMask) {i : Nat} (hi : i < 64)
    (hidden : sstatusMask.getLsbD i = false) : bit v i = bit w i := by
  have same := congrArg (·.getLsbD i) h
  simpa only [bit, BitVec.getLsbD_and, BitVec.getLsbD_not, hidden, hi, decide_true, Bool.not_false, Bool.and_true] using same

/-- `sstatus` does not show MPP. -/
theorem mppOf_eq_of_hidden {v w : XWord} (h : v &&& ~~~sstatusMask = w &&& ~~~sstatusMask) : mppOf v = mppOf w :=
  mppOf_congr (bit_eq_of_hidden h (by decide) (by decide)) (bit_eq_of_hidden h (by decide) (by decide))

theorem mppOf_writeSstatus (c : HartConfig) (old v : XWord) : mppOf (writeSstatus c old v) = mppOf old :=
  mppOf_eq_of_hidden (writeSstatus_hidden c old v)

theorem mppSupported_writeBase {c : HartConfig} {f : CsrFile} (b : BaseCsr) (v : XWord)
    (h : mppSupported c (mppOf f.mstatus) = true) : mppSupported c (mppOf (writeBase c f b v).mstatus) = true := by
  cases b with
  | mstatus => simp only [writeBase, legalMstatus, mppOf_setMpp, legalMpp_supported]
  | mstatush => simp only [writeBase, legalMstatus, mppOf_setMpp, legalMpp_supported]
  | sstatus => simpa only [writeBase, mppOf_writeSstatus] using h
  | _ => exact h

/-- A privilege the hart implements may be saved in MPP. -/
theorem mppSupported_privCode {c : HartConfig} {p : Priv} (h : c.supports p = true) : mppSupported c (privCode p) = true := by
  revert h
  cases p <;> simp only [HartConfig.supports, HartConfig.hasS, HartConfig.hasU, HartConfig.hasH, mppSupported, privCode] <;>
    cases c.levels <;> decide

theorem mppOf_enterSupervisor (w : XWord) (p : Priv) : mppOf (enterSupervisor w p) = mppOf w := by
  simp only [enterSupervisor, mppOf_setBit, sppBit, sieBit, spieBit, ne_eq, Nat.reduceEqDiff, not_false_eq_true, Nat.reduceLT]

theorem mppOf_leaveSupervisor (w : XWord) : mppOf (leaveSupervisor w) = mppOf w := by
  simp only [leaveSupervisor, mppOf_setBit, sppBit, sieBit, spieBit, ne_eq, Nat.reduceEqDiff, not_false_eq_true, Nat.reduceLT]

theorem mppOf_enterMachine (c : HartConfig) (w : XWord) (p : Priv) : mppOf (enterMachine c w p) = privCode p := by
  unfold enterMachine
  cases c.hasH <;> simp [mppOf_setBit, mpvBit]

theorem mppOf_leaveMachine (c : HartConfig) (w : XWord) : mppOf (leaveMachine c w) = leastCode c := by
  unfold leaveMachine
  cases c.hasH <;> simp [mppOf_setBit, mpvBit]

theorem leastCode_supported (c : HartConfig) : mppSupported c (leastCode c) = true := by
  unfold leastCode mppSupported
  cases c.hasU <;> simp

/-! ### The CSR file -/

/-- A value a capability-wide CSR may store: XLEN-bit halves, and no reserved bit outside `FullWidthCSRs` (R23). -/
def CapStored (c : HartConfig) (id : CapCsr) (v : Cap) : Prop :=
  v.fits c.xlen = true ∧ (isFull c id = true ∨ noReserved c v = true)

/-- What the invariant says of the CSR file, CSR by CSR. -/
structure CsrsInv (c : HartConfig) (f : CsrFile) : Prop where
  extra : mapWf (Cap.null 0#64) f.extra = true
  keys : ∀ e ∈ f.extra, e.1 < 2 ^ 12
  stored : ∀ id, CapStored c id (f.get id)
  words : ∀ b, statusView b = false → c.xlen.fits (readBase c f b) = true
  mpp : mppSupported c (mppOf f.mstatus) = true

theorem capStored_storeForm (c : HartConfig) (m : Bool) (id : CapCsr) (v : Cap) : CapStored c id (storeForm c m id v) := by
  refine ⟨fits_storeForm c m id v, ?_⟩
  cases full : isFull c id
  · exact .inr (storeForm_noReserved full m v)
  · exact .inl rfl

theorem capStored_null (c : HartConfig) (id : CapCsr) : CapStored c id (Cap.null 0#64) := by
  simp [CapStored, Cap.fits, Cap.null, noReserved]

theorem CsrsInv.set {c : HartConfig} {f : CsrFile} (h : CsrsInv c f) {id : CapCsr} {v : Cap} (ok : CapStored c id v) :
    CsrsInv c (f.set id v) where
  extra := by
    cases id with
    | extra n => exact mapWf_update h.extra _ _
    | _ => exact h.extra
  keys := by
    cases id with
    | extra n =>
      intro e he
      rcases key_of_mem_update he with rfl | he
      · exact n.isLt
      · exact h.keys e he
    | _ => exact h.keys
  stored other := by
    by_cases same : other = id
    · rw [same, get_set_same h.extra]
      exact ok
    · rw [get_set_other h.extra same]
      exact h.stored other
  words b hb := by
    rw [readBase_set]
    exact h.words b hb
  mpp := by
    rw [mstatus_set]
    exact h.mpp

theorem CsrsInv.writeBase {c : HartConfig} {f : CsrFile} (h : CsrsInv c f) (b : BaseCsr) (v : XWord) :
    CsrsInv c (writeBase c f b v) where
  extra := by rw [extra_writeBase]; exact h.extra
  keys := by rw [extra_writeBase]; exact h.keys
  stored id := by rw [get_writeBase]; exact h.stored id
  words other plain := by
    by_cases same : other = b
    · subst same
      exact fits_writeBase v plain (h.words other plain)
    · rw [readBase_writeBase_other same (.inr plain)]
      exact h.words other plain
  mpp := mppSupported_writeBase b v h.mpp

theorem fits_enterSupervisor {x : Xlen} {w : XWord} (h : x.fits w = true) (p : Priv) : x.fits (enterSupervisor w p) = true := by
  have small {i : Nat} (hi : i < 32) : i < x.bits := by cases x <;> simp only [Xlen.bits] <;> omega
  exact fits_setBit (fits_setBit (fits_setBit h (small (by decide)) _) (small (by decide)) _) (small (by decide)) _

theorem fits_leaveSupervisor {x : Xlen} {w : XWord} (h : x.fits w = true) : x.fits (leaveSupervisor w) = true := by
  have small {i : Nat} (hi : i < 32) : i < x.bits := by cases x <;> simp only [Xlen.bits] <;> omega
  exact fits_setBit (fits_setBit (fits_setBit h (small (by decide)) _) (small (by decide)) _) (small (by decide)) _

theorem fits_spv {x : Xlen} {w : XWord} (h : x.fits w = true) (has v : Bool) :
    x.fits (if has then setBit w spvBit v else w) = true := by
  cases has
  · exact h
  · exact fits_setBit h (by cases x <;> decide) v

/-- Of the base CSRs, trap entry and return write the status registers alone. -/
theorem readBase_enterStatus {c : HartConfig} {f : CsrFile} {p : Priv} {level : TrapLevel} {b : BaseCsr}
    (plain : statusView b = false) (hs : b ≠ .hstatus) (vs : b ≠ .vsstatus) :
    readBase c (enterStatus c f p level) b = readBase c f b := by
  cases level <;> cases b <;> simp [statusView] at plain hs vs <;> rfl

theorem readBase_leaveStatus {c : HartConfig} {f : CsrFile} {level : TrapLevel} {b : BaseCsr}
    (plain : statusView b = false) (hs : b ≠ .hstatus) (vs : b ≠ .vsstatus) :
    readBase c (leaveStatus c f level) b = readBase c f b := by
  cases level <;> cases b <;> simp [statusView] at plain hs vs <;> rfl

theorem CsrsInv.enterStatus {c : HartConfig} {f : CsrFile} (h : CsrsInv c f) {p : Priv} (supported : c.supports p = true)
    (level : TrapLevel) : CsrsInv c (enterStatus c f p level) where
  extra := by rw [extra_enterStatus]; exact h.extra
  keys := by rw [extra_enterStatus]; exact h.keys
  stored id := by rw [get_enterStatus]; exact h.stored id
  words b plain := by
    by_cases hs : b = .hstatus
    · subst hs
      cases level with
      | s => exact fits_spv (h.words .hstatus rfl) _ _
      | _ => exact h.words .hstatus rfl
    · by_cases vs : b = .vsstatus
      · subst vs
        cases level with
        | vs => exact fits_enterSupervisor (h.words .vsstatus rfl) p
        | _ => exact h.words .vsstatus rfl
      · rw [readBase_enterStatus plain hs vs]
        exact h.words b plain
  mpp := by
    cases level with
    | m => simp only [Machine.enterStatus, mppOf_enterMachine, mppSupported_privCode supported]
    | s => simpa only [Machine.enterStatus, mppOf_enterSupervisor] using h.mpp
    | vs => exact h.mpp

theorem CsrsInv.leaveStatus {c : HartConfig} {f : CsrFile} (h : CsrsInv c f) (level : TrapLevel) :
    CsrsInv c (leaveStatus c f level) where
  extra := by rw [extra_leaveStatus]; exact h.extra
  keys := by rw [extra_leaveStatus]; exact h.keys
  stored id := by rw [get_leaveStatus]; exact h.stored id
  words b plain := by
    by_cases hs : b = .hstatus
    · subst hs
      cases level with
      | s => exact fits_spv (h.words .hstatus rfl) _ _
      | _ => exact h.words .hstatus rfl
    · by_cases vs : b = .vsstatus
      · subst vs
        cases level with
        | vs => exact fits_leaveSupervisor (h.words .vsstatus rfl)
        | _ => exact h.words .vsstatus rfl
      · rw [readBase_leaveStatus plain hs vs]
        exact h.words b plain
  mpp := by
    cases level with
    | m => simp only [Machine.leaveStatus, mppOf_leaveMachine, leastCode_supported]
    | s => simpa only [Machine.leaveStatus, mppOf_leaveSupervisor] using h.mpp
    | vs => exact h.mpp

/-! ### The state -/

/-- The invariant, taken apart by the parts of the state that operations write. -/
structure StateInv (s : State) : Prop where
  config : s.cfg.wf = true
  memory : memoryWf s = true
  regs : ∀ v ∈ s.regs, v.fits s.cfg.xlen = true
  pcc : s.pcc.fits s.cfg.xlen = true
  priv : s.cfg.supports s.priv = true
  csrs : CsrsInv s.cfg s.csrs

theorem stateInv_of_inv {s : State} (h : Inv s) : StateInv s := by
  obtain ⟨config, memory, extra, values, privilege, reserved⟩ := h
  simp only [valuesFit, Bool.and_eq_true, List.all_eq_true] at values
  obtain ⟨⟨⟨⟨regs, pcc⟩, named⟩, extraFit⟩, words⟩ := values
  simp only [privilegeWf, Bool.and_eq_true] at privilege
  simp only [reservedClear, Bool.and_eq_true, Bool.or_eq_true, List.all_eq_true, decide_eq_true_eq] at reserved
  obtain ⟨⟨namedClear, extraClear⟩, keys⟩ := reserved
  refine ⟨config, memory, fun v hv => regs v (Vector.mem_toList_iff.mpr hv), pcc, privilege.1, extra, keys, ?_, ?_, privilege.2⟩
  · intro id
    cases id with
    | extra n =>
      rcases lookup_default_or_mem (Cap.null 0#64) s.csrs.extra n.toNat with e | listed
      · rw [CsrFile.get, e]
        exact capStored_null _ _
      · have clear := extraClear _ listed
        rw [BitVec.ofNat_toNat, BitVec.setWidth_eq] at clear
        exact ⟨extraFit _ listed, clear⟩
    | _ => exact ⟨named _ (by simp [namedCaps]), namedClear _ (by simp [namedCaps])⟩
  · intro b plain
    refine words _ ?_
    cases b <;> simp [statusView] at plain <;> simp [baseWords, readBase]

/-- A listed further CSR is the one of its number. -/
theorem CsrsInv.stored_entry {c : HartConfig} {f : CsrFile} (h : CsrsInv c f) {e : Nat × Cap} (he : e ∈ f.extra) :
    CapStored c (.extra (BitVec.ofNat 12 e.1)) e.2 := by
  have small : e.1 % 2 ^ 12 = e.1 := Nat.mod_eq_of_lt (h.keys e he)
  have stored := h.stored (.extra (BitVec.ofNat 12 e.1))
  rwa [CsrFile.get, BitVec.toNat_ofNat, small, lookup_of_mem h.extra he] at stored

/-- Every word of the file is that of a base CSR. -/
theorem exists_baseCsr_of_mem (c : HartConfig) {f : CsrFile} {w : XWord} (h : w ∈ baseWords f) :
    ∃ b, statusView b = false ∧ readBase c f b = w := by
  have all : [BaseCsr.mseccfg, .menvcfg, .senvcfg, .misa, .mcause, .mtval, .mie, .mip, .medeleg, .mideleg, .scause, .stval,
      .hstatus, .hedeleg, .hideleg, .vsstatus, .vscause, .vstval].map (readBase c f) = baseWords f := rfl
  rw [← all] at h
  obtain ⟨b, hb, rfl⟩ := List.mem_map.mp h
  refine ⟨b, ?_, rfl⟩
  clear h all
  revert b
  decide

theorem StateInv.inv {s : State} (h : StateInv s) : Inv s where
  config := h.config
  memory := h.memory
  extra := h.csrs.extra
  values := by
    simp only [valuesFit, Bool.and_eq_true, List.all_eq_true]
    refine ⟨⟨⟨⟨fun v hv => h.regs v (Vector.mem_toList_iff.mp hv), h.pcc⟩, fun id _ => (h.csrs.stored id).1⟩,
      fun e he => (h.csrs.stored_entry he).1⟩, fun w hw => ?_⟩
    obtain ⟨b, plain, rfl⟩ := exists_baseCsr_of_mem s.cfg hw
    exact h.csrs.words b plain
  privilege := by simp only [privilegeWf, h.priv, h.csrs.mpp, Bool.and_self]
  reserved := by
    simp only [reservedClear, Bool.and_eq_true, Bool.or_eq_true, List.all_eq_true, decide_eq_true_eq]
    exact ⟨⟨fun id _ => (h.csrs.stored id).2, fun e he => (h.csrs.stored_entry he).2⟩, h.csrs.keys⟩

/-! ### Operations keep the invariant -/

/-- A state with the same configuration meets the invariant where its parts do. -/
theorem StateInv.of_parts {s t : State} (h : StateInv s) (cfg : t.cfg = s.cfg) (memory : memoryWf t = true)
    (regs : ∀ v ∈ t.regs, v.fits s.cfg.xlen = true) (pcc : t.pcc.fits s.cfg.xlen = true) (priv : s.cfg.supports t.priv = true)
    (csrs : CsrsInv s.cfg t.csrs) : StateInv t :=
  ⟨cfg ▸ h.config, memory, cfg ▸ regs, cfg ▸ pcc, cfg ▸ priv, cfg ▸ csrs⟩

theorem memoryWf_congr {s t : State} (mem : t.mem = s.mem) (tags : t.memTags = s.memTags) (unfenced : t.unfenced = s.unfenced) :
    memoryWf t = memoryWf s := by
  simp only [memoryWf, mem, tags, unfenced]

theorem fits_readC {s : State} (h : StateInv s) (r : RegNum) : (readC s r).fits s.cfg.xlen = true := by
  unfold readC
  split
  · simp [Cap.fits, Cap.null]
  · exact h.regs _ (Vector.getElem_mem _)

theorem StateInv.writeC {s : State} (h : StateInv s) (r : RegNum) (v : Cap) : StateInv (writeC s r v) := by
  refine h.of_parts (by simp) ?_ ?_ (by simpa using h.pcc) (by simpa using h.priv) (by simpa using h.csrs)
  · rw [memoryWf_congr (s := s) (by simp) (by simp) (by simp)]
    exact h.memory
  · unfold Machine.writeC
    split
    · exact h.regs
    · intro w hw
      rcases Vector.mem_or_eq_of_mem_set (hi := r.toFin.isLt) hw with hw | rfl
      · exact h.regs w hw
      · exact capFits_trunc _ _

theorem StateInv.writeX {s : State} (h : StateInv s) (r : RegNum) (v : XWord) : StateInv (writeX s r v) := h.writeC r _

theorem StateInv.deliver {s : State} (h : StateInv s) (r : RegNum) (w : Width) (v : Cap) : StateInv (deliver s r w v) := by
  cases w
  · exact h.writeX r _
  · exact h.writeC r v

theorem StateInv.setPc {s : State} (h : StateInv s) (a : XWord) : StateInv (setPc s a) := by
  have pcc := h.pcc
  simp only [Cap.fits, Bool.and_eq_true] at pcc
  exact h.of_parts rfl h.memory h.regs (by simp [Cap.fits, pcc.1]) h.priv h.csrs

theorem StateInv.withReservation {s : State} (h : StateInv s) (r : Option Reservation) : StateInv { s with reservation := r } :=
  h.of_parts rfl h.memory h.regs h.pcc h.priv h.csrs

theorem StateInv.withDraws {s : State} (h : StateInv s) (n : Nat) : StateInv { s with draws := n } :=
  h.of_parts rfl h.memory h.regs h.pcc h.priv h.csrs

theorem StateInv.passEvent {s : State} (h : StateInv s) (e : ReservationEvent) : StateInv (passEvent e s) :=
  h.withReservation _

theorem StateInv.withCsrs {s : State} (h : StateInv s) {f : CsrFile} (ok : CsrsInv s.cfg f) : StateInv { s with csrs := f } :=
  h.of_parts rfl h.memory h.regs h.pcc h.priv ok

/-- FENCE.I empties the set of bytes that wait for it. -/
theorem StateInv.fenceAll {s : State} (h : StateInv s) : StateInv { s with unfenced := [] } := by
  refine h.of_parts rfl ?_ h.regs h.pcc h.priv h.csrs
  have memory := h.memory
  simp only [memoryWf, Bool.and_eq_true] at memory ⊢
  exact ⟨memory.1, rfl⟩

theorem StateInv.memWrite {s : State} (h : StateInv s) (a : XWord) (n : Nat) (v : XWord) : StateInv (memWrite s a n v) :=
  h.of_parts (by simp) (memWf_memWrite h.memory a n v) (by simpa using h.regs) (by simpa using h.pcc) (by simpa using h.priv)
    (by simpa using h.csrs)

theorem StateInv.csrWriteX {s : State} (h : StateInv s) (target : CsrTarget) (a : XWord) : StateInv (csrWriteX s target a) := by
  cases target with
  | cap id cls => exact h.withCsrs (h.csrs.set (capStored_storeForm ..))
  | narrow id => exact h.withCsrs (h.csrs.set (capStored_storeForm ..))
  | base b => exact h.withCsrs (h.csrs.writeBase b a)
  | absent => exact h
  | unknown => exact h

theorem StateInv.csrWriteC {s : State} (h : StateInv s) (target : CsrTarget) (v : Cap) : StateInv (csrWriteC s target v) := by
  cases target with
  | cap id cls => exact h.withCsrs (h.csrs.set (capStored_storeForm ..))
  | narrow id => exact h.csrWriteX (.narrow id) v.addr
  | base b => exact h.csrWriteX (.base b) v.addr
  | absent => exact h
  | unknown => exact h

theorem mMask_fits {c : HartConfig} (wf : c.mBitWf = true) : c.xlen.fits c.mMask = true := by
  simp only [HartConfig.mBitWf, Bool.and_eq_true, decide_eq_true_eq] at wf
  unfold HartConfig.mMask
  split
  · have one := fits_setBit (fits_zero c.xlen) wf.1 true
    rwa [setBit, if_pos rfl, BitVec.zero_or] at one
  · exact fits_zero _

theorem StateInv.setMode {s : State} (h : StateInv s) (m : Bool) : StateInv (setMode s m) := by
  refine h.of_parts rfl h.memory h.regs ?_ h.priv h.csrs
  have pcc := h.pcc
  simp only [Cap.fits, Bool.and_eq_true, setMode_pcc, withM] at pcc ⊢
  refine ⟨?_, pcc.2⟩
  split
  · exact fits_or pcc.1 (mMask_fits (mBitWf_of_wf h.config))
  · exact fits_and pcc.1 _

/-! ### Traps keep the invariant -/

theorem StateInv.readVal {s : State} (h : StateInv s) (id : CapCsr) : (readVal s.cfg s.csrs id).fits s.cfg.xlen = true :=
  fits_readVal (metaWf_of_wf h.config) (h.csrs.stored id).1

/-- The handler's address is an XLEN-bit value. -/
theorem fits_handlerAddr {c : HartConfig} {tvec : XWord} (h : c.xlen.fits tvec = true) (interrupt : Bool) (code : Nat) :
    c.xlen.fits (handlerAddr c tvec interrupt code) = true := by
  simp only [handlerAddr]
  split
  · exact fits_trunc _ _
  · exact fits_and h _

theorem StateInv.trapEntry {s : State} (h : StateInv s) {level : TrapLevel} (supported : s.cfg.supports level.priv = true)
    (interrupt : Bool) (code : Nat) (v : XWord) : StateInv (trapEntry s level interrupt code v) := by
  have vec := h.readVal level.tvecc
  simp only [Cap.fits, Bool.and_eq_true] at vec
  refine h.of_parts rfl h.memory h.regs ?_ supported ?_
  · simp only [Machine.trapEntry, Cap.fits, vec.1, fits_handlerAddr vec.2, Bool.and_self]
  · have saved := h.csrs.set (capStored_storeForm s.cfg (misaC s.csrs) level.epcc s.pcc)
    exact ((saved.writeBase _ _).writeBase _ _).enterStatus h.priv level

/-- The level an exception goes to is one the hart implements. -/
theorem supports_exceptionLevel {s : State} (priv : s.cfg.supports s.priv = true) (code : Nat) :
    s.cfg.supports (exceptionLevel s code).priv = true := by
  unfold exceptionLevel
  split
  · rfl
  · rename_i notMachine
    simp only [Bool.or_eq_true, not_or, Bool.not_eq_true', Bool.not_eq_false, decide_eq_true_eq] at notMachine
    split
    · rename_i delegated
      have virt : isVirtual s.priv = true := ((Bool.and_eq_true _ _).mp delegated).1
      revert priv virt
      cases s.priv <;> simp [isVirtual, HartConfig.supports, TrapLevel.priv]
    · exact notMachine.1.2

theorem firstOf_zero (c : HartConfig) : firstOf c 0#64 = none := by
  simp [firstOf, interruptOrder, bit]

/-- An interrupt is taken to the level whose set its code is the first of. -/
theorem pendingInterrupt_cases {s : State} {level : TrapLevel} {code : Nat} (h : pendingInterrupt s = some (level, code)) :
    (level = .m ∧ firstOf s.cfg (pendingSet s &&& ~~~delegatedSet s) = some code) ∨
    (level = .s ∧ firstOf s.cfg (pendingSet s &&& delegatedSet s &&& ~~~virtualSet s) = some code) ∨
    (level = .vs ∧ ∃ k, firstOf s.cfg (pendingSet s &&& delegatedSet s &&& virtualSet s) = some k ∧ code = vsCode k) := by
  unfold pendingInterrupt at h
  split at h
  · rename_i taken
    cases h
    exact .inl ⟨rfl, (Option.ite_none_right_eq_some.mp taken).2⟩
  · split at h
    · rename_i taken
      cases h
      exact .inr (.inl ⟨rfl, (Option.ite_none_right_eq_some.mp taken).2⟩)
    · split at h
      · rename_i taken
        cases h
        exact .inr (.inr ⟨rfl, _, (Option.ite_none_right_eq_some.mp taken).2, rfl⟩)
      · cases h

/-- The level an interrupt goes to is one the hart implements: nothing is delegated to a missing one. -/
theorem supports_interruptLevel {s : State} {level : TrapLevel} {code : Nat} (h : pendingInterrupt s = some (level, code)) :
    s.cfg.supports level.priv = true := by
  obtain ⟨rfl, -⟩ | ⟨rfl, first⟩ | ⟨rfl, k, first, -⟩ := pendingInterrupt_cases h
  · rfl
  · by_contra missing
    have missing : s.cfg.hasS = false := by simpa [TrapLevel.priv, HartConfig.supports] using missing
    rw [delegatedSet, missing, if_neg Bool.false_ne_true, BitVec.and_zero, BitVec.zero_and, firstOf_zero] at first
    cases first
  · by_contra missing
    have missing : s.cfg.hasH = false := by simpa [TrapLevel.priv, HartConfig.supports] using missing
    rw [virtualSet, missing, if_neg Bool.false_ne_true, BitVec.and_zero, firstOf_zero] at first
    cases first

/-- The level a return leaves is one the hart implements. -/
theorem supports_returnsFrom {s : State} (priv : s.cfg.supports s.priv = true) {level : TrapLevel}
    (legal : ReturnsFrom s level) : s.cfg.supports level.priv = true := by
  cases legal with
  | machine => rfl
  | supervisor has => exact has
  | virtualSupervisor vs => rwa [vs] at priv

/-- A return goes back to a privilege the hart implements. -/
theorem supports_returnPriv {s : State} (h : StateInv s) {level : TrapLevel} (legal : ReturnsFrom s level) :
    s.cfg.supports (returnPriv s level) = true := by
  have user : s.cfg.hasS = true → s.cfg.hasU = true := by
    unfold HartConfig.hasS HartConfig.hasU
    cases s.cfg.levels <;> decide
  cases legal with
  | machine =>
    have mpp := h.csrs.mpp
    simp only [mppSupported, Bool.or_eq_true, Bool.and_eq_true, beq_iff_eq] at mpp
    simp only [returnPriv]
    obtain (m | ⟨m, has⟩) | ⟨m, has⟩ := mpp
    · rw [m]
      rfl
    · rw [m]
      cases virt : s.cfg.hasH <;> cases bit s.csrs.mstatus mpvBit <;> simp [privOf, HartConfig.supports, virt, has]
    · rw [m]
      cases virt : s.cfg.hasH <;> cases bit s.csrs.mstatus mpvBit <;> simp [privOf, HartConfig.supports, virt, has]
  | supervisor has =>
    simp only [returnPriv]
    cases bit s.csrs.mstatus sppBit <;> cases virt : s.cfg.hasH <;> cases bit s.csrs.hstatus spvBit <;>
      simp [privOf, HartConfig.supports, virt, has, user has]
  | virtualSupervisor priv =>
    have has : s.cfg.hasH = true := supports_returnsFrom h.priv (.virtualSupervisor priv)
    simp only [returnPriv]
    cases bit s.csrs.vsstatus sppBit <;> simp [privOf, HartConfig.supports, has]

theorem StateInv.trapReturn {s : State} (h : StateInv s) {level : TrapLevel} (legal : ReturnsFrom s level) :
    StateInv (trapReturn s level) :=
  h.of_parts rfl h.memory h.regs (h.readVal level.epcc) (supports_returnPriv h legal) (h.csrs.leaveStatus level)

/-! ### Effects keep the invariant -/

theorem StateInv.csrWritten {s t : State} {target : CsrTarget} (h : StateInv s) (written : CsrWritten s target t) : StateInv t := by
  cases written with
  | none => exact h
  | xlen a => exact h.csrWriteX target a
  | clen v width => exact h.csrWriteC target v

theorem StateInv.storeConditionalAt {s : State} (h : StateInv s) (rd rs2 : RegNum) (n : Nat) (a : XWord) :
    StateInv (storeConditionalAt s rd rs2 n a) := by
  obtain ⟨-, -, e⟩ | ⟨-, draws, e⟩ := storeConditionalAt_cases s rd rs2 n a
  · rw [e]
    exact (((h.withDraws _).withReservation none).memWrite a n _).writeX rd _
  · rw [e]
    exact ((h.withDraws draws).withReservation none).writeX rd _

theorem StateInv.effect {s u : State} {i : Instr} (h : StateInv s) (effect : Effect s i u) : StateInv u := by
  cases effect with
  | csr rd w v use access write => exact ((h.csrWritten write).deliver rd w v).passEvent _
  | register rd v => exact h.writeC rd v
  | loadReserved rd n a => exact (h.withReservation _).writeX rd _
  | storeByte rd rs1 rs2 aq rl => exact h.storeConditionalAt rd rs2 1 _
  | storeHalf rd rs1 rs2 aq rl => exact h.storeConditionalAt rd rs2 2 _
  | switch m isSwitch notOff => exact h.setMode m

theorem StateInv.baseEffect {s t : State} (h : StateInv s) (effect : BaseEffect s t) : StateInv t := by
  cases effect with
  | pc a => exact h.setPc a
  | event e a => exact (h.passEvent e).setPc a
  | link a rd v => exact ((h.passEvent .jump).setPc a).writeX rd v
  | register rd v a => exact (h.writeX rd v).setPc a
  | fenceI a => exact (h.fenceAll.passEvent .fence).setPc a
  | trapReturn legal => exact h.trapReturn legal

/-- Settles O53: every effect of a step keeps each part of the invariant. -/
theorem stepKeepsTheInvariant : Obligations.StepKeepsTheInvariant := by
  intro s t inv stepped
  have h := stateInv_of_inv inv
  refine StateInv.inv ?_
  cases stepEffect_of_step stepped with
  | interrupt pending => exact h.trapEntry (supports_interruptLevel pending) true _ _
  | exception code v => exact h.trapEntry (supports_exceptionLevel h.priv code) false code v
  | table effect a => exact (h.effect effect).setPc a
  | base effect => exact h.baseEffect effect

/-- Settles O54: the reset state is one concrete state. -/
theorem resetMeetsTheInvariant : Obligations.ResetMeetsTheInvariant := by
  refine ⟨⟨?_, ?_, ?_, ?_, ?_, ?_⟩, ?_, ?_, ?_, ?_, ?_⟩ <;> decide

end Sys2Proof.Proofs
end

section
/-! PROOF. The CSR file (spec/10_state.md R12, R23 to R26, spec/44_csr_access.md R117 to R120): what a write stores, what the
CSR holds and reads as afterwards, and what the write leaves of the others. -/

namespace Sys2Proof.Proofs

open Sys2Proof.Machine Sys2Proof.Safety Sys2Proof.Laws

/-! ### Words of fields -/

theorem bit_merge (mask old new : XWord) {i : Nat} (hi : i < 64) :
    bit (merge mask old new) i = if bit mask i then bit new i else bit old i := by
  simp only [bit, merge, BitVec.getLsbD_or, BitVec.getLsbD_and, BitVec.getLsbD_not, hi, decide_true, Bool.true_and]
  by_cases h : mask.getLsbD i = true <;> simp [h]

theorem bit_setMpp (w : XWord) (p : BitVec 2) {i : Nat} (hi : i < 64) (h : bit mppMask i = false) :
    bit (setMpp w p) i = bit w i := by
  rw [setMpp, bit_merge _ _ _ hi, h, if_neg Bool.false_ne_true]

/-- The fields software may write freely take the written bits. -/
theorem bit_legalMstatus {c : HartConfig} (old new : XWord) {i : Nat} (hi : i < 64) (h : bit mppMask i = false)
    (writable : bit (mstatusWritable c) i = true) (fixed : bit xlMask i = false) :
    bit (legalMstatus c old new) i = bit new i := by
  unfold legalMstatus
  rw [bit_setMpp _ _ hi h]
  unfold bit at writable fixed ⊢
  simp [BitVec.getLsbD_or, BitVec.getLsbD_and, BitVec.getLsbD_not, writable, fixed, -BitVec.getLsbD_eq_getElem]

/-- MIE and MPIE are writable on every hart. -/
theorem mstatusWritable_enables (c : HartConfig) :
    bit (mstatusWritable c) mieBit = true ∧ bit (mstatusWritable c) mpieBit = true := by
  unfold mstatusWritable
  cases c.hasS <;> cases c.hasH <;> decide

theorem mppOf_legalMstatus {c : HartConfig} (old new : XWord) (h : mppSupported c (mppOf new) = true) :
    mppOf (legalMstatus c old new) = mppOf new := by
  rw [legalMstatus, mppOf_setMpp, legalMpp, if_pos h]

/-- The low 32 bits of a written word are its own, at both widths. -/
theorem bit_merge_xlen (x : Xlen) (old new : XWord) {i : Nat} (hi : i < 64) (low : bit x.mask i = true) :
    bit (merge x.mask old new) i = bit new i := by
  rw [bit_merge _ _ _ hi, low, if_pos rfl]

theorem bit_xlenMask (x : Xlen) {i : Nat} (hi : i = 3 ∨ i = 7 ∨ i = 11 ∨ i = 12) : bit x.mask i = true := by
  rcases hi with rfl | rfl | rfl | rfl <;> cases x <;> decide

/-- Settles O29: a write sets one word, and in `mstatus` the fields that are writable on every hart. -/
theorem baseCsrWritesTouchOneWord : Obligations.BaseCsrWritesTouchOneWord := by
  intro c f b other id v
  have mpp : mppOf (merge c.xlen.mask f.mstatus v) = mppOf v :=
    mppOf_congr (bit_merge_xlen _ _ _ (by decide) (bit_xlenMask _ (by simp)))
      (bit_merge_xlen _ _ _ (by decide) (bit_xlenMask _ (by simp)))
  obtain ⟨mie, mpie⟩ := mstatusWritable_enables c
  refine ⟨get_writeBase c f b v id, readBase_writeBase_other, ?_, ?_, ?_, fun supported => ?_⟩
  · rintro (rfl | rfl | rfl | rfl | rfl | rfl) <;> rfl
  · rw [writeBase, bit_legalMstatus _ _ (by decide) (by decide) mie (by decide),
      bit_merge_xlen _ _ _ (by decide) (bit_xlenMask _ (by simp [mieBit]))]
  · rw [writeBase, bit_legalMstatus _ _ (by decide) (by decide) mpie (by decide),
      bit_merge_xlen _ _ _ (by decide) (bit_xlenMask _ (by simp [mpieBit]))]
  · rw [writeBase, mppOf_legalMstatus _ _ (by rwa [mpp]), mpp]

/-! ### What a CSR holds after a write -/

/-- A CSR reads back what was set: a named one always, a further one where its map is in canonical form. -/
def ReadsBack (f : CsrFile) (id : CapCsr) : Prop := ∀ v, (f.set id v).get id = v

theorem readsBack_of_mapWf {f : CsrFile} (wf : mapWf (Cap.null 0#64) f.extra = true) (id : CapCsr) : ReadsBack f id :=
  get_set_same wf id

theorem readsBack_of_named (f : CsrFile) {id : CapCsr} (named : id ∈ namedCaps) : ReadsBack f id := by
  cases id with
  | extra n => simp [namedCaps] at named
  | _ => exact fun _ => rfl

theorem heldVal_set {c : HartConfig} {f : CsrFile} {id : CapCsr} (back : ReadsBack f id) (v : Cap) :
    heldVal c (f.set id v) id = { v with md := readMeta c id v.md } := by
  rw [heldVal, back v]

theorem reservedMask_fits {c : HartConfig} (wf : c.metaWf = true) : c.xlen.trunc c.reservedMask = c.reservedMask := by
  simp only [HartConfig.metaWf, Bool.and_eq_true] at wf
  obtain ⟨⟨⟨reserved, -⟩, -⟩, -⟩ := wf
  exact fits_iff.mp reserved

/-- Storing what a CSR holds and filling its reserved bits in again gives it back, reduced to XLEN bits. -/
theorem readMeta_storeMeta_readMeta {c : HartConfig} (wf : c.metaWf = true) (id : CapCsr) (md : XWord) :
    readMeta c id (storeMeta c id (readMeta c id md)) = c.xlen.trunc (readMeta c id md) := by
  unfold readMeta storeMeta
  split
  · rfl
  · have mask := reservedMask_fits wf
    unfold merge Xlen.trunc at *
    apply BitVec.eq_of_getLsbD_eq
    intro i hi
    have mask := congrArg (·.getLsbD i) mask
    simp only [BitVec.getLsbD_and, BitVec.getLsbD_or, BitVec.getLsbD_not, hi, decide_true, Bool.true_and] at mask ⊢
    cases r : c.reservedMask.getLsbD i <;> simp_all

/-- Of metadata of XLEN bits, a CSR holds what is not reserved. -/
theorem readMeta_storeMeta {c : HartConfig} {md : XWord} (fits : c.xlen.fits md = true) (id : CapCsr) :
    readMeta c id (storeMeta c id md) &&& ~~~c.reservedMask = md &&& ~~~c.reservedMask ∧
      (isFull c id = true → readMeta c id (storeMeta c id md) = md) := by
  have same := fits_iff.mp fits
  cases full : isFull c id
  · refine ⟨?_, fun h => nomatch h⟩
    simp only [readMeta, storeMeta, full, Bool.false_eq_true, if_false, fits_iff.mp (fits_and fits _)]
    apply BitVec.eq_of_getLsbD_eq
    intro i hi
    simp only [merge, BitVec.getLsbD_and, BitVec.getLsbD_or, BitVec.getLsbD_not, hi, decide_true, Bool.true_and]
    cases c.reservedMask.getLsbD i <;> simp
  · simp [readMeta, storeMeta, full, same]

/-- A valid address is stored as the low-bit rule leaves it. -/
theorem storeAddr_of_valid {c : HartConfig} {m : Bool} {id : CapCsr} {a : XWord}
    (valid : validAddr c (c.xlen.trunc (alignFor c m id a)) = true) :
    storeAddr c m id a = c.xlen.trunc (alignFor c m id a) := by
  simp [storeAddr, valid]

/-- `StoreForm` sets no tag. -/
theorem tag_of_storeForm {c : HartConfig} {m : Bool} {id : CapCsr} {v : Cap} (h : (storeForm c m id v).tag = true) :
    v.tag = true := by
  simp only [storeForm, storeTag] at h
  split at h
  · exact h
  · exact ((Bool.and_eq_true _ _).mp h).1

/-- An XLEN-bit write keeps the metadata and sets no tag, whatever the vector range check says (R118). -/
theorem xlenWrite_keeps (c : HartConfig) (m : Bool) (id : CapCsr) (old : Cap) (a : XWord) :
    (xlenWrite c m id old a).md = old.md ∧ ((xlenWrite c m id old a).tag = true → old.tag = true) := by
  simp only [xlenWrite, xlenValue]
  split <;> exact ⟨rfl, fun tag => ((Bool.and_eq_true _ _).mp tag).1⟩

/-- Settles O33: the write keeps metadata and tag rule, and `StoreForm` stores both as they are. -/
theorem xlenWriteKeepsMetadata : Obligations.XlenWriteKeepsMetadata := by
  intro c f id a wf extra
  extract_lets old new b
  obtain ⟨md, tag⟩ := xlenWrite_keeps c (misaC f) id old a
  have held : new = _ := heldVal_set (c := c) (readsBack_of_mapWf extra id) _
  refine ⟨?_, fun h => ?_, fun inRange valid => ?_⟩
  · rw [held]
    show readMeta c id (storeMeta c id (xlenWrite c (misaC f) id old a).md) = _
    rw [md]
    exact readMeta_storeMeta_readMeta (metaWf_of_wf wf) id _
  · rw [held] at h
    exact tag (tag_of_storeForm h)
  · rw [held]
    show storeAddr c (misaC f) id (xlenWrite c (misaC f) id old a).addr = b
    rw [xlenWrite_in_range inRange]
    exact storeAddr_of_valid valid

/-- Settles O34: in range the write is its operand with a legalized address, and `StoreForm` keeps what is not reserved. -/
theorem clenWriteStoresMetadata : Obligations.ClenWriteStoresMetadata := by
  intro c f id v wf extra fits old inRange new b
  have held : new = _ := heldVal_set (c := c) (readsBack_of_mapWf extra id) _
  have written : clenWrite c (misaC f) id old v = clenValue c (misaC f) id old v := clenWrite_in_range inRange
  simp only [Cap.fits, Bool.and_eq_true] at fits
  obtain ⟨stored, full⟩ := readMeta_storeMeta fits.1 id
  rw [held]
  refine ⟨?_, fun isFull => ?_, fun h => ?_, fun valid => ?_⟩
  · show readMeta c id (storeMeta c id (clenWrite c (misaC f) id old v).md) &&& _ = _
    rw [written]
    exact stored
  · show readMeta c id (storeMeta c id (clenWrite c (misaC f) id old v).md) = _
    rw [written]
    exact full isFull
  · have tag : (clenWrite c (misaC f) id old v).tag = true := tag_of_storeForm h
    rw [written] at tag
    exact ((Bool.and_eq_true _ _).mp tag).1
  · show storeAddr c (misaC f) id (clenWrite c (misaC f) id old v).addr = b
    rw [written]
    exact storeAddr_of_valid valid

/-- What the reserved bits of a CSR outside `FullWidthCSRs` read as, and the others (R23). -/
theorem readMeta_notFull {c : HartConfig} {id : CapCsr} (notFull : isFull c id = false) (md : XWord) :
    readMeta c id md &&& c.reservedMask = c.reservedRead &&& c.reservedMask ∧
      readMeta c id md &&& ~~~c.reservedMask = md &&& ~~~c.reservedMask := by
  simp only [readMeta, notFull, Bool.false_eq_true, if_false, merge]
  constructor <;>
  · apply BitVec.eq_of_getLsbD_eq
    intro i hi
    simp only [BitVec.getLsbD_and, BitVec.getLsbD_or, BitVec.getLsbD_not, hi, decide_true, Bool.true_and]
    cases c.reservedMask.getLsbD i <;> simp

theorem readVal_of_not_epcc {c : HartConfig} {f : CsrFile} {id : CapCsr} (h : isEpcc id = false) :
    readVal c f id = heldVal c f id := by
  simp [readVal, h]

/-- Settles O35: `StoreForm` clears the reserved bits, and the read fills them in. -/
theorem reservedBitsAreNotStored : Obligations.ReservedBitsAreNotStored := by
  intro c f id v m notFull
  refine ⟨?_, fun notEpcc => ?_⟩
  · have clear := storeForm_noReserved notFull m v
    simpa [noReserved] using clear
  · rw [readVal_of_not_epcc notEpcc]
    exact readMeta_notFull notFull _

/-- An invalid address is never converted to a valid one (R25). -/
theorem invalidAddrConv_invalid {c : HartConfig} {m : Bool} {id : CapCsr} {a : XWord} (h : validAddr c a = false) :
    validAddr c (invalidAddrConv c m id a) = false := by
  simp only [invalidAddrConv]
  split
  · exact h
  · exact Bool.eq_false_iff.mpr ‹_›

/-- Settles O36: a valid address is stored as it is, an invalid one converted, which a pointer CSR can hold. -/
theorem invalidAddressesStayInvalid : Obligations.InvalidAddressesStayInvalid := by
  intro c m id v pointer b stored
  refine ⟨fun valid => storeAddr_of_valid valid, fun invalid => ?_, fun x valid => .inl valid, fun rv32 x => .inl ?_⟩
  · have converted : stored = invalidAddrConv c m id b := by
      have invalid : validAddr c (c.xlen.trunc (alignFor c m id v.addr)) = false := invalid
      show storeAddr c m id v.addr = _
      rw [storeAddr, pointer, invalid]
      rfl
    rw [converted]
    exact ⟨invalidAddrConv_invalid invalid, .inr (.inr ⟨m, b, invalid, rfl⟩)⟩
  · rw [validAddr, rv32]
    rfl

/-! ### `Xepcc` reads (R26) -/

/-- The address of a legalized `Xepcc`. -/
theorem legalizeEpcc_addr (c : HartConfig) (m : Bool) (v : Cap) :
    (legalizeEpcc c m v).addr = if m then v.addr &&& ~~~1#64 else v.addr &&& ~~~3#64 := by
  unfold legalizeEpcc
  extract_lets a
  split <;> rfl

/-- Settles O37: legalization clears low bits of the address alone; a return reads through it and writes the status
registers only. -/
theorem epccReadsAreLegalized : Obligations.EpccReadsAreLegalized := by
  have bit1 (i : Nat) : (1#64).getLsbD i = decide (i = 0) := by simp [BitVec.getLsbD_one]
  refine ⟨fun c v even => ?_, fun c v => ?_, fun c v b => ?_, fun c v b => ?_, fun c f id epcc => ?_, fun s level id => ?_⟩
  · have same : v.addr &&& ~~~1#64 = v.addr := by
      apply BitVec.eq_of_getLsbD_eq
      intro i hi
      rw [BitVec.getLsbD_and, BitVec.getLsbD_not, bit1]
      by_cases h : i = 0
      · subst h
        simpa [bit] using even
      · simp [h, hi]
    simp only [legalizeEpcc, if_true, same, decide_true, Bool.true_or]
  · have low : (~~~3#64 &&& 3#64 : XWord) = 0#64 := by decide
    rw [legalizeEpcc_addr, if_neg Bool.false_ne_true, BitVec.and_assoc, low, BitVec.and_zero]
  · have low : bit (~~~1#64) 0 = false ∧ bit (~~~3#64) 0 = false := by decide
    unfold bit at low ⊢
    rw [legalizeEpcc_addr]
    cases b
    · rw [if_neg Bool.false_ne_true, BitVec.getLsbD_and, low.2, Bool.and_false]
    · rw [if_pos rfl, BitVec.getLsbD_and, low.1, Bool.and_false]
  · have high : (~~~1#64 : XWord) >>> 2 = BitVec.allOnes 64 >>> 2 ∧ (~~~3#64 : XWord) >>> 2 = BitVec.allOnes 64 >>> 2 := by decide
    rw [legalizeEpcc_addr]
    cases b
    · rw [if_neg Bool.false_ne_true, BitVec.ushiftRight_and_distrib, high.2, ← BitVec.ushiftRight_and_distrib, BitVec.and_allOnes]
    · rw [if_pos rfl, BitVec.ushiftRight_and_distrib, high.1, ← BitVec.ushiftRight_and_distrib, BitVec.and_allOnes]
  · simp [readVal, epcc]
  · exact ⟨rfl, get_leaveStatus ..⟩

/-! ### The infinite capability (R12, R148) -/

/-- An infinite capability written at CLEN bits is held as an infinite one. -/
theorem infinite_writeClen {c : HartConfig} (wf : c.wf = true) {f : CsrFile} {id : CapCsr} (back : ReadsBack f id) {v : Cap}
    (fits : v.fits c.xlen = true) (inf : isInfinite c v = true) : isInfinite c (heldVal c (writeClen c f id v) id) = true := by
  simp only [Cap.fits, Bool.and_eq_true] at fits
  rw [writeClen, heldVal_set back, clenWrite_infinite inf fits.2]
  have stored := infinite_stored (metaWf_of_wf wf) (v := { v with addr := legalAddr c id (heldVal c f id).addr v.addr })
    inf fits.1 (mMask_unreserved (mBitWf_of_wf wf)) (misaC f) id
  exact stored

/-- An XLEN-bit write leaves an infinite capability infinite. -/
theorem infinite_writeXlen {c : HartConfig} (wf : c.wf = true) {f : CsrFile} {id : CapCsr} (back : ReadsBack f id) (a : XWord)
    (fits : (f.get id).fits c.xlen = true) (inf : isInfinite c (heldVal c f id) = true) :
    isInfinite c (heldVal c (writeXlen c f id a) id) = true := by
  have held := fits_heldVal (metaWf_of_wf wf) fits
  simp only [Cap.fits, Bool.and_eq_true] at held
  rw [writeXlen, heldVal_set back, xlenWrite_infinite inf]
  have stored := infinite_stored (metaWf_of_wf wf)
    (v := { heldVal c f id with addr := legalAddr c id (heldVal c f id).addr a }) inf held.1
    (mMask_unreserved (mBitWf_of_wf wf)) (misaC f) id
  exact stored

/-- Settles O38: both writes keep tag and metadata of an infinite capability, and so do `StoreForm` and the read. -/
theorem infiniteCapabilitySurvivesWrites : Obligations.InfiniteCapabilitySurvivesWrites := by
  intro c f id wf named
  have back := readsBack_of_named f named
  exact ⟨fun v fits inf => infinite_readVal (infinite_writeClen wf back fits inf),
    fun a fits inf => infinite_readVal (infinite_writeXlen wf back a fits inf)⟩

/-- Settles O39: both writes set one CSR. -/
theorem capCsrWritesTouchOneCsr : Obligations.CapCsrWritesTouchOneCsr := by
  intro c f id other b v a extra ne
  exact ⟨get_set_other extra ne _, get_set_other extra ne _, readBase_set .., readBase_set ..⟩

end Sys2Proof.Proofs
end

section
/-! PROOF. R148's proviso (spec/45_mode_behaviour.md section 4, spec/70_reset_and_hazards.md R181): in `Off` mode the only
write of a capability-wide CSR is one of XLEN bits, and a trap moves infinite capabilities between `pcc` and the CSRs. -/

namespace Sys2Proof.Proofs

open Sys2Proof.Machine Sys2Proof.Safety Sys2Proof.Laws

/-- The proviso, for a configuration, a CSR file and a `pcc`. -/
structure AllInfinite (c : HartConfig) (f : CsrFile) (pcc : Cap) : Prop where
  pcc : isInfinite c pcc = true
  csrs : ∀ id ∈ provisoCsrs c, isInfinite c (heldVal c f id) = true

theorem standardProviso_iff {s : State} : standardProviso s = true ↔ AllInfinite s.cfg s.csrs s.pcc := by
  simp only [standardProviso, Bool.and_eq_true, List.all_eq_true]
  exact ⟨fun ⟨pcc, csrs⟩ => ⟨pcc, csrs⟩, fun ⟨pcc, csrs⟩ => ⟨pcc, csrs⟩⟩

/-- The proviso looks at the capability-wide CSRs alone. -/
theorem AllInfinite.congr {c : HartConfig} {f g : CsrFile} {v w : Cap} (h : AllInfinite c f v) (pcc : isInfinite c w = true)
    (same : ∀ id, g.get id = f.get id) : AllInfinite c g w where
  pcc := pcc
  csrs id hid := by
    rw [heldVal, same]
    exact h.csrs id hid

/-- One CSR may change to a value that it holds as an infinite one. -/
theorem AllInfinite.set {c : HartConfig} {f : CsrFile} {v w : Cap} (h : AllInfinite c f v)
    (extra : mapWf (Cap.null 0#64) f.extra = true) (id : CapCsr)
    (inf : id ∈ provisoCsrs c → isInfinite c (heldVal c (f.set id w) id) = true) : AllInfinite c (f.set id w) v where
  pcc := h.pcc
  csrs other hother := by
    by_cases same : other = id
    · subst same
      exact inf hother
    · rw [heldVal, get_set_other extra same]
      exact h.csrs other hother

/-- A level the hart implements has its vector and its saved `pcc` among the registers of the proviso. -/
theorem level_mem_provisoCsrs {c : HartConfig} {level : TrapLevel} (supported : c.supports level.priv = true) :
    level.tvecc ∈ provisoCsrs c ∧ level.epcc ∈ provisoCsrs c := by
  cases level <;> simp_all [provisoCsrs, TrapLevel.tvecc, TrapLevel.epcc, TrapLevel.priv, HartConfig.supports]

/-! ### Writes in `Off` mode -/

theorem AllInfinite.writeXlen {s : State} (inv : StateInv s) (h : AllInfinite s.cfg s.csrs s.pcc) (id : CapCsr) (a : XWord) :
    AllInfinite s.cfg (writeXlen s.cfg s.csrs id a) s.pcc :=
  h.set inv.csrs.extra id fun mem =>
    infinite_writeXlen inv.config (readsBack_of_mapWf inv.csrs.extra id) a (inv.csrs.stored id).1 (h.csrs id mem)

/-- In `Off` mode no CSR instruction writes CLEN bits: CSRRW does only to a new capability CSR, which is out of reach. -/
theorem targetRwWidth_off {s : State} {num : CsrNum} {writes : Bool} {target : CsrTarget} (off : mode s = .off)
    (access : CsrAccessible s num writes target) : targetRwWidth (mode s) target = .xlen := by
  cases target with
  | cap id cls =>
    cases cls with
    | extended => rw [off]; rfl
    | newCap => exact absurd off (access.enabled id rfl)
  | _ => rfl

/-- In `Off` mode a CSR instruction keeps the proviso. -/
theorem AllInfinite.csrWritten {s t : State} {num : CsrNum} {writes : Bool} {target : CsrTarget} (inv : StateInv s)
    (h : AllInfinite s.cfg s.csrs s.pcc) (base : s.cfg.hasBase = true) (off : mode s = .off)
    (access : CsrAccessible s num writes target) (written : CsrWritten s target t) : AllInfinite s.cfg t.csrs s.pcc := by
  cases written with
  | none => exact h
  | xlen a =>
    cases target with
    | cap id cls => exact h.writeXlen inv id a
    | narrow id => exact absurd access.target (csrTarget_ne_narrow base _ _ _)
    | base b => exact h.congr h.pcc (get_writeBase _ _ _ _)
    | absent => exact h
    | unknown => exact h
  | clen v width =>
    rw [targetRwWidth_off off access] at width
    cases width

theorem AllInfinite.effect {s u : State} {i : Instr} (inv : StateInv s) (h : AllInfinite s.cfg s.csrs s.pcc)
    (base : s.cfg.hasBase = true) (off : mode s = .off) (effect : Effect s i u) : AllInfinite s.cfg u.csrs u.pcc := by
  cases effect with
  | csr rd w v use access write =>
    have kept := h.csrWritten inv base off access write
    simpa [write.pcc] using kept
  | register rd v => simpa using h
  | loadReserved rd n a => simpa using h
  | storeByte rd rs1 rs2 aq rl => simpa using h
  | storeHalf rd rs1 rs2 aq rl => simpa using h
  | switch m isSwitch notOff => exact absurd off notOff

/-! ### Traps -/

theorem AllInfinite.trapEntry {s : State} {level : TrapLevel} (inv : StateInv s) (h : AllInfinite s.cfg s.csrs s.pcc)
    (supported : s.cfg.supports level.priv = true) (interrupt : Bool) (code : Nat) (v : XWord) :
    AllInfinite s.cfg (trapEntry s level interrupt code v).csrs (trapEntry s level interrupt code v).pcc := by
  have vec : isInfinite s.cfg (readVal s.cfg s.csrs level.tvecc) = true :=
    infinite_readVal (h.csrs _ (level_mem_provisoCsrs supported).1)
  have pccFits := inv.pcc
  simp only [Cap.fits, Bool.and_eq_true] at pccFits
  have saved : AllInfinite s.cfg (s.csrs.set level.epcc (storeForm s.cfg (misaC s.csrs) level.epcc s.pcc)) s.pcc :=
    h.set inv.csrs.extra _ fun _ => by
      have stored := infinite_stored (metaWf_of_wf inv.config) h.pcc pccFits.1 (mMask_unreserved (mBitWf_of_wf inv.config))
        (misaC s.csrs) level.epcc
      rw [heldVal_set (readsBack_of_mapWf inv.csrs.extra _)]
      exact stored
  refine saved.congr ((isInfinite_addr ..).trans vec) fun id => ?_
  simp only [Machine.trapEntry, get_enterStatus, get_writeBase]

theorem AllInfinite.trapReturn {s : State} {level : TrapLevel} (h : AllInfinite s.cfg s.csrs s.pcc)
    (supported : s.cfg.supports level.priv = true) :
    AllInfinite s.cfg (trapReturn s level).csrs (trapReturn s level).pcc :=
  h.congr (infinite_readVal (h.csrs _ (level_mem_provisoCsrs supported).2)) fun _ => get_leaveStatus ..

/-- Moving the pc keeps the proviso. -/
theorem AllInfinite.setPc {c : HartConfig} {s : State} (h : AllInfinite c s.csrs s.pcc) (a : XWord) :
    AllInfinite c (setPc s a).csrs (setPc s a).pcc :=
  h.congr ((isInfinite_addr ..).trans h.pcc) fun _ => rfl

theorem AllInfinite.baseEffect {s t : State} (inv : StateInv s) (h : AllInfinite s.cfg s.csrs s.pcc)
    (effect : BaseEffect s t) : AllInfinite s.cfg t.csrs t.pcc := by
  cases effect with
  | pc a => exact h.setPc a
  | event e a => exact h.setPc a
  | link a rd v =>
    rw [writeX_csrs, writeX_pcc]
    exact h.setPc a
  | register rd v a => exact AllInfinite.setPc (s := writeX s rd v) (by simpa using h) a
  | fenceI a => exact h.setPc a
  | trapReturn legal => exact h.trapReturn (supports_returnsFrom inv.priv legal)

/-- Settles O55: each effect of a step in `Off` mode leaves infinite capabilities where the proviso asks them. -/
theorem offModeKeepsTheStandardProviso : Obligations.OffModeKeepsTheStandardProviso := by
  intro s t inv hybrid off proviso stepped
  have inv := stateInv_of_inv inv
  have base := hasBase_of_hasHybrid hybrid
  rw [standardProviso_iff] at proviso ⊢
  rw [stepKeepsTheConfiguration s t stepped]
  cases stepEffect_of_step stepped with
  | interrupt pending => exact proviso.trapEntry inv (supports_interruptLevel pending) true _ _
  | exception code v => exact proviso.trapEntry inv (supports_exceptionLevel inv.priv code) false code v
  | table effect a => exact (proviso.effect inv base off effect).setPc a
  | base effect => exact proviso.baseEffect inv effect

end Sys2Proof.Proofs
end

section
/-! PROOF. The fetch (spec/10_state.md R15, R60, spec/20_memory.md R42, R54, spec/60_exceptions.md R163) and what a step does
with the bytes; and the execution mode (spec/45_mode_behaviour.md R140, R141). -/

namespace Sys2Proof.Proofs

open Sys2Proof.Machine Sys2Proof.Safety Sys2Proof.Laws

/-! ### Checks that stop -/

/-- A failed check of the authority stops as R161 says. -/
theorem authorise_error {s : State} {v : Cap} {a : XWord} {n : Nat} {kind : AccessKind}
    (h : authorises s.cfg v a n kind = false) :
    ∃ e, authorise s.cfg v a n kind = .error e ∧ settle s (.error e) = CheriFailure s v a n kind := by
  have fails := settle_authorise_fails h fun _ => .ok s
  cases check : authorise s.cfg v a n kind with
  | error e =>
    rw [check] at fails
    exact ⟨e, rfl, fails⟩
  | ok u => cases cause : s.cfg.causeCheri <;> simp [authorise, h, cause] at check

/-- A failed memory check stops as its first failing byte says. -/
theorem checkMemory_error {s : State} {kind : AccessKind} {a k n : Nat} {r : Option RegionKind} (hk : k < n)
    (h : FirstFails s.cfg a k r) :
    ∃ e, checkMemory s.cfg kind a n = .error e ∧ settle s (.error e) = MemoryFailure s kind (BitVec.ofNat 64 (a + k)) r := by
  have fails := checkMemory_fails (kind := kind) hk h fun _ => .ok s
  cases check : checkMemory s.cfg kind a n with
  | error e =>
    rw [check] at fails
    exact ⟨e, rfl, fails⟩
  | ok u => exact absurd (h.region.symm.trans (mainMemory_of_check check k hk)) h.fails

theorem fenced_iff {s : State} {a n : Nat} : fenced s a n = true ↔ ∀ k, k < n → a + k ∉ s.unfenced := by
  induction n generalizing a with
  | zero => simp [fenced]
  | succ n ih =>
    simp only [fenced, Bool.and_eq_true, Bool.not_eq_true', ih, List.contains_eq_mem, decide_eq_false_iff_not]
    constructor
    · rintro ⟨head, tail⟩ k hk
      cases k with
      | zero => exact head
      | succ k => rw [show a + (k + 1) = a + 1 + k by omega]; exact tail k (by omega)
    · intro all
      refine ⟨all 0 (by omega), fun k hk => ?_⟩
      rw [show a + 1 + k = a + (k + 1) by omega]
      exact all (k + 1) (by omega)

/-! ### The bytes at the pc -/

section FetchBytes

variable {s : State} {n : Nat}

theorem fetchBytes_not_authorised (base : s.cfg.hasBase = true) (h : authorises s.cfg s.pcc s.pcc.addr n .fetch = false) :
    ∃ e, fetchBytes s n = .error e ∧ settle s (.error e) = CheriFailure s s.pcc s.pcc.addr n .fetch := by
  obtain ⟨e, fails, stops⟩ := authorise_error h
  refine ⟨e, ?_, stops⟩
  simp only [fetchBytes, base, if_true, pc, fails, bind_error]

/-- Once `pcc` authorises the fetch, the exceptions of `BaseRV` follow. -/
theorem fetchBytes_authorised (auth : FetchAuthorised s n) : fetchBytes s n = (do
    require (fetchAligned s) (.trap 0 s.pcc.addr)
    checkMemory s.cfg .fetch s.pcc.addr.toNat n
    require (fenced s s.pcc.addr.toNat n) (.refuse .unfencedFetch)
    pure (readBytes s s.pcc.addr.toNat n)) := by
  cases base : s.cfg.hasBase
  · simp only [fetchBytes, base, Bool.false_eq_true, if_false, bind_ok, pc]
  · simp only [fetchBytes, base, if_true, pc, authorise_ok (auth base), bind_ok]

theorem fetchBytes_misaligned (auth : FetchAuthorised s n) (h : fetchAligned s = false) :
    fetchBytes s n = .error (.trap 0 s.pcc.addr) := by
  simp only [fetchBytes_authorised auth, h, require_false, bind_error]

theorem fetchBytes_memory_error (auth : FetchAuthorised s n) (aligned : fetchAligned s = true) {e : Stop}
    (h : checkMemory s.cfg .fetch s.pcc.addr.toNat n = .error e) : fetchBytes s n = .error e := by
  simp only [fetchBytes_authorised auth, aligned, require_true, bind_ok, h, bind_error]

theorem fetchBytes_unfenced (auth : FetchAuthorised s n) (aligned : fetchAligned s = true)
    (memory : MainMemory s.cfg s.pcc.addr.toNat n) {k : Nat} (hk : k < n) (h : s.pcc.addr.toNat + k ∈ s.unfenced) :
    fetchBytes s n = .error (.refuse .unfencedFetch) := by
  have notFenced : fenced s s.pcc.addr.toNat n = false := by
    by_contra all
    exact fenced_iff.mp (Bool.not_eq_false _ ▸ all) k hk h
  simp only [fetchBytes_authorised auth, aligned, require_true, bind_ok, checkMemory_ok memory, notFenced, require_false,
    bind_error]

theorem fetchBytes_ok (auth : FetchAuthorised s n) (aligned : fetchAligned s = true)
    (memory : MainMemory s.cfg s.pcc.addr.toNat n) (h : FetchFenced s n) :
    fetchBytes s n = .ok (readBytes s s.pcc.addr.toNat n) := by
  simp only [fetchBytes_authorised auth, aligned, require_true, bind_ok, checkMemory_ok memory, fenced_iff.mpr h]
  rfl

end FetchBytes

/-! ### One parcel or two (R60) -/

theorem fetch_of_first_error {s : State} {e : Stop} (h : fetchBytes s 2 = .error e) : fetch s = .error e := by
  simp only [fetch, h, bind_error]

/-- Where the first parcel says the instruction is wide, all four bytes are fetched anew. -/
theorem fetch_of_wide {s : State} (h : FirstParcelIsWide s) : fetch s = fetchBytes s 4 := by
  simp only [fetch, fetchBytes_ok h.authorised h.aligned h.memory h.fenced, bind_ok, readBytes, h.wide, if_true]

theorem fetch_of_parcel {s : State} {b0 b1 : Byte} (auth : FetchAuthorised s 2) (aligned : fetchAligned s = true)
    (memory : MainMemory s.cfg s.pcc.addr.toNat 2) (fenced : FetchFenced s 2)
    (bytes : readBytes s s.pcc.addr.toNat 2 = [b0, b1]) (narrow : isWide (parcelOf b0 b1) = false) : fetch s = .ok [b0, b1] := by
  simp only [fetch, fetchBytes_ok auth aligned memory fenced, bytes, bind_ok, narrow, Bool.false_eq_true, if_false]
  rfl

/-! ### What a step does with them -/

theorem step_of_fetch_error {s : State} {e : Stop} (quiet : pendingInterrupt s = none) (h : fetch s = .error e) :
    step s = settle s (.error e) := by
  simp only [step, quiet, h]

theorem step_of_parcel {s : State} {b0 b1 : Byte} (quiet : pendingInterrupt s = none) (h : fetch s = .ok [b0, b1])
    (narrow : isWide (parcelOf b0 b1) = false) : step s = parcelStep (parcelOf b0 b1) s := by
  simp only [step, quiet, h, decode, narrow, Bool.not_false, if_true, withoutRow]

/-- Four bytes of a word make the word, and its first parcel has its two lowest bits. -/
theorem wordOf_wordBytes (w : IWord) : wordOf (wordByte w 0) (wordByte w 1) (wordByte w 2) (wordByte w 3) = w := by
  unfold wordOf parcelOf wordByte
  repeat rw [BitVec.extractLsb'_append_extractLsb'_eq_extractLsb' (by rfl)]
  exact BitVec.extractLsb'_eq_self

theorem isWide_of_low_bits {w : IWord} (h : w &&& 3#32 = 3#32) : isWide (parcelOf (wordByte w 0) (wordByte w 1)) = true := by
  have low : w.extractLsb' 0 2 = 3#2 := by
    have low := congrArg (BitVec.extractLsb' 0 2) h
    rwa [BitVec.extractLsb'_and, show (3#32).extractLsb' 0 2 = BitVec.allOnes 2 by decide, BitVec.and_allOnes] at low
  have parcel : (parcelOf (wordByte w 0) (wordByte w 1)).extractLsb' 0 2 = w.extractLsb' 0 2 := by
    unfold parcelOf wordByte
    rw [BitVec.extractLsb'_append_extractLsb'_eq_extractLsb' (by rfl)]
    apply BitVec.eq_of_getLsbD_eq
    intro i hi
    simp [BitVec.getLsbD_extractLsb', hi, -BitVec.getLsbD_eq_getElem]
  rw [isWide, parcel, low]
  rfl

theorem decode_wordBytes {c : HartConfig} {w : IWord} {i : Instr} (wide : w &&& 3#32 = 3#32) (h : decodeWord c w = some i) :
    decode c (wordBytes w) = .ok (i, []) := by
  simp only [decode, wordBytes, isWide_of_low_bits wide, Bool.not_true, Bool.false_eq_true, if_false, wordOf_wordBytes, h]

/-- The first parcel of a word that can be fetched. -/
theorem firstParcelIsWide_of_fetches {s : State} {w : IWord} (h : Fetches s w) (wide : w &&& 3#32 = 3#32) :
    FirstParcelIsWide s := by
  obtain ⟨⟨auth2, -⟩, aligned, memory, fenced, bytes⟩ := h
  simp only [readBytes, wordBytes, List.cons.injEq] at bytes
  obtain ⟨b0, b1, -⟩ := bytes
  exact ⟨auth2, aligned, fun k hk => memory k (by omega), fun k hk => fenced k (by omega), by
    rw [b0, b1, isWide_of_low_bits wide]⟩

/-- Settles O4: the four bytes are fetched, and decode to the instruction. -/
theorem stepRunsTheDecodedInstruction : Obligations.StepRunsTheDecodedInstruction := by
  intro s w i quiet fetches wide decoded
  have fetched : fetch s = .ok (wordBytes w) := by
    rw [fetch_of_wide (firstParcelIsWide_of_fetches fetches wide), ← fetches.bytes]
    exact fetchBytes_ok fetches.authorised.2 fetches.aligned fetches.memory fetches.fenced
  simp only [step, quiet, fetched, decode_wordBytes wide decoded]

/-- Settles O6: the fence is the last check of either fetch. -/
theorem fetchOfStoredBytesIsRefused : Obligations.FetchOfStoredBytesIsRefused := by
  intro s k quiet stored
  refine ⟨fun hk auth aligned memory => ?_, fun hk wide auth memory => ?_⟩
  · rw [step_of_fetch_error quiet (fetch_of_first_error (fetchBytes_unfenced auth aligned memory hk stored)), settle_refuse]
  · have stops := (fetch_of_wide wide).trans (fetchBytes_unfenced auth wide.aligned memory hk stored)
    rw [step_of_fetch_error quiet stops, settle_refuse]

/-- Settles O7: a parcel in Capability Mode is remapped, or passes what is known of it and is refused. -/
theorem compressedIsRefusedInCapMode : Obligations.CompressedIsRefusedInCapMode := by
  intro s b0 b1 quiet cap auth aligned memory fenced bytes narrow
  rw [step_of_parcel quiet (fetch_of_parcel auth aligned memory fenced bytes narrow) narrow]
  refine ⟨fun i remaps => ?_, fun remaps unknown => ?_⟩
  · simp only [parcelStep, remaps]
  · have passes : (if isRemapped s.cfg (parcelOf b0 b1) then .ok () else knownGate ((parcelOf b0 b1).setWidth 32) s) =
        Except.ok (ε := Stop) () := by
      rcases unknown with listed | unknown
      · rw [if_pos listed]
      · rw [knownGate_of_none unknown, ite_self]
    simp only [parcelStep, remaps, passes, bind_ok, cap, if_true, settle_refuse]

/-- Settles O8: for either fetch the checks in their order; a stop of the first parcel's is the fetch's. -/
theorem fetchExceptionsInOrder : Obligations.FetchExceptionsInOrder := by
  intro s quiet
  have addr (k : Nat) : BitVec.ofNat 64 (s.pcc.addr.toNat + k) = s.pcc.addr + BitVec.ofNat 64 k := by
    rw [BitVec.ofNat_add, BitVec.ofNat_toNat, BitVec.setWidth_eq]
  refine ⟨fun base fails => ?_, fun auth misaligned => ?_, fun k r hk auth aligned fails => ?_, fun base wide fails => ?_,
    fun k r hk wide auth fails => ?_⟩
  · obtain ⟨e, stops, ends⟩ := fetchBytes_not_authorised base fails
    rw [step_of_fetch_error quiet (fetch_of_first_error stops), ends]
  · rw [step_of_fetch_error quiet (fetch_of_first_error (fetchBytes_misaligned auth misaligned)), settle_trap]
  · obtain ⟨e, stops, ends⟩ := checkMemory_error (kind := .fetch) hk fails
    rw [step_of_fetch_error quiet (fetch_of_first_error (fetchBytes_memory_error auth aligned stops)), ends, addr]
  · obtain ⟨e, stops, ends⟩ := fetchBytes_not_authorised base fails
    rw [step_of_fetch_error quiet ((fetch_of_wide wide).trans stops), ends]
  · obtain ⟨e, stops, ends⟩ := checkMemory_error (kind := .fetch) hk fails
    have fetched := (fetch_of_wide wide).trans (fetchBytes_memory_error auth wide.aligned stops)
    rw [step_of_fetch_error quiet fetched, ends, addr]

/-! ### The mode -/

/-- Settles O9: `mode` is the table, row by row. -/
theorem modeFollowsTheTable : Obligations.ModeFollowsTheTable := by
  intro s
  refine ⟨fun hybrid => ?_, fun base => by simp [mode, base], fun absent => by simp [mode, absent]⟩
  have table : mode s = if effCre s then (if mOf s.cfg s.pcc = s.cfg.capModeValue then .cap else .int) else .off :=
    mode_of_hybrid (by simp [HartConfig.hasHybrid, hybrid])
  have other : mOf s.cfg s.pcc = s.cfg.intModeValue ↔ mOf s.cfg s.pcc ≠ s.cfg.capModeValue := by
    unfold HartConfig.intModeValue
    cases mOf s.cfg s.pcc <;> cases s.cfg.capModeValue <;> decide
  have fixed (v : Cap) (off : effCre s = false) : mode { s with pcc := v } = .off := by
    have off : effCre { s with pcc := v } = false := off
    rw [mode_of_hybrid (by simp [HartConfig.hasHybrid, hybrid]), off, if_neg Bool.false_ne_true]
  rw [table, other]
  refine ⟨?_, ?_, ?_, fixed⟩ <;> cases effCre s <;> by_cases m : mOf s.cfg s.pcc = s.cfg.capModeValue <;> simp [m]

end Sys2Proof.Proofs
end

section
/-! PROOF. The instructions that write one register and nothing else: SH4ADD and SH4ADD.UW (spec/41_zish4add.md R80 to R82)
and SCMODE (spec/43_cheri_hybrid.md R103). -/

namespace Sys2Proof.Proofs

open Sys2Proof.Machine Sys2Proof.Safety Sys2Proof.Laws

theorem null_trunc (x : Xlen) (a : XWord) : (Cap.null a).trunc x = Cap.null (x.trunc a) := by
  simp [Cap.null, Cap.trunc]

/-- `next` after any effect that leaves `pcc`: the pc is 4 further on. -/
theorem advancedBy4_setPc {s u : State} (adv : pcAdvances s = true) (pcc : u.pcc = s.pcc) (cfg : u.cfg = s.cfg) :
    AdvancedBy4 s (setPc u (pc u + 4#64)) := by
  have next := trunc_next adv
  unfold AdvancedBy4
  rw [setPc_pcc, pc, pcc, cfg]
  exact congrArg (fun a => { s.pcc with addr := a }) next

theorem finish_advances {s u : State} (adv : pcAdvances s = true) (pcc : u.pcc = s.pcc) (cfg : u.cfg = s.cfg) :
    finish 4 s (.ok u) = .next (setPc u (pc u + 4#64)) := by
  have adv : pcAdvances u = true := (pcAdvances_congr pcc cfg).trans adv
  rw [finish_ok, advanceBy_ok adv, settle_ok]

/-- What a register write reads back, in its own register and in the others. -/
theorem rdGets_writeC (s : State) (rd : RegNum) (v : Cap) : RdGets rd (v.trunc s.cfg.xlen) (writeC s rd v) := by
  rw [RdGets, readC_writeC, if_pos rfl]

theorem keepsRegsBut_writeC (s : State) (rd : RegNum) (v : Cap) : KeepsRegsBut rd s (writeC s rd v) := by
  intro r ne
  rw [readC_writeC, if_neg ne]
  split
  · rename_i zero
    rw [zero, readC_zero]
  · rfl

/-- An instruction whose effect is one register write completes, and does nothing else. -/
theorem finish_writeC {s : State} (adv : pcAdvances s = true) (rd : RegNum) (v : Cap) :
    ∃ t, finish 4 s (.ok (writeC s rd v)) = .next t ∧ OnlyRd rd (v.trunc s.cfg.xlen) s t := by
  refine ⟨_, finish_advances adv (writeC_pcc ..) (writeC_cfg ..), ?_⟩
  exact {
    result := rdGets_writeC s rd v
    regs := keepsRegsBut_writeC s rd v
    pc := advancedBy4_setPc adv (writeC_pcc ..) (writeC_cfg ..)
    csrs := writeC_csrs ..
    hart := ⟨writeC_cfg .., writeC_priv ..⟩
    mem := ⟨fun a => readByte_congr (writeC_mem ..) a, writeC_memTags .., writeC_unfenced ..⟩
    reservation := writeC_reservation .. }

/-! ### SH4ADD and SH4ADD.UW -/

theorem finish_sh4addInteger {s : State} (adv : pcAdvances s = true) (rd rs2 : RegNum) (index : XWord) :
    ∃ t, finish 4 s (.ok (sh4addInteger s rd rs2 index)) = .next t ∧
      OnlyRd rd (Cap.null (s.cfg.xlen.trunc (readX s rs2 + index <<< 4))) s t := by
  rw [← null_trunc]
  exact finish_writeC adv rd _

/-- Outside Capability Mode both take the integer form. -/
theorem sh4addForm_integer {s : State} (notCap : mode s ≠ .cap) (uw : Bool) (rd rs1 rs2 : RegNum) (index : XWord) :
    sh4addForm uw rd rs1 rs2 index s = .ok (sh4addInteger s rd rs2 index) := if_neg notCap

/-- The zero-extended low word, as a mask. -/
theorem zeroExtend_low_word (a : XWord) : (a.setWidth 32).setWidth 64 = a &&& 0xffffffff#64 := by
  have mask : (0xffffffff#64).toNat = 2 ^ 32 - 1 := by decide
  apply BitVec.eq_of_toNat_eq
  rw [BitVec.toNat_and, mask, Nat.and_two_pow_sub_one_eq_mod, BitVec.toNat_setWidth, BitVec.toNat_setWidth]
  omega

theorem exec_sh4add (s : State) (rd rs1 rs2 : RegNum) :
    exec (.sh4add rd rs1 rs2) s = finish 4 s (sh4addForm false rd rs1 rs2 (readX s rs1) s) := rfl

theorem exec_sh4addUw {s : State} (rv64 : s.cfg.xlen = .rv64) (rd rs1 rs2 : RegNum) :
    exec (.sh4addUw rd rs1 rs2) s = finish 4 s (sh4addForm true rd rs1 rs2 (readX s rs1 &&& 0xffffffff#64) s) := by
  rw [exec_eq_finish, body, sh4addUwBody, if_pos rv64, zeroExtend_low_word]

/-- Settles O10: the integer form is one register write. -/
theorem sh4addAddsTheShiftedIndex : Obligations.Sh4addAddsTheShiftedIndex := by
  intro s rd rs1 rs2 notCap adv
  rw [exec_sh4add, sh4addForm_integer notCap]
  exact finish_sh4addInteger adv rd rs2 _

/-- Settles O11: the integer form with the zero-extended index, whose sum needs no reduction at XLEN = 64. -/
theorem sh4addUwAddsTheZeroExtendedIndex : Obligations.Sh4addUwAddsTheZeroExtendedIndex := by
  intro s rd rs1 rs2
  refine ⟨fun rv64 notCap adv => ?_, fun rv32 => ?_⟩
  · have done := finish_sh4addInteger adv rd rs2 (readX s rs1 &&& 0xffffffff#64)
    rw [rv64, trunc_rv64] at done
    rwa [exec_sh4addUw rv64, sh4addForm_integer notCap]
  · have notRv64 : s.cfg.xlen ≠ .rv64 := by rw [rv32]; decide
    rw [exec_eq_finish, body, sh4addUwBody, if_neg notRv64, finish_error, settle_refuse]

/-- Settles O12: the four values of the parameter, for either instruction. -/
theorem sh4addInCapModeFollowsTheParameter : Obligations.Sh4addInCapModeFollowsTheParameter := by
  intro s rd rs1 rs2 i uw index cap adv which
  have runs : exec i s = finish 4 s (sh4addForm uw rd rs1 rs2 index s) := by
    obtain ⟨rfl, rfl, rfl⟩ | ⟨rfl, rv64, rfl, rfl⟩ := which
    · exact exec_sh4add s rd rs1 rs2
    · exact exec_sh4addUw rv64 rd rs1 rs2
  rw [runs, sh4addForm, if_pos cap]
  refine ⟨fun sem => ?_, fun sem => ?_, fun sem => ?_, fun sem => ?_⟩ <;> rw [sem]
  · rfl
  · rfl
  · exact finish_sh4addInteger adv rd rs2 index
  · exact finish_writeC adv rd _

/-- Settles O60: the advance is the last check, and the only one of SH4ADD outside Capability Mode. -/
theorem pcWrapIsRefused : Obligations.PcWrapIsRefused := by
  intro s rd rs1 rs2 notCap wraps
  have wraps : pcAdvances (sh4addInteger s rd rs2 (readX s rs1)) = false :=
    (pcAdvances_congr (writeX_pcc ..) (writeX_cfg ..)).trans wraps
  rw [exec_sh4add, sh4addForm_integer notCap, finish_ok, advanceBy_wraps wraps, settle_refuse]

/-! ### SCMODE -/

theorem exec_scmode (s : State) (rd rs1 rs2 : RegNum) :
    exec (.scmode rd rs1 rs2) s = finish 4 s ((hybridCheck s s.cfg.scmodeInInt).map fun _ =>
      writeC s rd (Config.scmodeSem (readC s rs1) (readX s rs2))) := rfl

/-- Settles O43: the check of the hybrid instructions, then one register write. -/
theorem scmodeWritesTheCapability : Obligations.ScmodeWritesTheCapability := by
  intro s rd rs1 rs2 hybrid
  rw [exec_scmode]
  refine ⟨fun off => finish_map_illegal (hybridCheck_off hybrid off) _,
    fun int excluded => finish_map_illegal (hybridCheck_excluded hybrid int excluded) _, fun legal adv => ?_⟩
  rw [hybridCheck_legal hybrid legal]
  exact finish_writeC adv rd _

end Sys2Proof.Proofs
end

section
/-! PROOF. LR.B, LR.H, SC.B and SC.H (spec/40_zabhlrsc.md R70 to R75): how they complete, in which order their checks fail,
and that the CRE bits do not control them (with SH4ADD: R80). -/

namespace Sys2Proof.Proofs

open Sys2Proof.Machine Sys2Proof.Safety Sys2Proof.Laws

/-! ### The checks in their order (R71, R163) -/

section Checks

variable {s : State} {rd rs1 rs2 : RegNum} {n : Nat} {e : Stop}

theorem loadReserved_of_addr_error (h : lrScAddr s rs1 n .load = .error e) : loadReserved n rd rs1 s = .error e := by
  simp only [loadReserved, h, bind_error]

theorem storeConditional_of_addr_error (h : lrScAddr s rs1 n .store = .error e) : storeConditional n rd rs1 rs2 s = .error e := by
  simp only [storeConditional, h, bind_error]

theorem loadReserved_of_memory_error (auth : DataAuthorised s rs1 n .load) (aligned : lrScAddrOf s rs1 % n = 0)
    (h : checkMemory s.cfg .load (lrScAddrOf s rs1) n = .error e) : loadReserved n rd rs1 s = .error e := by
  rw [lrScAddrOf] at h
  simp only [loadReserved, lrScAddr_ok auth aligned, bind_ok, h, bind_error]

theorem storeConditional_of_memory_error (auth : DataAuthorised s rs1 n .store) (aligned : lrScAddrOf s rs1 % n = 0)
    (h : checkMemory s.cfg .store (lrScAddrOf s rs1) n = .error e) : storeConditional n rd rs1 rs2 s = .error e := by
  rw [lrScAddrOf] at h
  simp only [storeConditional, lrScAddr_ok auth aligned, bind_ok, h, bind_error]

theorem loadReserved_ok (auth : DataAuthorised s rs1 n .load) (aligned : lrScAddrOf s rs1 % n = 0)
    (memory : MainMemory s.cfg (lrScAddrOf s rs1) n) : loadReserved n rd rs1 s = .ok (loadReservedAt s rd n (readX s rs1)) := by
  have memory := checkMemory_ok (kind := .load) memory
  rw [lrScAddrOf] at memory
  simp only [loadReserved, lrScAddr_ok auth aligned, bind_ok, memory]
  rfl

theorem storeConditional_ok (auth : DataAuthorised s rs1 n .store) (aligned : lrScAddrOf s rs1 % n = 0)
    (memory : MainMemory s.cfg (lrScAddrOf s rs1) n) :
    storeConditional n rd rs1 rs2 s = .ok (storeConditionalAt s rd rs2 n (readX s rs1)) := by
  have memory := checkMemory_ok (kind := .store) memory
  rw [lrScAddrOf] at memory
  simp only [storeConditional, lrScAddr_ok auth aligned, bind_ok, memory]
  rfl

end Checks

theorem exec_lrB (s : State) (rd rs1 : RegNum) (aq rl : Bool) :
    exec (.lrB rd rs1 aq rl) s = finish 4 s (loadReserved 1 rd rs1 s) := rfl

theorem exec_lrH (s : State) (rd rs1 : RegNum) (aq rl : Bool) :
    exec (.lrH rd rs1 aq rl) s = finish 4 s (loadReserved 2 rd rs1 s) := rfl

theorem exec_scB (s : State) (rd rs1 rs2 : RegNum) (aq rl : Bool) :
    exec (.scB rd rs1 rs2 aq rl) s = finish 4 s (storeConditional 1 rd rs1 rs2 s) := rfl

theorem exec_scH (s : State) (rd rs1 rs2 : RegNum) (aq rl : Bool) :
    exec (.scH rd rs1 rs2 aq rl) s = finish 4 s (storeConditional 2 rd rs1 rs2 s) := rfl

/-- The authority of an access stops it first (R71). -/
theorem lrScAddr_not_authorised {s : State} {rs1 : RegNum} {n : Nat} {kind : AccessKind} {auth : Cap}
    (authority : dataAuth s rs1 = some auth) (h : authorises s.cfg auth (readX s rs1) n kind = false) :
    ∃ e, lrScAddr s rs1 n kind = .error e ∧ settle s (.error e) = CheriFailure s auth (readX s rs1) n kind := by
  obtain ⟨e, fails, ends⟩ := authorise_error h
  refine ⟨e, ?_, ends⟩
  simp only [lrScAddr, authoriseData, authority, dataAddr, fails, bind_error]

/-- Settles O17: with an authority that does not authorise the access, its check is where each of the four ends. -/
theorem lrScFailsTheCheckOfItsAuthority : Obligations.LrScFailsTheCheckOfItsAuthority := by
  intro s rd rs1 rs2 aq rl auth which
  have authority : dataAuth s rs1 = some auth := by
    obtain ⟨cap, rfl⟩ | ⟨notCap, hybrid, rfl⟩ := which
    · simp [dataAuth, cap]
    · simp [dataAuth, notCap, hybrid]
  refine ⟨fun fails => ?_, fun fails => ?_, fun fails => ?_, fun fails => ?_⟩ <;>
    obtain ⟨e, stops, ends⟩ := lrScAddr_not_authorised authority fails
  · rw [exec_lrB, loadReserved_of_addr_error stops, finish_error, ends]
  · rw [exec_lrH, loadReserved_of_addr_error stops, finish_error, ends]
  · rw [exec_scB, storeConditional_of_addr_error stops, finish_error, ends]
  · rw [exec_scH, storeConditional_of_addr_error stops, finish_error, ends]

/-- Settles O18: alignment is the second check. -/
theorem misalignedHalfRaises : Obligations.MisalignedHalfRaises := by
  intro s rd rs1 rs2 aq rl odd
  have odd : lrScAddrOf s rs1 % 2 ≠ 0 := by omega
  refine ⟨fun auth => ?_, fun auth => ?_⟩
  · rw [exec_lrH, loadReserved_of_addr_error (lrScAddr_misaligned auth odd), finish_error, settle_trap, misalignedCode]
  · rw [exec_scH, storeConditional_of_addr_error (lrScAddr_misaligned auth odd), finish_error, settle_trap, misalignedCode]

/-- Settles O19: memory is the last check. -/
theorem memoryFaultsOfLrAndSc : Obligations.MemoryFaultsOfLrAndSc := by
  intro s rd rs1 rs2 aq rl k r fails
  have addr : BitVec.ofNat 64 (lrScAddrOf s rs1 + k) = readX s rs1 + BitVec.ofNat 64 k := by
    rw [lrScAddrOf, BitVec.ofNat_add, BitVec.ofNat_toNat, BitVec.setWidth_eq]
  have stop (kind : AccessKind) {n : Nat} (hk : k < n) :
      ∃ e, checkMemory s.cfg kind (lrScAddrOf s rs1) n = .error e ∧
        settle s (.error e) = MemoryFailure s kind (readX s rs1 + BitVec.ofNat 64 k) r := addr ▸ checkMemory_error hk fails
  refine ⟨fun hk auth => ?_, fun hk auth even => ?_, fun hk auth => ?_, fun hk auth even => ?_⟩
  · obtain ⟨e, stops, ends⟩ := stop .load (n := 1) (by omega)
    rw [exec_lrB, loadReserved_of_memory_error auth (Nat.mod_one _) stops, finish_error, ends, hk, BitVec.add_zero]
  · obtain ⟨e, stops, ends⟩ := stop .load hk
    rw [exec_lrH, loadReserved_of_memory_error auth even stops, finish_error, ends]
  · obtain ⟨e, stops, ends⟩ := stop .store (n := 1) (by omega)
    rw [exec_scB, storeConditional_of_memory_error auth (Nat.mod_one _) stops, finish_error, ends, hk, BitVec.add_zero]
  · obtain ⟨e, stops, ends⟩ := stop .store hk
    rw [exec_scH, storeConditional_of_memory_error auth even stops, finish_error, ends]

/-! ### A load-reserved that completes (R72, R73) -/

/-- The reservation set is a multiple of the access, so it contains an aligned one (R35). -/
theorem reservationFor_contains {c : HartConfig} {a n : Nat} (bytes : n = 1 ∨ n = 2) (aligned : a % n = 0) :
    (reservationFor c a n).base ≤ a ∧ a + n ≤ (reservationFor c a n).base + (reservationFor c a n).size := by
  have dvdSize : n ∣ max n (2 ^ c.granuleLog) := by
    rcases bytes with rfl | rfl
    · exact Nat.one_dvd _
    · cases c.granuleLog with
      | zero => exact Nat.dvd_refl 2
      | succ g =>
        have large : 2 ≤ 2 ^ (g + 1) := Nat.le_self_pow (Nat.succ_ne_zero g) 2
        rw [max_eq_right large]
        exact Nat.dvd_of_mod_eq_zero (by omega)
  have positive : 0 < max n (2 ^ c.granuleLog) := Nat.lt_of_lt_of_le (by omega) (le_max_left n _)
  simp only [reservationFor]
  generalize max n (2 ^ c.granuleLog) = size at dvdSize positive
  have split := Nat.div_add_mod' a size
  have inside := Nat.mod_lt a positive
  have room : n ≤ size - a % size := by
    refine Nat.le_of_dvd (by omega) (Nat.dvd_sub dvdSize ?_)
    exact (Nat.dvd_mod_iff dvdSize).mpr (Nat.dvd_of_mod_eq_zero aligned)
  omega

theorem memRead_one (s : State) (a : XWord) : (memRead s a 1).setWidth 8 = readByte s a.toNat := by
  simp [memRead, readBytes, leValue]

theorem memRead_two (s : State) (a : XWord) :
    (memRead s a 2).setWidth 16 = readByte s (a.toNat + 1) ++ readByte s a.toNat := by
  simp only [memRead, readBytes, leValue, BitVec.zero_shiftLeft, BitVec.or_zero]
  generalize readByte s (a.toNat + 1) = high
  generalize readByte s a.toNat = low
  apply BitVec.eq_of_getLsbD_eq
  intro i hi
  rw [BitVec.getLsbD_append, BitVec.getLsbD_setWidth, BitVec.getLsbD_or, BitVec.getLsbD_setWidth, BitVec.getLsbD_shiftLeft,
    BitVec.getLsbD_setWidth]
  have inWord : i < 64 := by omega
  by_cases h : i < 8
  · simp [h, hi, inWord, -BitVec.getLsbD_eq_getElem]
  · have above : low.getLsbD i = false := BitVec.getLsbD_of_ge low i (by omega)
    have inWord' : i - 8 < 64 := by omega
    simp [h, hi, inWord, inWord', above, -BitVec.getLsbD_eq_getElem]

/-- A load-reserved that passes its checks completes with the loaded bytes, sign-extended. -/
theorem loadReserved_completes {s : State} {rd rs1 : RegNum} {n : Nat} (bytes : n = 1 ∨ n = 2)
    (auth : DataAuthorised s rs1 n .load) (aligned : lrScAddrOf s rs1 % n = 0) (memory : MainMemory s.cfg (lrScAddrOf s rs1) n)
    (adv : pcAdvances s = true) :
    ∃ t, finish 4 s (loadReserved n rd rs1 s) = .next t ∧
      LoadReservedDone (lrScAddrOf s rs1) n rd (((memRead s (readX s rs1) n).setWidth (8 * n)).signExtend 64) s t := by
  rw [loadReserved_ok auth aligned memory]
  refine ⟨_, finish_advances adv (loadReservedAt_pcc ..) (loadReservedAt_cfg ..), ?_⟩
  obtain ⟨low, high⟩ := reservationFor_contains (c := s.cfg) bytes aligned
  exact {
    result := by
      have written := rdGets_writeC { s with reservation := some (reservationFor s.cfg (readX s rs1).toNat n) } rd
        (Cap.null (signExtend s.cfg n (memRead s (readX s rs1) n)))
      rw [null_trunc, signExtend, trunc_trunc] at written
      exact written
    reservation := by
      show (loadReservedAt s rd n (readX s rs1)).reservation.any _ = true
      rw [loadReservedAt, writeX_reservation]
      simp only [Option.any_some, Bool.and_eq_true, decide_eq_true_eq]
      exact ⟨low, high⟩
    regs := keepsRegsBut_writeC { s with reservation := _ } rd _
    pc := advancedBy4_setPc adv (loadReservedAt_pcc ..) (loadReservedAt_cfg ..)
    csrs := loadReservedAt_csrs ..
    hart := ⟨loadReservedAt_cfg .., writeX_priv ..⟩
    mem := ⟨fun a => readByte_congr (writeX_mem ..) a, writeX_memTags .., writeX_unfenced ..⟩ }

/-- Settles O13: one byte. -/
theorem loadReservedByteCompletes : Obligations.LoadReservedByteCompletes := by
  intro s rd rs1 aq rl auth memory adv
  have done := loadReserved_completes (rd := rd) (.inl rfl) auth (Nat.mod_one _) memory adv
  rwa [memRead_one] at done

/-- Settles O14: two bytes at an even address. -/
theorem loadReservedHalfCompletes : Obligations.LoadReservedHalfCompletes := by
  intro s rd rs1 aq rl auth even memory adv
  have done := loadReserved_completes (rd := rd) (.inr rfl) auth even memory adv
  rwa [memRead_two] at done

/-! ### A store-conditional that completes (R74, R75) -/

/-- An aligned access of one or two bytes lies in one granule of CLEN bits. -/
theorem granuleOf_add {c : HartConfig} {a n k : Nat} (bytes : n = 1 ∨ n = 2) (aligned : a % n = 0) (hk : k < n) :
    granuleOf c (a + k) = granuleOf c a := by
  unfold granuleOf
  rcases bytes with rfl | rfl
  · rw [show k = 0 by omega, Nat.add_zero]
  · cases c.xlen <;> simp only [Xlen.bits] <;> omega

/-- What a memory write of one or two bytes stores, and what it leaves. -/
theorem stored_memWrite {s : State} (wf : memoryWf s = true) {a v : XWord} {n : Nat} (bytes : n = 1 ∨ n = 2)
    (aligned : a.toNat % n = 0) : Stored a.toNat n v s (memWrite s a n v) where
  bytes k hk := by
    rw [memWrite, readByte_storeBytes _ wf, dif_pos (by rw [length_leBytes]; omega), getElem_leBytes, Nat.add_sub_cancel_left]
  others b hb := by
    rw [memWrite, readByte_storeBytes _ wf, dif_neg (by rw [length_leBytes]; omega)]
  tags g := by
    rw [memWrite, mem_memTags_storeBytes, length_leBytes]
    refine and_congr_right fun _ => ⟨fun all => all 0 (by omega), fun ne k hk => ?_⟩
    rwa [granuleOf_add bytes aligned hk]
  unfenced b := by
    rw [memWrite, mem_unfenced_storeBytes, length_leBytes]

/-- The two outcomes; neither depends on the draws made so far, nor on the pc. -/
theorem storeSucceeds_outcome {s : State} (wf : memoryWf s = true) (rd rs2 : RegNum) {a : XWord} {n : Nat}
    (bytes : n = 1 ∨ n = 2) (aligned : a.toNat % n = 0) (draws : Nat) (p : XWord) :
    let t := setPc (storeSucceeds { s with draws } rd rs2 n a) p
    RdGets rd (Cap.null 0#64) t ∧ Stored a.toNat n (readX s rs2) s t ∧ KeepsRegsBut rd s t := by
  let u : State := { s with draws, reservation := none }
  have stored := stored_memWrite (s := u) wf (v := readX s rs2) bytes aligned
  have zero := rdGets_writeC (memWrite u a n (readX s rs2)) rd (Cap.null 0#64)
  have regs := keepsRegsBut_writeC (memWrite u a n (readX s rs2)) rd (Cap.null 0#64)
  rw [null_trunc, trunc_zero] at zero
  refine ⟨zero, ?_, fun r ne => (regs r ne).trans (readC_congr (memWrite_regs ..) r)⟩
  have mem (b : Nat) := readByte_congr (writeX_mem (memWrite u a n (readX s rs2)) rd 0#64) b
  refine ⟨fun k hk => (mem _).trans (stored.bytes k hk), fun b hb => (mem b).trans (stored.others b hb), fun g => ?_, fun b => ?_⟩
  · show g ∈ (writeX (memWrite u a n (readX s rs2)) rd 0#64).memTags ↔ _
    rw [writeX_memTags]
    exact stored.tags g
  · show b ∈ (writeX (memWrite u a n (readX s rs2)) rd 0#64).unfenced ↔ _
    rw [writeX_unfenced]
    exact stored.unfenced b

theorem storeFails_outcome (s : State) (rd : RegNum) (draws : Nat) (p : XWord) :
    let t := setPc (storeFails { s with draws } rd) p
    RdGets rd (Cap.null 1#64) t ∧ KeepsMemory s t ∧ KeepsRegsBut rd s t := by
  have one := rdGets_writeC { s with draws, reservation := none } rd (Cap.null 1#64)
  rw [null_trunc, trunc_one] at one
  exact ⟨one, ⟨fun a => readByte_congr (writeX_mem ..) a, writeX_memTags .., writeX_unfenced ..⟩,
    keepsRegsBut_writeC { s with draws, reservation := none } rd _⟩

/-- A store-conditional that passes its checks completes, with or without its store. -/
theorem storeConditional_completes {s : State} {rd rs1 rs2 : RegNum} {n : Nat} (bytes : n = 1 ∨ n = 2)
    (wf : memoryWf s = true) (auth : DataAuthorised s rs1 n .store) (aligned : lrScAddrOf s rs1 % n = 0)
    (memory : MainMemory s.cfg (lrScAddrOf s rs1) n) (adv : pcAdvances s = true) :
    ∃ t, finish 4 s (storeConditional n rd rs1 rs2 s) = .next t ∧ StoreConditionalDone (lrScAddrOf s rs1) n rd rs2 s t := by
  rw [storeConditional_ok auth aligned memory]
  obtain ⟨cfg, pcc, csrs, priv, reservation⟩ := storeConditionalAt_keeps s rd rs2 n (readX s rs1)
  refine ⟨_, finish_advances adv pcc cfg, ?_⟩
  have moved := advancedBy4_setPc adv pcc cfg
  obtain ⟨held, draw, e⟩ | ⟨fails, draws, e⟩ := storeConditionalAt_cases s rd rs2 n (readX s rs1)
  · obtain ⟨result, stored, regs⟩ := storeSucceeds_outcome wf rd rs2 bytes aligned (s.draws + 1)
      (pc (storeConditionalAt s rd rs2 n (readX s rs1)) + 4#64)
    rw [← e] at result stored regs
    have held : reserved s (lrScAddrOf s rs1) n = true := held
    exact ⟨by rw [if_pos ⟨held, draw⟩]; exact ⟨result, stored⟩, reservation, regs, moved, csrs, cfg, priv⟩
  · obtain ⟨result, memory, regs⟩ := storeFails_outcome s rd draws (pc (storeConditionalAt s rd rs2 n (readX s rs1)) + 4#64)
    rw [← e] at result memory regs
    have fails : ¬ (reserved s (lrScAddrOf s rs1) n = true ∧ Config.scSucceeds s.draws = true) := fails
    exact ⟨by rw [if_neg fails]; exact ⟨result, memory⟩, reservation, regs, moved, csrs, cfg, priv⟩

/-- Settles O15: one byte. -/
theorem storeConditionalByteCompletes : Obligations.StoreConditionalByteCompletes := by
  intro s rd rs1 rs2 aq rl wf auth memory adv
  exact storeConditional_completes (.inl rfl) wf auth (Nat.mod_one _) memory adv

/-- Settles O16: two bytes at an even address. -/
theorem storeConditionalHalfCompletes : Obligations.StoreConditionalHalfCompletes := by
  intro s rd rs1 rs2 aq rl wf auth even memory adv
  exact storeConditional_completes (.inr rfl) wf auth even memory adv

/-! ### The CRE bits (R70, R80) -/

section CreWords

variable (v : CreWords) (s : State)

theorem writeC_withCreWords (r : RegNum) (x : Cap) : writeC (withCreWords v s) r x = withCreWords v (writeC s r x) := by
  unfold writeC
  split <;> rfl

theorem writeX_withCreWords (r : RegNum) (x : XWord) : writeX (withCreWords v s) r x = withCreWords v (writeX s r x) :=
  writeC_withCreWords v s r _

theorem storeBytes_withCreWords (bs : List Byte) : ∀ (s : State) (a : Nat),
    storeBytes (withCreWords v s) a bs = withCreWords v (storeBytes s a bs) := by
  induction bs with
  | nil => exact fun _ _ => rfl
  | cons b rest ih => exact fun s a => ih (storeByte s a b) (a + 1)

theorem memRead_withCreWords (a : XWord) (n : Nat) : memRead (withCreWords v s) a n = memRead s a n := by
  have bytes : ∀ (n a : Nat), readBytes (withCreWords v s) a n = readBytes s a n := by
    intro n
    induction n with
    | zero => exact fun _ => rfl
    | succ n ih => exact fun a => congrArg _ (ih (a + 1))
  rw [memRead, bytes, memRead]

/-- Trap entry looks at none of the three words, and writes none. -/
theorem takeException_withCreWords (code : Nat) (x : XWord) :
    takeException (withCreWords v s) code x = withCreWords v (takeException s code x) := by
  have level : exceptionLevel (withCreWords v s) code = exceptionLevel s code := rfl
  unfold takeException
  rw [level]
  cases exceptionLevel s code <;> rfl

/-- What ends without a look at the three words ends alike. -/
theorem finish_withCreWords (len : Nat) (x : Except Stop State) :
    finish len (withCreWords v s) (x.map (withCreWords v)) = mapNext (withCreWords v) (finish len s x) := by
  cases x with
  | error e =>
    cases e with
    | trap code tval => exact congrArg Host.Outcome.next (takeException_withCreWords v s code tval)
    | fault r => rfl
    | refuse r => rfl
  | ok u =>
    have adv : advanceBy len (withCreWords v u) = (advanceBy len u).map (withCreWords v) := by
      unfold advanceBy
      have same : pcAdvancesBy len (withCreWords v u) = pcAdvancesBy len u := rfl
      rw [same]
      split <;> rfl
    show settle _ (advanceBy len (withCreWords v u)) = mapNext _ (settle s (advanceBy len u))
    rw [adv]
    unfold advanceBy
    split <;> rfl

variable {v s}

/-- The checks of an access are the same where Capability Mode is. -/
theorem lrScAddr_withCreWords (same : mode (withCreWords v s) = .cap ↔ mode s = .cap) (rs1 : RegNum) (n : Nat)
    (kind : AccessKind) : lrScAddr (withCreWords v s) rs1 n kind = lrScAddr s rs1 n kind := by
  have auth : dataAuth (withCreWords v s) rs1 = dataAuth s rs1 := by
    unfold dataAuth
    simp only [same]
    rfl
  simp only [lrScAddr, authoriseData, auth]
  rfl

theorem loadReserved_withCreWords (same : mode (withCreWords v s) = .cap ↔ mode s = .cap) (n : Nat) (rd rs1 : RegNum) :
    loadReserved n rd rs1 (withCreWords v s) = (loadReserved n rd rs1 s).map (withCreWords v) := by
  have done (a : XWord) : loadReservedAt (withCreWords v s) rd n a = withCreWords v (loadReservedAt s rd n a) := by
    unfold loadReservedAt
    rw [memRead_withCreWords]
    exact writeX_withCreWords v { s with reservation := some (reservationFor s.cfg a.toNat n) } rd
      (signExtend s.cfg n (memRead s a n))
  have cfg : (withCreWords v s).cfg = s.cfg := rfl
  unfold loadReserved
  rw [lrScAddr_withCreWords same, cfg]
  cases lrScAddr s rs1 n .load with
  | error e => rfl
  | ok a =>
    rw [bind_ok, bind_ok, done]
    cases checkMemory s.cfg .load a.toNat n <;> rfl

theorem storeConditional_withCreWords (same : mode (withCreWords v s) = .cap ↔ mode s = .cap) (n : Nat)
    (rd rs1 rs2 : RegNum) :
    storeConditional n rd rs1 rs2 (withCreWords v s) = (storeConditional n rd rs1 rs2 s).map (withCreWords v) := by
  have stores (s : State) (a : XWord) : storeSucceeds (withCreWords v s) rd rs2 n a = withCreWords v (storeSucceeds s rd rs2 n a) := by
    rw [storeSucceeds, storeSucceeds, ← writeX_withCreWords, memWrite, memWrite, ← storeBytes_withCreWords]
    rfl
  have fails (s : State) : storeFails (withCreWords v s) rd = withCreWords v (storeFails s rd) :=
    writeX_withCreWords v { s with reservation := none } rd _
  have done (a : XWord) :
      storeConditionalAt (withCreWords v s) rd rs2 n a = withCreWords v (storeConditionalAt s rd rs2 n a) := by
    have held : reserved (withCreWords v s) a.toNat n = reserved s a.toNat n := rfl
    have draws : (withCreWords v s).draws = s.draws := rfl
    unfold storeConditionalAt
    rw [held, draws]
    cases reserved s a.toNat n
    · exact fails s
    · cases Config.scSucceeds s.draws
      · exact fails { s with draws := s.draws + 1 }
      · exact stores { s with draws := s.draws + 1 } a
  have cfg : (withCreWords v s).cfg = s.cfg := rfl
  unfold storeConditional
  rw [lrScAddr_withCreWords same, cfg]
  cases lrScAddr s rs1 n .store with
  | error e => rfl
  | ok a =>
    rw [bind_ok, bind_ok, done]
    cases checkMemory s.cfg .store a.toNat n <;> rfl

theorem sh4addForm_withCreWords (same : mode (withCreWords v s) = .cap ↔ mode s = .cap) (uw : Bool) (rd rs1 rs2 : RegNum)
    (index : XWord) :
    sh4addForm uw rd rs1 rs2 index (withCreWords v s) = (sh4addForm uw rd rs1 rs2 index s).map (withCreWords v) := by
  have integer : sh4addInteger (withCreWords v s) rd rs2 index = withCreWords v (sh4addInteger s rd rs2 index) :=
    writeX_withCreWords v s rd _
  have capability (x : Cap) := writeC_withCreWords v s rd x
  have cfg : (withCreWords v s).cfg = s.cfg := rfl
  unfold sh4addForm
  rw [integer, cfg]
  by_cases cap : mode s = .cap
  · rw [if_pos (same.mpr cap), if_pos cap]
    cases s.cfg.sh4addCap with
    | none => rfl
    | some sem =>
      cases sem with
      | capability => exact congrArg Except.ok (capability _)
      | _ => rfl
  · rw [if_neg (fun h => cap (same.mp h)), if_neg cap]
    rfl

end CreWords

/-- Settles O20: each effect is the same on the words the instruction does not look at, and so is how it ends. -/
theorem creDoesNotControlLrScAndSh4add : Obligations.CreDoesNotControlLrScAndSh4add := by
  intro s v i uncontrolled same
  have effect : body i (withCreWords v s) = (body i s).map (withCreWords v) := by
    cases i with
    | lrB rd rs1 aq rl => exact loadReserved_withCreWords same 1 rd rs1
    | lrH rd rs1 aq rl => exact loadReserved_withCreWords same 2 rd rs1
    | scB rd rs1 rs2 aq rl => exact storeConditional_withCreWords same 1 rd rs1 rs2
    | scH rd rs1 rs2 aq rl => exact storeConditional_withCreWords same 2 rd rs1 rs2
    | sh4add rd rs1 rs2 => exact sh4addForm_withCreWords same false rd rs1 rs2 _
    | sh4addUw rd rs1 rs2 =>
      simp only [body, sh4addUwBody]
      have cfg : (withCreWords v s).cfg = s.cfg := rfl
      rw [cfg]
      split
      · exact sh4addForm_withCreWords same true rd rs1 rs2 _
      · rfl
    | _ => cases uncontrolled
  rw [exec_eq_finish, exec_eq_finish, effect, finish_withCreWords]

end Sys2Proof.Proofs
end

section
/-! PROOF. The six CSR instructions (spec/44_csr_access.md R110 to R127): an access that passes its checks writes the CSR file
and delivers the old value, and that is all; one that fails them ends with what they raise. -/

namespace Sys2Proof.Proofs

open Sys2Proof.Machine Sys2Proof.Safety Sys2Proof.Laws

/-! ### Accesses that complete -/

/-- The CSR file becomes `f` and `rd` gets a value: the whole effect of a CSR instruction. -/
theorem finish_deliver {s : State} (adv : pcAdvances s = true) (f : CsrFile) (rd : RegNum) (w : Width) (v : Cap) :
    ∃ t, finish 4 s (.ok (passEvent .csrAccess (deliver { s with csrs := f } rd w v))) = .next t ∧
      OnlyRdAndCsrs rd (delivered s.cfg w v) f s t := by
  have pcc : (passEvent .csrAccess (deliver { s with csrs := f } rd w v)).pcc = s.pcc := deliver_pcc ..
  have cfg : (passEvent .csrAccess (deliver { s with csrs := f } rd w v)).cfg = s.cfg := deliver_cfg ..
  refine ⟨_, finish_advances adv pcc cfg, ?_⟩
  exact {
    result := (readC_deliver { s with csrs := f } rd rd w v).trans (by rw [if_pos rfl])
    csrs := deliver_csrs ..
    regs := fun r ne => (readC_deliver { s with csrs := f } rd r w v).trans (by
      rw [if_neg ne]
      split
      · rename_i zero
        rw [zero, readC_zero]
      · rfl)
    pc := advancedBy4_setPc adv pcc cfg
    hart := ⟨cfg, deliver_priv ..⟩
    mem := ⟨fun a => readByte_congr (deliver_mem ..) a, deliver_memTags .., deliver_unfenced ..⟩
    reservation := by
      show afterEvent (deliver _ rd w v).cfg .csrAccess (deliver _ rd w v).reservation = _
      rw [deliver_cfg, deliver_reservation] }

/-- A CSR instruction with a body of this form completes where its access is allowed. -/
theorem csr_completes {s : State} {i : Instr} {num : CsrNum} {writes : Bool} {target : CsrTarget} {act : CsrTarget → State}
    {f : CsrFile} {rd : RegNum} {w : Width} {v : Cap} (isCsr : body i s = csrBody s num writes act)
    (access : CsrAccessible s num writes target) (adv : pcAdvances s = true)
    (acts : act target = deliver { s with csrs := f } rd w v) :
    ∃ t, exec i s = .next t ∧ OnlyRdAndCsrs rd (delivered s.cfg w v) f s t := by
  have runs : csrBody s num writes act = .ok (passEvent .csrAccess (act target)) :=
    csrBody_eq_ok.mpr ⟨target, csrCheck_ok access, rfl⟩
  rw [exec_eq_finish, isCsr, runs, acts]
  exact finish_deliver adv f rd w v

/-- An XLEN-bit write of a target is a write of the CSR file. -/
def WritesFile (s : State) (target : CsrTarget) (written : XWord → CsrFile) : Prop :=
  ∀ a, csrWriteX s target a = { s with csrs := written a }

/-- CSRRS, CSRRC, CSRRSI and CSRRCI: no write where the register number or the immediate is 0. -/
theorem csrModify_eq {s : State} {target : CsrTarget} {written : XWord → CsrFile} (writes : WritesFile s target written)
    (rd : RegNum) (r : BitVec 5) (g : XWord → XWord) :
    csrModify s target rd (r != 0#5) g =
      deliver { s with csrs := if r = 0#5 then s.csrs else written (g (csrRead s target).addr) } rd
        (targetReadWidth s.cfg (mode s) target) (csrRead s target) := by
  unfold csrModify
  by_cases zero : r = 0#5
  · subst zero
    rfl
  · rw [if_neg zero, if_pos (bne_iff_ne.mpr zero), writes]

/-- CSRRW at the width of its target. -/
theorem csrExchange_xlen {s : State} {target : CsrTarget} {written : XWord → CsrFile} (writes : WritesFile s target written)
    (width : targetRwWidth (mode s) target = .xlen) (rd rs1 : RegNum) :
    csrExchange s target rd rs1 = deliver { s with csrs := written (readX s rs1) } rd .xlen (csrRead s target) := by
  rw [csrExchange, width, writes]

theorem csrExchange_clen {s : State} {id : CapCsr} {cls : CapClass} (width : rwWidth (mode s) cls = .clen) (rd rs1 : RegNum) :
    csrExchange s (.cap id cls) rd rs1 =
      deliver { s with csrs := writeClen s.cfg s.csrs id (readC s rs1) } rd .clen (readVal s.cfg s.csrs id) := by
  rw [csrExchange, targetRwWidth, width]
  rfl

theorem csrReplace_eq {s : State} {target : CsrTarget} {written : XWord → CsrFile} (writes : WritesFile s target written)
    (rd : RegNum) (a : XWord) :
    csrReplace s target rd a =
      deliver { s with csrs := written a } rd (targetReadWidth s.cfg (mode s) target) (csrRead s target) := by
  rw [csrReplace, writes]

theorem writesFile_cap (s : State) (id : CapCsr) (cls : CapClass) :
    WritesFile s (.cap id cls) (writeXlen s.cfg s.csrs id) := fun _ => rfl

/-! ### CSRRW on a capability-wide CSR -/

theorem csrrw_clen {s : State} {rd rs1 : RegNum} {num : CsrNum} {id : CapCsr} {cls : CapClass}
    (access : CsrAccessible s num true (.cap id cls)) (adv : pcAdvances s = true) (width : rwWidth (mode s) cls = .clen) :
    ∃ t, exec (.csrrw rd num rs1) s = .next t ∧
      OnlyRdAndCsrs rd (delivered s.cfg .clen (readVal s.cfg s.csrs id)) (writeClen s.cfg s.csrs id (readC s rs1)) s t :=
  csr_completes rfl access adv (csrExchange_clen width rd rs1)

/-- Settles O21: the mode decides the width of both directions. -/
theorem csrrwOnExtendedCsrFollowsTheMode : Obligations.CsrrwOnExtendedCsrFollowsTheMode := by
  intro s rd rs1 num id access adv
  by_cases cap : mode s = .cap
  · obtain ⟨t, runs, done⟩ := csrrw_clen (rd := rd) (rs1 := rs1) access adv (if_pos cap)
    exact ⟨t, runs, fun _ => done, fun notCap => absurd cap notCap⟩
  · obtain ⟨t, runs, done⟩ := csr_completes (i := .csrrw rd num rs1) rfl access adv
      (csrExchange_xlen (writesFile_cap s id .extended) (if_neg cap) rd rs1)
    exact ⟨t, runs, fun isCap => absurd isCap cap, fun _ => done⟩

/-- Settles O22: the width of a new capability CSR is CLEN in every mode that admits it. -/
theorem csrrwOnNewCapCsrMovesClenBits : Obligations.CsrrwOnNewCapCsrMovesClenBits := by
  intro s rd rs1 num id access adv
  exact csrrw_clen access adv rfl

/-- Settles O23: a base-only hart is in Capability Mode. -/
theorem csrrwOnBaseOnlyHartMovesClenBits : Obligations.CsrrwOnBaseOnlyHartMovesClenBits := by
  intro s rd rs1 num id hybrid access adv
  have cap : mode s = .cap := by
    have base := hasBase_of_target_cap access.target
    unfold HartConfig.hasHybrid at hybrid
    unfold HartConfig.hasBase at base
    unfold mode
    cases cheri : s.cfg.cheri with
    | absent => rw [cheri] at base; cases base
    | base => rfl
    | hybrid => rw [cheri] at hybrid; cases hybrid
  exact csrrw_clen access adv (if_pos cap)

/-! ### The other five on a capability-wide CSR -/

/-- Settles O25: one body for the two, with the bits set or cleared. -/
theorem csrSetAndClearWriteXlenBits : Obligations.CsrSetAndClearWriteXlenBits := by
  intro s rd rs1 num id cls access adv old
  exact ⟨csr_completes rfl access adv (csrModify_eq (writesFile_cap s id cls) rd rs1 fun old => old ||| readX s rs1),
    csr_completes rfl access adv (csrModify_eq (writesFile_cap s id cls) rd rs1 fun old => old &&& ~~~readX s rs1)⟩

/-- Settles O26: an XLEN-bit write in every mode. -/
theorem csrrwiWritesXlenBits : Obligations.CsrrwiWritesXlenBits := by
  intro s rd num uimm id cls access adv
  exact csr_completes rfl access adv (csrReplace_eq (writesFile_cap s id cls) rd (uimm.setWidth 64))

/-- Settles O27: as O25, with the immediate. -/
theorem csrSetAndClearImmediateWriteXlenBits : Obligations.CsrSetAndClearImmediateWriteXlenBits := by
  intro s rd num uimm id cls access adv old
  exact ⟨csr_completes rfl access adv (csrModify_eq (writesFile_cap s id cls) rd uimm fun old => old ||| uimm.setWidth 64),
    csr_completes rfl access adv (csrModify_eq (writesFile_cap s id cls) rd uimm fun old => old &&& ~~~uimm.setWidth 64)⟩

/-- Settles O24: from the frames of the five, where they write. -/
theorem otherFiveWriteXlenBitsInEveryMode : Obligations.OtherFiveWriteXlenBitsInEveryMode := by
  intro s i rd rs1 uimm num id cls a access adv old which
  obtain ⟨rfl, rfl⟩ | ⟨rfl, ne, rfl⟩ | ⟨rfl, ne, rfl⟩ | ⟨rfl, ne, rfl⟩ | ⟨rfl, ne, rfl⟩ := which
  · obtain ⟨t, runs, done⟩ := csrrwiWritesXlenBits s rd num uimm id cls access adv
    exact ⟨t, runs, done.csrs⟩
  · obtain ⟨⟨t, runs, done⟩, -⟩ := csrSetAndClearWriteXlenBits s rd rs1 num id cls (by rwa [bne_iff_ne.mpr ne]) adv
    exact ⟨t, runs, done.csrs.trans (if_neg ne)⟩
  · obtain ⟨-, t, runs, done⟩ := csrSetAndClearWriteXlenBits s rd rs1 num id cls (by rwa [bne_iff_ne.mpr ne]) adv
    exact ⟨t, runs, done.csrs.trans (if_neg ne)⟩
  · obtain ⟨⟨t, runs, done⟩, -⟩ := csrSetAndClearImmediateWriteXlenBits s rd num uimm id cls (by rwa [bne_iff_ne.mpr ne]) adv
    exact ⟨t, runs, done.csrs.trans (if_neg ne)⟩
  · obtain ⟨-, t, runs, done⟩ := csrSetAndClearImmediateWriteXlenBits s rd num uimm id cls (by rwa [bne_iff_ne.mpr ne]) adv
    exact ⟨t, runs, done.csrs.trans (if_neg ne)⟩

/-! ### CSRs of XLEN bits -/

/-- Settles O28: both kinds of target read as an integer, at XLEN bits, and an XLEN-bit write is a write of the file. -/
theorem baseCsrsAreXlenWide : Obligations.BaseCsrsAreXlenWide := by
  intro s rd rs1 uimm num target old written adv kind done
  have read : csrRead s target = Cap.null old := by
    obtain ⟨b, rfl, rfl, -⟩ | ⟨id, rfl, rfl, -⟩ := kind <;> rfl
  have writes : WritesFile s target written := by
    obtain ⟨b, rfl, -, rfl⟩ | ⟨id, rfl, -, rfl⟩ := kind <;> exact fun _ => rfl
  have rwWidth : targetRwWidth (mode s) target = .xlen := by
    obtain ⟨b, rfl, -, -⟩ | ⟨id, rfl, -, -⟩ := kind <;> rfl
  have readWidth : targetReadWidth s.cfg (mode s) target = .xlen := by
    obtain ⟨b, rfl, -, -⟩ | ⟨id, rfl, -, -⟩ := kind <;> rfl
  have exchange := csrExchange_xlen writes rwWidth rd rs1
  have replace := csrReplace_eq writes rd (uimm.setWidth 64)
  have modify (r : BitVec 5) (g : XWord → XWord) := csrModify_eq writes rd r g
  rw [read] at exchange
  rw [read, readWidth] at replace
  simp only [read, readWidth] at modify
  refine ⟨fun access => ⟨?_, ?_⟩, fun access => ⟨?_, ?_⟩, fun access => ⟨?_, ?_⟩⟩
  · exact csr_completes rfl access adv exchange
  · exact csr_completes rfl access adv replace
  · exact csr_completes rfl access adv (modify rs1 fun old => old ||| readX s rs1)
  · exact csr_completes rfl access adv (modify rs1 fun old => old &&& ~~~readX s rs1)
  · exact csr_completes rfl access adv (modify uimm fun old => old ||| uimm.setWidth 64)
  · exact csr_completes rfl access adv (modify uimm fun old => old &&& ~~~uimm.setWidth 64)

theorem bit_trunc (x : Xlen) (v : XWord) {i : Nat} (hi : i < x.bits) : bit (x.trunc v) i = bit v i := by
  unfold bit BitVec.getLsbD
  rw [trunc_toNat, Nat.testBit_mod_two_pow, decide_eq_true hi, Bool.true_and]

/-- A CRE bit takes the written value (R17). -/
theorem bit_warl_cre {c : HartConfig} (hybrid : c.hasHybrid = true) {pos : Nat} (inside : pos < c.xlen.bits) (num : CsrNum)
    (old new : XWord) : bit (warl c num (creMask c pos) 0#64 old new) pos = bit new pos := by
  have small : pos < 64 := Nat.lt_of_lt_of_le inside (by cases c.xlen <;> decide)
  have one := bit_oneHot small pos
  rw [decide_eq_true rfl] at one
  rw [warl, bit_trunc _ _ inside, creMask, hybrid, if_pos rfl]
  unfold bit at one ⊢
  simp only [BitVec.getLsbD_or, BitVec.getLsbD_and, BitVec.getLsbD_not, one, small, decide_true, Bool.and_true,
    Bool.not_true, Bool.and_false, Bool.or_false, Bool.true_or]

/-- In machine mode `mseccfg` may be written. -/
theorem mseccfg_accessible {s : State} (machine : s.priv = .M) : CsrAccessible s 0x747#12 true (.base .mseccfg) where
  target := rfl
  known := ⟨nofun, nofun⟩
  privilege := by simp only [csrPrivOk, machine, privRank]; decide
  writable _ := by decide
  enabled _ h := nomatch h

/-- Settles O40: the write sets the bit, and the three CRE bits and the privilege are what the effective CRE looks at. -/
theorem creWriteActsOnTheNextInstruction : Obligations.CreWriteActsOnTheNextInstruction := by
  intro s rd rs1 wf hybrid machine adv
  have inside := creWf_of_wf wf
  simp only [HartConfig.creWf, Bool.and_eq_true, decide_eq_true_eq] at inside
  obtain ⟨t, runs, done⟩ := csr_completes (i := .csrrw rd 0x747#12 rs1) rfl (mseccfg_accessible machine) adv
    (csrExchange_xlen (written := writeBase s.cfg s.csrs .mseccfg) (fun _ => rfl) rfl rd rs1)
  obtain ⟨cfg, priv⟩ := done.hart
  have set : mseccfgCre t = bit (readX s rs1) s.cfg.creBitM := by
    rw [mseccfgCre, done.csrs, cfg]
    exact bit_warl_cre hybrid inside.1.1 _ _ _
  refine ⟨t, runs, set, ?_⟩
  rw [effCre, set, menvcfgCre, senvcfgCre, cfg, priv, machine, done.csrs]
  rfl

/-! ### Accesses that fail -/

/-- The three checks of R110 that are illegal whatever the number names beside. -/
theorem csrCheck_illegal {s : State} {num : CsrNum} {writes : Bool}
    (h : csrPrivOk s num = false ∨ (writes = true ∧ csrReadOnly num = true) ∨ csrTarget s.cfg s.priv num = .absent) :
    csrCheck s num writes = .error (illegalInstruction s) := by
  unfold csrCheck
  split
  case isTrue => rfl
  case isFalse priv =>
    split
    case isTrue => rfl
    case isFalse writable =>
      obtain noPriv | ⟨rfl, readOnly⟩ | absent := h
      · rw [noPriv] at priv
        exact absurd rfl priv
      · rw [readOnly] at writable
        exact absurd rfl writable
      · rw [absent]

/-- Settles O30: the failed check is all the instruction does. -/
theorem failedCsrChecksAreIllegal : Obligations.FailedCsrChecksAreIllegal := by
  intro s i num writes use fails
  rw [exec_of_csrCheck_error use (csrCheck_illegal fails), settle_illegal]

/-- Settles O32: an unknown number is the last thing the check finds. -/
theorem unknownCsrIsRefused : Obligations.UnknownCsrIsRefused := by
  intro s i num writes use priv writable unknown
  have refused : csrCheck s num writes = .error (.refuse (.unknownCsr num)) := by
    have notReadOnly : (writes && csrReadOnly num) = false := by
      cases writes
      · rfl
      · exact writable rfl
    simp only [csrCheck, priv, notReadOnly, unknown, Bool.not_true, Bool.false_eq_true, if_false]
  rw [exec_of_csrCheck_error use refused, settle_refuse]

end Sys2Proof.Proofs
end

section
/-! PROOF. Trap entry and return (spec/60_exceptions.md R163 to R168): the fields each writes, level by level, and where a
trap goes. -/

namespace Sys2Proof.Proofs

open Sys2Proof.Machine Sys2Proof.Safety Sys2Proof.Laws

/-! ### The status fields -/

theorem bit_and (v w : XWord) (i : Nat) : bit (v &&& w) i = (bit v i && bit w i) := BitVec.getLsbD_and

theorem bit_not (v : XWord) {i : Nat} (hi : i < 64) : bit (~~~v) i = !bit v i := by
  simp only [bit, BitVec.getLsbD_not, hi, decide_true, Bool.true_and]

theorem bit_enterSupervisor (w : XWord) (p : Priv) (i : Nat) :
    bit (enterSupervisor w p) i =
      if i = sppBit then privCode p == 1#2 else if i = sieBit then false else if i = spieBit then bit w sieBit else bit w i := by
  rw [enterSupervisor, bit_setBit _ (by decide), bit_setBit _ (by decide), bit_setBit _ (by decide)]

theorem bit_leaveSupervisor (w : XWord) (i : Nat) :
    bit (leaveSupervisor w) i =
      if i = sppBit then false else if i = spieBit then true else if i = sieBit then bit w spieBit else bit w i := by
  rw [leaveSupervisor, bit_setBit _ (by decide), bit_setBit _ (by decide), bit_setBit _ (by decide)]

theorem bit_setBit_if (has : Bool) (w : XWord) {k : Nat} (hk : k < 64) (b : Bool) (i : Nat) :
    bit (if has then setBit w k b else w) i = if i = k ∧ has = true then b else bit w i := by
  cases has
  · simp
  · simpa using bit_setBit w hk b i

theorem bit_enterMachine (c : HartConfig) (w : XWord) (p : Priv) {i : Nat} (hi : i < 64) (notMpp : bit mppMask i = false) :
    bit (enterMachine c w p) i =
      if i = mpvBit ∧ c.hasH = true then isVirtual p
      else if i = mieBit then false else if i = mpieBit then bit w mieBit else bit w i := by
  rw [enterMachine, bit_setBit_if _ _ (by decide), bit_setMpp _ _ hi notMpp, bit_setBit _ (by decide), bit_setBit _ (by decide)]

theorem bit_leaveMachine (c : HartConfig) (w : XWord) {i : Nat} (hi : i < 64) (notMpp : bit mppMask i = false) :
    bit (leaveMachine c w) i =
      if i = mpvBit ∧ c.hasH = true then false
      else if i = mpieBit then true else if i = mieBit then bit w mpieBit else bit w i := by
  rw [leaveMachine, bit_setBit_if _ _ (by decide), bit_setMpp _ _ hi notMpp, bit_setBit _ (by decide), bit_setBit _ (by decide)]

theorem privCode_eq_one (p : Priv) : (privCode p == 1#2) = true ↔ p = .S ∨ p = .VS := by
  cases p <;> decide

/-- The cause is an XLEN-bit word, so writing it to its register leaves it. -/
theorem trunc_causeWord (c : HartConfig) (interrupt : Bool) (code : Nat) :
    c.xlen.trunc (causeWord c interrupt code) = causeWord c interrupt code :=
  fits_iff.mp (fits_setBit (fits_trunc _ _) (by cases c.xlen <;> decide) _)

/-! ### The handler's address (R165) -/

theorem handlerAddr_direct {tvec : XWord} {interrupt : Bool} (h : interrupt = false ∨ tvec &&& 3#64 ≠ 1#64) (c : HartConfig)
    (code : Nat) : handlerAddr c tvec interrupt code = tvec &&& ~~~3#64 := by
  rcases h with rfl | direct
  · simp [handlerAddr]
  · simp [handlerAddr, direct]

theorem handlerAddr_vectored {tvec : XWord} (vectored : tvec &&& 3#64 = 1#64) (c : HartConfig) (code : Nat) :
    handlerAddr c tvec true code = c.xlen.trunc ((tvec &&& ~~~3#64) + 4#64 * BitVec.ofNat 64 code) := by
  simp [handlerAddr, vectored]

theorem trapFrame_trapEntry (s : State) (level : TrapLevel) (interrupt : Bool) (code : Nat) (tval : XWord) :
    TrapFrame (if interrupt = true then .interrupt else .exception) s (trapEntry s level interrupt code tval) :=
  ⟨rfl, rfl, ⟨rfl, rfl, rfl⟩, rfl, rfl⟩

/-- Where a trap goes: the whole vector capability of its level, at the handler's address. -/
theorem trapEntry_goesTo (s : State) (level : TrapLevel) (interrupt : Bool) (code : Nat) (tval : XWord) :
    let t := trapEntry s level interrupt code tval
    let vec := readVal s.cfg s.csrs level.tvecc
    t.pcc.tag = vec.tag ∧ t.pcc.md = vec.md ∧
      (interrupt = false ∨ vec.addr &&& 3#64 ≠ 1#64 → t.pcc.addr = vec.addr &&& ~~~3#64) ∧
      (interrupt = true → vec.addr &&& 3#64 = 1#64 →
        t.pcc.addr = s.cfg.xlen.trunc ((vec.addr &&& ~~~3#64) + 4#64 * BitVec.ofNat 64 code)) ∧
      TrapFrame (if interrupt = true then .interrupt else .exception) s t := by
  refine ⟨rfl, rfl, fun direct => handlerAddr_direct direct _ _, fun isInterrupt vectored => ?_, trapFrame_trapEntry ..⟩
  subst isInterrupt
  exact handlerAddr_vectored vectored _ _

/-! ### Trap entry -/

/-- Settles O45: `mstatus` is `enterMachine` of the old word, and each other register takes its value. -/
theorem machineTrapEntrySavesAndVectors : Obligations.MachineTrapEntrySavesAndVectors := by
  intro s interrupt code tval t vec
  have status : t.csrs.mstatus = enterMachine s.cfg s.csrs.mstatus s.priv := rfl
  refine ⟨rfl, trunc_causeWord .., rfl, ?_, ?_, ?_, rfl, trapEntry_goesTo s .m interrupt code tval⟩
  · rw [status, bit_enterMachine _ _ _ (by decide) (by decide)]
    simp [mpieBit, mpvBit, mieBit]
  · rw [status, bit_enterMachine _ _ _ (by decide) (by decide)]
    simp [mpvBit, mieBit]
  · rw [status, mppOf_enterMachine]

/-- Settles O46: the status word of either level is `enterSupervisor` of the old one. -/
theorem supervisorTrapEntrySavesAndVectors : Obligations.SupervisorTrapEntrySavesAndVectors := by
  intro s interrupt code tval cause goesTo
  constructor
  · intro t
    have status : t.csrs.mstatus = enterSupervisor s.csrs.mstatus s.priv := rfl
    have hstatus : t.csrs.hstatus = if s.cfg.hasH then setBit s.csrs.hstatus spvBit (isVirtual s.priv) else s.csrs.hstatus := rfl
    refine ⟨rfl, trunc_causeWord .., rfl, ?_, ?_, ?_, ?_, fun hypervisor => ?_, rfl, rfl, trapEntry_goesTo s .s interrupt code tval⟩
    · rw [status, bit_enterSupervisor]; rfl
    · rw [status, bit_enterSupervisor]; rfl
    · rw [status, bit_enterSupervisor, if_pos rfl, privCode_eq_one]
    · rw [status, bit_enterSupervisor]; rfl
    · rw [hstatus, bit_setBit_if _ _ (by decide), if_pos ⟨rfl, hypervisor⟩]
  · intro t
    have status : t.csrs.vsstatus = enterSupervisor s.csrs.vsstatus s.priv := rfl
    refine ⟨rfl, trunc_causeWord .., rfl, ?_, ?_, ?_, rfl, rfl, rfl, trapEntry_goesTo s .vs interrupt code tval⟩
    · rw [status, bit_enterSupervisor]; rfl
    · rw [status, bit_enterSupervisor]; rfl
    · rw [status, bit_enterSupervisor, if_pos rfl, privCode_eq_one]

/-- Settles O47: the level decides the privilege, and delegation the level. -/
theorem exceptionsFollowDelegation : Obligations.ExceptionsFollowDelegation := by
  intro s code tval t
  have priv : t.priv = (exceptionLevel s code).priv := rfl
  rw [priv]
  refine ⟨fun machine => ?_, fun kept => ?_, fun lower supervisor delegated => ?_, fun virt supervisor delegated => ?_⟩
  · simp [exceptionLevel, machine, TrapLevel.priv]
  · simp [exceptionLevel, kept, TrapLevel.priv]
  · rcases lower with lower | lower <;> simp [exceptionLevel, lower, supervisor, delegated, isVirtual, TrapLevel.priv]
  · rcases virt with virt | virt <;> cases handed : bit s.csrs.hedeleg code <;>
      simp [exceptionLevel, virt, supervisor, delegated, handed, isVirtual, TrapLevel.priv]

/-! ### Trap return -/

/-- A supported MPP and a virtualisation bit name a privilege with that code, virtual where the bit says so below machine
mode. -/
theorem privOf_of_supported {c : HartConfig} {code : BitVec 2} (supported : mppSupported c code = true) (virt : Bool) :
    privCode (privOf code virt) = code ∧ (isVirtual (privOf code virt) = true ↔ virt = true ∧ code ≠ 3#2) := by
  have known : code = 3#2 ∨ code = 1#2 ∨ code = 0#2 := by
    simp only [mppSupported, Bool.or_eq_true, Bool.and_eq_true, beq_iff_eq] at supported
    tauto
  rcases known with rfl | rfl | rfl <;> cases virt <;> decide

theorem privOf_spp (spp virt : Bool) :
    privCode (privOf (if spp then 1#2 else 0#2) virt) = (if spp = true then 1#2 else 0#2) ∧
      (isVirtual (privOf (if spp then 1#2 else 0#2) virt) = true ↔ virt = true) := by
  cases spp <;> cases virt <;> decide

theorem trapFrame_trapReturn (s : State) (level : TrapLevel) : TrapFrame .trapReturn s (trapReturn s level) :=
  ⟨rfl, rfl, ⟨rfl, rfl, rfl⟩, rfl, rfl⟩

/-- Settles O48: per level, the status word is that of `leaveMachine` or `leaveSupervisor`. -/
theorem trapReturnRestores : Obligations.TrapReturnRestores := by
  intro s
  refine ⟨?_, ?_, ?_⟩
  · intro supported t
    have status : t.csrs.mstatus = leaveMachine s.cfg s.csrs.mstatus := rfl
    obtain ⟨code, virt⟩ := privOf_of_supported supported (s.cfg.hasH && bit s.csrs.mstatus mpvBit)
    refine ⟨rfl, code, ?_, ?_, ?_, ?_, rfl, trapFrame_trapReturn s .m⟩
    · rw [Bool.and_eq_true, and_assoc] at virt
      exact virt
    · rw [status, bit_leaveMachine _ _ (by decide) (by decide)]
      simp [mpieBit, mpvBit, mieBit]
    · rw [status, bit_leaveMachine _ _ (by decide) (by decide)]
      simp [mpieBit, mpvBit]
    · rw [status, mppOf_leaveMachine, leastCode]
  · intro t
    have status : t.csrs.mstatus = leaveSupervisor s.csrs.mstatus := rfl
    have hstatus : t.csrs.hstatus = if s.cfg.hasH then setBit s.csrs.hstatus spvBit false else s.csrs.hstatus := rfl
    obtain ⟨code, virt⟩ := privOf_spp (bit s.csrs.mstatus sppBit) (s.cfg.hasH && bit s.csrs.hstatus spvBit)
    refine ⟨rfl, code, ?_, ?_, ?_, ?_, fun hypervisor => ?_, ?_, ?_, rfl, trapFrame_trapReturn s .s⟩
    · rw [Bool.and_eq_true] at virt
      exact virt
    · rw [status, bit_leaveSupervisor]; rfl
    · rw [status, bit_leaveSupervisor]; rfl
    · rw [status, bit_leaveSupervisor]; rfl
    · rw [hstatus, bit_setBit_if _ _ (by decide), if_pos ⟨rfl, hypervisor⟩]
    · rw [status, bit_leaveSupervisor]; rfl
    · rw [status, mppOf_leaveSupervisor]
  · intro t
    have status : t.csrs.vsstatus = leaveSupervisor s.csrs.vsstatus := rfl
    have priv : t.priv = privOf (if bit s.csrs.vsstatus sppBit then 1#2 else 0#2) true := rfl
    refine ⟨rfl, ?_, ?_, ?_, ?_, rfl, rfl, trapFrame_trapReturn s .vs⟩
    · rw [priv]
      cases bit s.csrs.vsstatus sppBit <;> rfl
    · rw [status, bit_leaveSupervisor]; rfl
    · rw [status, bit_leaveSupervisor]; rfl
    · rw [status, bit_leaveSupervisor]; rfl

/-- Settles O49: MPP and MPV name the privilege again, and MIE comes back from MPIE. -/
theorem machineReturnUndoesMachineEntry : Obligations.MachineReturnUndoesMachineEntry := by
  intro s interrupt code tval supported t
  have entered : (trapEntry s .m interrupt code tval).csrs.mstatus = enterMachine s.cfg s.csrs.mstatus s.priv := rfl
  have cfg : (trapEntry s .m interrupt code tval).cfg = s.cfg := rfl
  have priv : t.priv = privOf (mppOf (enterMachine s.cfg s.csrs.mstatus s.priv))
      (s.cfg.hasH && bit (enterMachine s.cfg s.csrs.mstatus s.priv) mpvBit) := rfl
  have status : t.csrs.mstatus = leaveMachine s.cfg (enterMachine s.cfg s.csrs.mstatus s.priv) := rfl
  refine ⟨?_, ?_, rfl⟩
  · rw [priv, mppOf_enterMachine, bit_enterMachine _ _ _ (by decide) (by decide)]
    have virtual : isVirtual s.priv = true → s.cfg.hasH = true := by
      revert supported
      cases s.priv <;> simp [HartConfig.supports, isVirtual]
    cases hypervisor : s.cfg.hasH
    · revert virtual
      rw [hypervisor]
      cases s.priv <;> simp [isVirtual, privCode, privOf]
    · cases s.priv <;> simp [isVirtual, privCode, privOf]
  · rw [status, bit_leaveMachine _ _ (by decide) (by decide), bit_enterMachine _ _ _ (by decide) (by decide)]
    simp [mpieBit, mpvBit, mieBit]

/-! ### Interrupts (R163, R164) -/

/-- A first interrupt is one the hart has. -/
theorem hasInterrupt_of_firstOf {c : HartConfig} {w : XWord} {code : Nat} (h : firstOf c w = some code) :
    4 * code ≤ c.tvecMaxOffset := by
  have found := List.find?_some h
  rw [Bool.and_eq_true, hasInterrupt, decide_eq_true_eq] at found
  exact found.2

theorem vsCode_le (code : Nat) : vsCode code ≤ code := by
  unfold vsCode
  split <;> omega

theorem step_of_pendingInterrupt {s : State} {level : TrapLevel} {code : Nat} (h : pendingInterrupt s = some (level, code)) :
    step s = .next (takeInterrupt s level code) := by
  simp only [step, h]

/-- The timer interrupt, where it is the first of those a machine-level trap takes. -/
theorem pendingInterrupt_timer {s : State} (pending : bit s.csrs.mip 7 = true) (enabled : bit s.csrs.mie 7 = true)
    (has : 28 ≤ s.cfg.tvecMaxOffset) (first : ∀ k, k = 11 ∨ k = 3 → bit s.csrs.mip k = false)
    (kept : bit s.csrs.mideleg 7 = false) (takes : s.priv ≠ .M ∨ bit s.csrs.mstatus mieBit = true) :
    pendingInterrupt s = some (.m, 7) := by
  have machine : machineTakes s = true := by
    rcases takes with below | mie
    · simp [machineTakes, below]
    · simp [machineTakes, mie]
  have notDelegated : bit (delegatedSet s) 7 = false := by
    unfold delegatedSet
    split
    · exact kept
    · decide
  have timer : firstOf s.cfg (pendingSet s &&& ~~~delegatedSet s) = some 7 := by
    simp [firstOf, interruptOrder, pendingSet, bit_and, bit_not, first, pending, enabled, notDelegated, hasInterrupt, has]
  simp [pendingInterrupt, machine, timer]

/-- Settles O5: the timer is the first machine-level interrupt, and every interrupt taken is the first of its set. -/
theorem timerInterruptComesBeforeTheFetch : Obligations.TimerInterruptComesBeforeTheFetch := by
  refine ⟨fun s pending enabled has first kept takes => ?_, fun s level code taken => ⟨?_, step_of_pendingInterrupt taken⟩⟩
  · have step := step_of_pendingInterrupt (pendingInterrupt_timer pending enabled has first kept takes)
    have cause : (takeInterrupt s .m 7).csrs.mcause = causeWord s.cfg true 7 := trunc_causeWord ..
    obtain ⟨-, -, direct, vectored, frame⟩ := trapEntry_goesTo s .m true 7 0#64
    refine ⟨_, step, rfl, ?_, ?_, ?_, frame⟩
    · rw [cause, causeWord]
      cases s.cfg.xlen <;> decide
    · rw [cause, causeWord]
      cases s.cfg.xlen <;> decide
    · extract_lets v
      split
      · exact vectored rfl ‹_›
      · exact direct (.inr ‹_›)
  · obtain ⟨-, found⟩ | ⟨-, found⟩ | ⟨-, k, found, rfl⟩ := pendingInterrupt_cases taken
    · exact hasInterrupt_of_firstOf found
    · exact hasInterrupt_of_firstOf found
    · exact Nat.le_trans (Nat.mul_le_mul_left 4 (vsCode_le k)) (hasInterrupt_of_firstOf found)

end Sys2Proof.Proofs
end

section
/-! PROOF. Authorisation by the infinite capability (spec/20_memory.md R43), and what becomes of an instruction in a mode or
at a privilege that does not allow it: jumps (R33), trap returns (R166) and the outcomes of R64. -/

namespace Sys2Proof.Proofs

open Sys2Proof.Machine Sys2Proof.Safety Sys2Proof.Laws

/-! ### Authorisation -/

theorem isInfinite_infiniteCap (c : HartConfig) (a : XWord) : isInfinite c (infiniteCap c a) = true := by
  simp [isInfinite, infiniteCap]

theorem inBoundsAll_of_isInfinite {c : HartConfig} {v : Cap} (infinite : isInfinite c v = true) {a n : Nat}
    (fits : a + n ≤ 2 ^ c.xlen.bits) : inBoundsAll c v a n = true := by
  induction n generalizing a with
  | zero => rfl
  | succ n ih =>
    have here : a < 2 ^ c.xlen.bits := by omega
    have rest : a + 1 + n ≤ 2 ^ c.xlen.bits := by omega
    simp [inBoundsAll, inBounds, infinite, here, ih rest]

/-- Settles O50: the bounds, byte by byte; seal and permissions are not asked. -/
theorem infiniteCapabilityAuthorises : Obligations.InfiniteCapabilityAuthorises := by
  intro c a b n kind fits
  have infinite := isInfinite_infiniteCap c b
  have bounds := inBoundsAll_of_isInfinite infinite fits
  have tag : (infiniteCap c b).tag = true := rfl
  simp [authorises, infinite, bounds, tag]

/-! ### Jumps -/

theorem jumpTo_aligned {s : State} {target : XWord} (aligned : misaC s.csrs = true ∨ bit target 1 = false) :
    jumpTo s target = .ok (setPc (passEvent .jump s) target) := by
  rcases aligned with h | h <;> simp [jumpTo, h]

theorem jumpLink_misaligned {s : State} {target : XWord} (narrow : misaC s.csrs = false) (odd : bit target 1 = true)
    (rd : RegNum) : jumpLink s rd target = .error (.trap 0 target) := by
  simp [jumpLink, jumpTo, narrow, odd]

theorem jumpLink_aligned {s : State} {rd : RegNum} {target : XWord} (aligned : misaC s.csrs = true ∨ bit target 1 = false)
    (links : rd = 0#5 ∨ pcAdvances s = true) :
    jumpLink s rd target = .ok (writeX (setPc (passEvent .jump s) target) rd (pc s + 4#64)) := by
  have links : (decide (rd = 0#5) || pcAdvances s) = true := by simpa using links
  rw [jumpLink, jumpTo_aligned aligned, links]
  rfl

/-- What a jump does to the state: the pc, the link, and perhaps the reservation. -/
theorem writeX_setPc_jump {s : State} {rd : RegNum} (links : rd = 0#5 ∨ pcAdvances s = true) (target : XWord) :
    let t := writeX (setPc (passEvent .jump s) target) rd (pc s + 4#64)
    t.pcc = { s.pcc with addr := s.cfg.xlen.trunc target } ∧ RdGets rd (Cap.null (s.pcc.addr + 4#64)) t ∧
      KeepsRegsBut rd s t ∧ t.csrs = s.csrs ∧ KeepsMemory s t := by
  intro t
  have link := rdGets_writeC (setPc (passEvent .jump s) target) rd (Cap.null (pc s + 4#64))
  have regs := keepsRegsBut_writeC (setPc (passEvent .jump s) target) rd (Cap.null (pc s + 4#64))
  refine ⟨writeX_pcc .., ?_, regs, writeX_csrs .., fun a => readByte_congr (writeX_mem ..) a, writeX_memTags .., writeX_unfenced ..⟩
  rcases links with rfl | adv
  · exact link
  · rw [null_trunc, setPc_cfg, passEvent_cfg, trunc_next adv] at link
    exact link

/-- Settles O51: the jump outside Capability Mode, and the refusal in it. -/
theorem jalLinksAnInteger : Obligations.JalLinksAnInteger := by
  intro s rd off w target
  have jal (outside : mode s ≠ .cap) : baseStep (.jal rd off) w s = jumpLink s rd target := if_neg outside
  refine ⟨fun outside links aligned => ?_, fun outside narrow odd => ?_, fun inside => ?_⟩
  · have jumps := writeX_setPc_jump links target
    rw [trunc_trunc] at jumps
    rw [jal outside, jumpLink_aligned aligned links, settle_ok]
    exact ⟨_, rfl, jumps⟩
  · rw [jal outside, jumpLink_misaligned narrow odd, settle_trap]
  · have refused : baseStep (.jal rd off) w s = .error (.refuse (.capModeJump w)) := if_pos inside
    rw [refused, settle_refuse]

/-! ### Trap returns -/

theorem settle_illegalInstruction (s : State) : settle s (.error (illegalInstruction s)) = Illegal s := rfl

/-- SRET outside the user modes of a hart with supervisor mode. -/
theorem baseStep_sret {s : State} (supervisor : s.cfg.hasS = true) (rank : privRank s.cfg s.priv ≠ 0) (w : IWord) :
    settle s (baseStep .sret w s) = .next (trapReturn s (sretLevel s)) := by
  simp [baseStep, supervisor, rank]

/-- Settles O52: each return asks for its privilege. -/
theorem returnsNeedTheirPrivilege : Obligations.ReturnsNeedTheirPrivilege := by
  intro s w
  refine ⟨fun machine => ?_, fun below => ?_, fun has priv => ?_, fun has priv => ?_, fun user => ?_⟩
  · simp [baseStep, machine]
  · simp only [baseStep, below, if_false, settle_illegalInstruction]
  · have rank : privRank s.cfg s.priv ≠ 0 := by
      rcases priv with priv | priv <;> rw [priv, privRank]
      · split <;> decide
      · decide
    have level : sretLevel s = .s := by
      rcases priv with priv | priv <;> simp [sretLevel, priv]
    rw [baseStep_sret has rank, level]
  · have rank : privRank s.cfg s.priv ≠ 0 := by rw [priv, privRank]; decide
    have level : sretLevel s = .vs := by simp [sretLevel, priv]
    rw [baseStep_sret has rank, level]
  · have rank : privRank s.cfg s.priv = 0 := by
      rcases user with user | user <;> rw [user, privRank]
    simp only [baseStep, rank, or_true, if_true, settle_illegalInstruction]

/-! ### The outcomes of R64 -/

/-- A hybrid instruction is its check, then its effect. -/
theorem exec_of_hybridUse {s : State} {i : Instr} {validInInt : Bool} (use : hybridUse s.cfg i = some validInInt) :
    ∃ f : Unit → State, exec i s = finish 4 s ((hybridCheck s validInInt).map f) := by
  cases i with
  | modeswCap => cases use; exact ⟨_, rfl⟩
  | modeswInt => cases use; exact ⟨_, rfl⟩
  | scmode rd rs1 rs2 => cases use; exact ⟨_, rfl⟩
  | _ => cases use

/-- Outcome 2 of R64 for a known word that is present where the mode excludes it. -/
theorem knownGate_excluded {s : State} {w : IWord} {k : KnownWord} (known : knownWord s.cfg w = some k)
    (present : isPresent s.cfg k = some true) (excluded : modeExcludes (mode s) k = true) :
    knownGate w s = .error (illegalInstruction s) := by
  simp [knownGate_of_some known, knownCheck, present, excluded]

theorem modeExcludes_of_cases {m : Mode} {k : KnownWord}
    (h : m = .off ∧ k.cheri.isSome = true ∨ m = .int ∧ k.cls = some .capOnly ∨ m = .cap ∧ k.cls = some .intOnly) :
    modeExcludes m k = true := by
  obtain ⟨rfl, cheri⟩ | ⟨rfl, cls⟩ | ⟨rfl, cls⟩ := h
  · exact cheri
  · rw [modeExcludes, cls, beq_self_eq_true]
  · rw [modeExcludes, cls, beq_self_eq_true]

/-- A word whose base meaning, if any, is not stated for the mode passes the gate first. -/
theorem wordWithoutRow_of_gate_error {s : State} {w : IWord} {e : Stop}
    (unstated : ∀ b, decodeBase w = some b → baseMeaningStated (mode s) b = false) (gate : knownGate w s = .error e) :
    wordWithoutRow w s = .error e := by
  unfold wordWithoutRow
  split
  · rw [unstated _ ‹_›, gate]
    rfl
  · rw [gate]
    rfl

/-- A parcel that no entry of the list remaps. -/
theorem remapped_of_not_isRemapped {s : State} {p : BitVec 16} (h : isRemapped s.cfg p = false) : remapped s p = none := by
  cases remaps : remapped s p with
  | none => rfl
  | some i =>
    rw [isRemapped_of_remapped remaps] at h
    cases h

theorem parcelStep_of_gate_error {s : State} {p : BitVec 16} {e : Stop} (free : isRemapped s.cfg p = false)
    (gate : knownGate (p.setWidth 32) s = .error e) : parcelStep p s = settle s (.error e) := by
  simp only [parcelStep, remapped_of_not_isRemapped free, free, gate]
  rfl

theorem remapped_of_not_cap {s : State} (outside : mode s ≠ .cap) (p : BitVec 16) : remapped s p = none := by
  simp [remapped, outside]

/-- Outside Capability Mode a remapped parcel has its standard meaning, which is not supplied. -/
theorem parcelStep_of_isRemapped {s : State} {p : BitVec 16} (listed : isRemapped s.cfg p = true) (outside : mode s ≠ .cap) :
    parcelStep p s = .refused (.compressedBase p) := by
  simp only [parcelStep, remapped_of_not_cap outside, listed, outside, if_true, if_false]
  rfl

theorem wordWithoutRow_stated {s : State} {w : IWord} {b : BaseInstr} (base : decodeBase w = some b)
    (stated : baseMeaningStated (mode s) b = true) : wordWithoutRow w s = baseStep b w s := by
  simp only [wordWithoutRow, base, stated, if_true]

/-- Of a word of a row nothing is known, so its base meaning is all it can have. -/
theorem wordWithoutRow_row_base {s : State} {w : IWord} {b : BaseInstr} (row : isRowWord s.cfg w = true)
    (base : decodeBase w = some b) : wordWithoutRow w s = baseStep b w s := by
  simp only [wordWithoutRow, base, knownGate_of_none (knownWord_of_isRowWord row), bind_ok, ite_self]

theorem wordWithoutRow_row_none {s : State} {w : IWord} (row : isRowWord s.cfg w = true) (none : decodeBase w = none) :
    wordWithoutRow w s = .error (.refuse (.noMeaning w)) := by
  have unknown := knownWord_of_isRowWord row
  simp [wordWithoutRow, none, knownGate_of_none unknown, unknown]

/-- Settles O44: the check of the hybrid instructions, and outcome 2 of R64 with what it is not tried for. -/
theorem hybridInstructionsOutsideTheirModes : Obligations.HybridInstructionsOutsideTheirModes := by
  refine ⟨fun s i validInInt use => ?_, fun s e w k unstated known present excluded => ?_, fun s w b base stated => ?_,
    fun s w row => ?_, fun s p listed outside => ?_⟩
  · obtain ⟨f, runs⟩ := exec_of_hybridUse use
    rw [runs]
    refine ⟨fun hybrid off => finish_map_illegal (hybridCheck_off hybrid off) f, fun hybrid int excluded => ?_, fun absent => ?_⟩
    · subst excluded
      exact finish_map_illegal (hybridCheck_excluded hybrid int rfl) f
    · simp [hybridCheck, absent]
      rfl
  · have gate := knownGate_excluded known present (modeExcludes_of_cases excluded)
    obtain ⟨rfl, unstated⟩ | ⟨p, rfl, rfl, free⟩ := unstated
    · rw [withoutRow, wordWithoutRow_of_gate_error unstated gate, settle_illegalInstruction]
    · rw [withoutRow, parcelStep_of_gate_error free gate, settle_illegalInstruction]
  · rw [withoutRow, wordWithoutRow_stated base stated]
  · refine ⟨fun b base => ?_, fun none => ?_⟩
    · rw [withoutRow, wordWithoutRow_row_base row base]
    · rw [withoutRow, wordWithoutRow_row_none row none, settle_refuse]
  · exact parcelStep_of_isRemapped listed outside

end Sys2Proof.Proofs
end

section
/-! PROOF. What no instruction of the table changes: the tag and metadata of `pcc` (spec/10_state.md R15), memory outside a
store-conditional (spec/20_memory.md R47) and, below machine mode, the machine-level CSRs (spec/44_csr_access.md R110). -/

namespace Sys2Proof.Proofs

open Sys2Proof.Machine Sys2Proof.Safety Sys2Proof.Laws

/-! ### `pcc` -/

/-- No effect but that of a switch touches `pcc`. -/
theorem Effect.pcc {s u : State} {i : Instr} (h : Effect s i u) : u.pcc = s.pcc ∨ i = .modeswCap ∨ i = .modeswInt := by
  cases h with
  | csr rd w v use access write => exact .inl (by simp [write.pcc])
  | register rd v => exact .inl (writeC_pcc ..)
  | loadReserved rd n a => exact .inl (loadReservedAt_pcc ..)
  | storeByte rd rs1 rs2 aq rl => exact .inl (storeConditionalAt_pcc ..)
  | storeHalf rd rs1 rs2 aq rl => exact .inl (storeConditionalAt_pcc ..)
  | switch m isSwitch notOff => exact .inr isSwitch

/-- Settles O57: the advance changes the address alone. -/
theorem onlyModeswAndTrapsChangePccMetadata : Obligations.OnlyModeswAndTrapsChangePccMetadata := by
  intro i s t ends
  obtain ⟨u, effect, -, rfl⟩ | trap := exec_eq_next ends
  · rcases effect.pcc with pcc | switch
    · left
      rw [setPc_pcc, pcc]
      exact ⟨rfl, rfl⟩
    · tauto
  · exact .inr (.inr (.inr trap))

/-! ### Memory -/

theorem CsrWritten.mem {s t : State} {target : CsrTarget} (h : CsrWritten s target t) : t.mem = s.mem := by
  cases h <;> simp

/-- A store-conditional changes a byte only where it holds a reservation, and then one that it addresses. -/
theorem readByte_storeConditionalAt {s : State} (wf : memoryWf s = true) (rd rs2 : RegNum) (n : Nat) (a : XWord) (b : Nat) :
    readByte (storeConditionalAt s rd rs2 n a) b = readByte s b ∨
      reserved s a.toNat n = true ∧ a.toNat ≤ b ∧ b < a.toNat + n := by
  obtain ⟨held, -, stores⟩ | ⟨-, draws, fails⟩ := storeConditionalAt_cases s rd rs2 n a
  · let u : State := { s with draws := s.draws + 1, reservation := none }
    have stored : readByte (storeConditionalAt s rd rs2 n a) b = readByte (storeBytes u a.toNat (leBytes (readX s rs2) n)) b := by
      rw [stores]
      exact readByte_congr (writeX_mem (memWrite u a n (readX s rs2)) rd 0#64) b
    by_cases there : a.toNat ≤ b ∧ b < a.toNat + n
    · exact .inr ⟨held, there⟩
    · left
      rw [stored, readByte_storeBytes (s := u) _ wf, dif_neg (by rwa [length_leBytes])]
      rfl
  · rw [fails]
    exact .inl (readByte_congr (writeX_mem { s with draws, reservation := none } rd 1#64) b)

/-- The bytes an effect changes are those of a store-conditional that holds its reservation. -/
theorem Effect.readByte {s u : State} {i : Instr} (h : Effect s i u) (wf : memoryWf s = true) (b : Nat) :
    readByte u b = readByte s b ∨ u.pcc = s.pcc ∧ u.csrs = s.csrs ∧
      ((∃ rd rs1 rs2 aq rl, i = .scB rd rs1 rs2 aq rl ∧ b = lrScAddrOf s rs1 ∧ reserved s (lrScAddrOf s rs1) 1 = true) ∨
        ∃ rd rs1 rs2 aq rl, i = .scH rd rs1 rs2 aq rl ∧ lrScAddrOf s rs1 ≤ b ∧ b < lrScAddrOf s rs1 + 2 ∧
          reserved s (lrScAddrOf s rs1) 2 = true) := by
  cases h with
  | csr rd w v use access write => exact .inl (readByte_congr (by simp [write.mem]) b)
  | register rd v => exact .inl (readByte_congr (writeC_mem ..) b)
  | loadReserved rd n a => exact .inl (readByte_congr (loadReservedAt_mem ..) b)
  | storeByte rd rs1 rs2 aq rl =>
    obtain same | ⟨held, low, high⟩ := readByte_storeConditionalAt wf rd rs2 1 (readX s rs1) b
    · exact .inl same
    · have here : b = lrScAddrOf s rs1 := by unfold lrScAddrOf; omega
      exact .inr ⟨storeConditionalAt_pcc .., storeConditionalAt_csrs .., .inl ⟨rd, rs1, rs2, aq, rl, rfl, here, held⟩⟩
  | storeHalf rd rs1 rs2 aq rl =>
    obtain same | ⟨held, low, high⟩ := readByte_storeConditionalAt wf rd rs2 2 (readX s rs1) b
    · exact .inl same
    · exact .inr ⟨storeConditionalAt_pcc .., storeConditionalAt_csrs .., .inr ⟨rd, rs1, rs2, aq, rl, rfl, low, high, held⟩⟩
  | switch m isSwitch notOff => exact .inl rfl

/-- Settles O58: the entry of an exception stores nothing, and of the effects only a store-conditional does. -/
theorem onlyStoreConditionalsWriteMemory : Obligations.OnlyStoreConditionalsWriteMemory := by
  intro i s t wf ends
  have trapKeeps : (∃ code tval, t = takeException s code tval) → ∀ a, readByte t a = readByte s a := by
    rintro ⟨code, v, rfl⟩ a
    exact readByte_congr (takeException_mem ..) a
  refine ⟨trapKeeps, fun a => ?_⟩
  obtain ⟨u, effect, adv, rfl⟩ | trap := exec_eq_next ends
  · have kept : readByte (setPc u (pc u + 4#64)) a = readByte u a := readByte_congr rfl a
    rw [kept]
    obtain same | ⟨pcc, csrs, stores⟩ := effect.readByte wf a
    · exact .inl same
    · have moved := advancedBy4_setPc ((pcAdvances_congr pcc effect.cfg).symm.trans adv) pcc effect.cfg
      obtain ⟨rd, rs1, rs2, aq, rl, sc, here, held⟩ | ⟨rd, rs1, rs2, aq, rl, sc, low, high, held⟩ := stores
      · exact .inr (.inl ⟨rd, rs1, rs2, aq, rl, sc, here, held, moved, csrs⟩)
      · exact .inr (.inr ⟨rd, rs1, rs2, aq, rl, sc, low, high, held, moved, csrs⟩)
  · exact .inl (trapKeeps trap a)

/-! ### Machine-level CSRs -/

/-- The base CSRs with a number of machine level. -/
def machineBase : BaseCsr → Bool
  | .mseccfg => true
  | .menvcfg => true
  | .misa => true
  | .mstatus => true
  | .mstatush => true
  | .mcause => true
  | .mtval => true
  | .mie => true
  | .mip => true
  | .medeleg => true
  | .mideleg => true
  | _ => false

/-- What stays of the machine-level CSRs, and of `mstatus` outside `sstatus`. -/
structure KeepsMachineCsrs (f g : CsrFile) : Prop where
  caps : g.mtvecc = f.mtvecc ∧ g.mepcc = f.mepcc
  config : g.mseccfg = f.mseccfg ∧ g.menvcfg = f.menvcfg ∧ g.misa = f.misa
  cause : g.mcause = f.mcause ∧ g.mtval = f.mtval
  interrupts : g.mie = f.mie ∧ g.mip = f.mip ∧ g.medeleg = f.medeleg ∧ g.mideleg = f.mideleg
  status : g.mstatus &&& ~~~sstatusMask = f.mstatus &&& ~~~sstatusMask

theorem KeepsMachineCsrs.refl (f : CsrFile) : KeepsMachineCsrs f f := by constructor <;> simp

theorem keepsMachineCsrs_set (f : CsrFile) {id : CapCsr} (supervisor : id ≠ .mtvecc ∧ id ≠ .mepcc) (v : Cap) :
    KeepsMachineCsrs f (f.set id v) := by
  cases id with
  | mtvecc => exact absurd rfl supervisor.1
  | mepcc => exact absurd rfl supervisor.2
  | _ => exact ⟨⟨rfl, rfl⟩, ⟨rfl, rfl, rfl⟩, ⟨rfl, rfl⟩, ⟨rfl, rfl, rfl, rfl⟩, rfl⟩

theorem keepsMachineCsrs_writeBase (c : HartConfig) (f : CsrFile) {b : BaseCsr} (supervisor : machineBase b = false)
    (v : XWord) : KeepsMachineCsrs f (writeBase c f b v) := by
  cases b with
  | sstatus => exact ⟨⟨rfl, rfl⟩, ⟨rfl, rfl, rfl⟩, ⟨rfl, rfl⟩, ⟨rfl, rfl, rfl, rfl⟩, writeSstatus_hidden ..⟩
  | senvcfg | scause | stval | hstatus | hedeleg | hideleg | vsstatus | vscause | vstval =>
    exact ⟨⟨rfl, rfl⟩, ⟨rfl, rfl, rfl⟩, ⟨rfl, rfl⟩, ⟨rfl, rfl, rfl, rfl⟩, rfl⟩
  | _ => cases supervisor

/-- A machine-level capability CSR has a number of machine level. -/
theorem machineNumber_of_extendedCsr {c : HartConfig} {p : Priv} {num : CsrNum} {id : CapCsr}
    (listed : extendedCsr c p num = some (id, true)) (machine : id = .mtvecc ∨ id = .mepcc) : num.extractLsb' 8 2 = 3#2 := by
  unfold extendedCsr at listed
  grind

theorem machineNumber_of_baseCsr {c : HartConfig} {p : Priv} {num : CsrNum} {b : BaseCsr}
    (listed : baseCsr c p num = some (b, true)) (machine : machineBase b = true) : num.extractLsb' 8 2 = 3#2 := by
  by_contra supervisor
  -- Without the machine-level rows, those that are left name supervisor and hypervisor registers.
  have ne (m : CsrNum) (level : m.extractLsb' 8 2 = 3#2) : num ≠ m := by
    rintro rfl
    exact supervisor level
  simp only [baseCsr, ne 0x747#12 rfl, ne 0x30a#12 rfl, ne 0x301#12 rfl, ne 0x300#12 rfl, ne 0x310#12 rfl, ne 0x342#12 rfl,
    ne 0x343#12 rfl, ne 0x304#12 rfl, ne 0x344#12 rfl, ne 0x302#12 rfl, ne 0x303#12 rfl, if_false] at listed
  repeat' split at listed
  all_goals simp only [Option.some.injEq, Prod.mk.injEq, reduceCtorEq] at listed
  all_goals
    obtain ⟨rfl, -⟩ := listed
    cases machine

/-- Below machine mode R110 (b) passes no number of machine level. -/
theorem not_machineNumber {s : State} {num : CsrNum} (below : s.priv ≠ .M) (privilege : csrPrivOk s num = true) :
    num.extractLsb' 8 2 ≠ 3#2 := by
  intro machine
  have rank : 3 ≤ privRank s.cfg s.priv := by simpa [csrPrivOk, machine] using privilege
  revert rank below
  cases s.priv <;> simp [privRank]
  split <;> decide

/-- What a number below machine level names is no machine-level CSR. -/
inductive NamesSupervisor : CsrTarget → Prop
  | cap {id : CapCsr} (cls : CapClass) (supervisor : id ≠ .mtvecc ∧ id ≠ .mepcc) : NamesSupervisor (.cap id cls)
  | narrow {id : CapCsr} (supervisor : id ≠ .mtvecc ∧ id ≠ .mepcc) : NamesSupervisor (.narrow id)
  | base {b : BaseCsr} (supervisor : machineBase b = false) : NamesSupervisor (.base b)
  | absent : NamesSupervisor .absent
  | unknown : NamesSupervisor .unknown

theorem Names.namesSupervisor {c : HartConfig} {p : Priv} {num : CsrNum} {target : CsrTarget} (names : Names c p num target)
    (below : num.extractLsb' 8 2 ≠ 3#2) : NamesSupervisor target := by
  have listedCap {id : CapCsr} (listed : extendedCsr c p num = some (id, true)) : id ≠ .mtvecc ∧ id ≠ .mepcc :=
    not_or.mp fun machine => below (machineNumber_of_extendedCsr listed machine)
  cases names with
  | extended base listed => exact .cap _ (listedCap listed)
  | narrow base listed => exact .narrow (listedCap listed)
  | base listed => exact .base (Bool.eq_false_iff.mpr fun machine => below (machineNumber_of_baseCsr listed machine))
  | ddc hybrid => exact .cap _ (by decide)
  | further cls base => exact .cap _ ⟨CapCsr.noConfusion, CapCsr.noConfusion⟩
  | absent => exact .absent
  | unknown => exact .unknown

/-- A CSR instruction that names no machine-level CSR writes none. -/
theorem CsrWritten.keepsMachineCsrs {s t : State} {target : CsrTarget} (written : CsrWritten s target t)
    (names : NamesSupervisor target) : KeepsMachineCsrs s.csrs t.csrs := by
  have xlen (a : XWord) : KeepsMachineCsrs s.csrs (csrWriteX s target a).csrs := by
    cases names with
    | cap cls supervisor => exact keepsMachineCsrs_set _ supervisor _
    | narrow supervisor => exact keepsMachineCsrs_set _ supervisor _
    | base supervisor => exact keepsMachineCsrs_writeBase _ _ supervisor _
    | absent => exact .refl _
    | unknown => exact .refl _
  cases written with
  | none => exact .refl _
  | xlen a => exact xlen a
  | clen v width =>
    cases names with
    | cap cls supervisor => exact keepsMachineCsrs_set _ supervisor _
    | narrow supervisor => exact xlen v.addr
    | base supervisor => exact xlen v.addr
    | absent => exact .refl _
    | unknown => exact .refl _

theorem Effect.keepsMachineCsrs {s u : State} {i : Instr} (h : Effect s i u) (below : s.priv ≠ .M) :
    KeepsMachineCsrs s.csrs u.csrs := by
  cases h with
  | csr rd w v use access write =>
    rw [passEvent_csrs, deliver_csrs]
    refine write.keepsMachineCsrs ?_
    rw [← access.target]
    exact (names_csrTarget ..).namesSupervisor (not_machineNumber below access.privilege)
  | register rd v => rw [writeC_csrs]; exact .refl _
  | loadReserved rd n a => rw [loadReservedAt_csrs]; exact .refl _
  | storeByte rd rs1 rs2 aq rl => rw [storeConditionalAt_csrs]; exact .refl _
  | storeHalf rd rs1 rs2 aq rl => rw [storeConditionalAt_csrs]; exact .refl _
  | switch m isSwitch notOff => exact .refl _

/-- Settles O59: the effects below machine mode, with the bits of `mstatus` that `sstatus` does not show. -/
theorem machineCsrsAreOutOfReachBelowMachineMode : Obligations.MachineCsrsAreOutOfReachBelowMachineMode := by
  intro i s t below ends
  obtain ⟨u, effect, -, rfl⟩ | trap := exec_eq_next ends
  · obtain ⟨⟨mtvecc, mepcc⟩, ⟨mseccfg, menvcfg, misa⟩, ⟨mcause, mtval⟩, ⟨mie, mip, medeleg, mideleg⟩, status⟩ :=
      effect.keepsMachineCsrs below
    exact .inr ⟨mtvecc, mepcc, mseccfg, menvcfg, misa, mcause, mtval, mie, mip, medeleg, mideleg, status,
      bit_eq_of_hidden status (by decide) (by decide), bit_eq_of_hidden status (by decide) (by decide),
      mppOf_eq_of_hidden status⟩
  · exact .inl trap

end Sys2Proof.Proofs
end
